-- ==== Sys2Proof/Word.lean ====
section
/-! DEFINITION. The word type (00_scope.md R7: `ADDR_WIDTH` and `DATA_WIDTH` are 32 bits; R10, R11:
bit 0 least significant, all values unsigned). -/

namespace Sys2Proof

/-- One 32-bit word: an address, a bus transfer, an operand of an operation (R7, R82). -/
abbrev Word := BitVec 32

/-- `mask_32(base + offset)` of R50: the sum wraps modulo 2^32. -/
abbrev Word.plus (base offset : Word) : Word := base + offset

end Sys2Proof
end

