-- ==== Sys2Proof/Syntax.lean ====
section
/-! DEFINITION. The instructions: one constructor for each row of `spec/opcode_table.json`, ten descriptor
operations (30_encoding.md R78) and the two `CTRL` command classes (R70). -/

namespace Sys2Proof

/-- The seven fields of the MDIO control word, each at its declared width (R68). -/
structure CtrlFields where
  cpuDataIn : BitVec 16
  finish    : BitVec 1
  reserved  : BitVec 1
  rw        : BitVec 1
  phyExaddr : BitVec 5
  frqDv     : BitVec 3
  phyInaddr : BitVec 5
deriving DecidableEq, Repr

/-- The instruction set. Operands of a descriptor operation are full 32-bit words (R82: "every argument is an
unsigned 32-bit word"); the fields of a command word carry their own widths (R68), so no term needs a range
check. -/
inductive Instr where
  /-- `COMPOSE_CTRL` (R87). -/
  | composeCtrl (cpuDataIn finish reserved rw phyExaddr frqDv phyInaddr : Word)
  /-- `DECODE_CTRL` (R88). -/
  | decodeCtrl (word : Word)
  /-- `WAIT_READY` (R91). -/
  | waitReady (base : Word)
  /-- `START_READ` (R93). -/
  | startRead (base freqDiv phyAddr regNum : Word)
  /-- `READ_RESULT` (R94). -/
  | readResult (base : Word)
  /-- `MDIO_READ` (R95), operands in the source's order. -/
  | mdioRead (freqDiv phyAddr base regNum : Word)
  /-- `SELECT_MAP` (R105). -/
  | selectMap (gen : Word)
  /-- `DECODE_STRAP` (R107). -/
  | decodeStrap (gen code : Word)
  /-- `READ_STRAP` (R108). -/
  | readStrap (gen : Word)
  /-- `DETECT` (R110). -/
  | detect (gen : Word)
  /-- `MDIO_CMD_READ`, a word at the controller's command path with bits 31:13 zero (R70). -/
  | mdioCmdRead (phyExaddr : BitVec 5) (frqDv : BitVec 3) (phyInaddr : BitVec 5)
  /-- `MDIO_CMD_WRITE`, a word at the controller's command path with `rw = 1` (R70). -/
  | mdioCmdWrite (cpuDataIn : BitVec 16) (finish reserved : BitVec 1) (phyExaddr : BitVec 5) (frqDv : BitVec 3) (phyInaddr : BitVec 5)
deriving DecidableEq, Repr

/-- What is presented to the machine from outside: an operation descriptor, header word first (R79), at the
engine's host interface; or a command word at the controller's command path (R37). -/
inductive Presented where
  | descriptor (words : List Word)
  | command (w : Word)
deriving DecidableEq, Repr

end Sys2Proof
end

