-- ==== Sys2Proof/WellFormed.lean ====
section
/-! DEFINITION. Which presented terms are well formed, written from the tables of 30_encoding.md (R79, R81, R70)
and not from the decoder. An `Instr` needs no check of its own: every field carries its exact width. -/

namespace Sys2Proof

/-- R79's table: each legal header word (op code in bits 3:0, bits 31:4 zero) with its number of argument words. -/
def argCount (header : Word) : Option Nat :=
  List.lookup header
    [(0x1, 7), (0x2, 1), (0x3, 1), (0x4, 4), (0x5, 1), (0x6, 4), (0x7, 1), (0x8, 2), (0x9, 1), (0xA, 1)]

/-- A descriptor is well formed when its header is legal (R81) and it has exactly the argument words R79 gives. -/
def descriptorWf : List Word → Bool
  | [] => false
  | header :: args =>
    match argCount header with
    | some k => args.length == k
    | none => false

/-- `MDIO_CMD_READ` by match and mask: `w & 0xFFFFE000 = 0` (R70). -/
def isReadCommand (w : Word) : Bool := w &&& 0xFFFFE000#32 == 0#32

/-- `MDIO_CMD_WRITE` by match and mask: `w & 0x00002000 = 0x00002000` (R70). -/
def isWriteCommand (w : Word) : Bool := w &&& 0x2000#32 == 0x2000#32

/-- A presented term is well formed: a descriptor by R79, a command word by one of the two classes of R70. -/
def Presented.wf : Presented → Bool
  | .descriptor ws => descriptorWf ws
  | .command w => isReadCommand w || isWriteCommand w

end Sys2Proof
end

