-- ==== Sys2Proof/Decode.lean ====
section
/-! DEFINITION. The control-word codec (30_encoding.md R68, R69; 40_field_codec.md R87, R88), the decoder of
presented terms (R79, R81, R70), the encoder, and the opcode table's numbering of an instruction's bits. -/

namespace Sys2Proof

/-! ## The fields of the control word -/

/-- One row of R69: a field's shift and width. -/
structure FieldSpec where
  shift : Nat
  width : Nat
deriving DecidableEq, Repr

/-- R69's mask column: `2^width - 1`. -/
def FieldSpec.mask (f : FieldSpec) : Word := BitVec.ofNat 32 (2 ^ f.width - 1)

/-- `(f & mask) << shift` (R69): a value is masked to its field before it is placed. -/
def FieldSpec.place (f : FieldSpec) (v : Word) : Word := (v &&& f.mask) <<< f.shift

/-- `(w >> shift) & mask` (R69). -/
def FieldSpec.get (f : FieldSpec) (w : Word) : Word := (w >>> f.shift) &&& f.mask

def ctrlCpuDataIn : FieldSpec := ⟨16, 16⟩
def ctrlFinish    : FieldSpec := ⟨15, 1⟩
def ctrlReserved  : FieldSpec := ⟨14, 1⟩
def ctrlRw        : FieldSpec := ⟨13, 1⟩
def ctrlPhyExaddr : FieldSpec := ⟨8, 5⟩
def ctrlFrqDv     : FieldSpec := ⟨5, 3⟩
def ctrlPhyInaddr : FieldSpec := ⟨0, 5⟩

/-- The word of R87's pseudocode. -/
def composeWord (cpuDataIn finish reserved rw phyExaddr frqDv phyInaddr : Word) : Word :=
  ctrlCpuDataIn.place cpuDataIn ||| ctrlFinish.place finish ||| ctrlReserved.place reserved ||| ctrlRw.place rw
    ||| ctrlPhyExaddr.place phyExaddr ||| ctrlFrqDv.place frqDv ||| ctrlPhyInaddr.place phyInaddr

/-- The seven fields of R88's pseudocode. -/
def wordFields (w : Word) : CtrlFields where
  cpuDataIn := (ctrlCpuDataIn.get w).setWidth 16
  finish    := (ctrlFinish.get w).setWidth 1
  reserved  := (ctrlReserved.get w).setWidth 1
  rw        := (ctrlRw.get w).setWidth 1
  phyExaddr := (ctrlPhyExaddr.get w).setWidth 5
  frqDv     := (ctrlFrqDv.get w).setWidth 3
  phyInaddr := (ctrlPhyInaddr.get w).setWidth 5

/-- The word whose fields are `f`. -/
def fieldsWord (f : CtrlFields) : Word :=
  composeWord (f.cpuDataIn.setWidth 32) (f.finish.setWidth 32) (f.reserved.setWidth 32) (f.rw.setWidth 32)
    (f.phyExaddr.setWidth 32) (f.frqDv.setWidth 32) (f.phyInaddr.setWidth 32)

/-! ## The decoder -/

/-- What the decoder answers: an instruction, or why there is none. -/
inductive Decoded where
  | instr (i : Instr)
  /-- An illegal header: op code 0x0 or 0xB to 0xF, or bits 31:4 not all zero (R81). -/
  | illegal
  /-- A descriptor with fewer argument words than R79 requires (R81). -/
  | short
  /-- A descriptor with more argument words than R79 gives its op code. -/
  | overlong
  /-- A command word with `rw = 0` and bits 31:14 not all zero: "a read-class word the engine never writes" (R70,
  R84). It is no row of the opcode table. -/
  | readClass (w : Word)
deriving DecidableEq, Repr

/-- A descriptor whose argument words are not the `k` of R79. -/
def wrongLength (k : Nat) (args : List Word) : Decoded :=
  if args.length < k then .short else .overlong

/-- The decoder of operation descriptors (R78, R79, R81). The header is judged before the length: an illegal
header is illegal whatever follows it. -/
def decodeDescriptor : List Word → Decoded
  | [] => .short
  | header :: args =>
    if header >>> 4 ≠ 0#32 then .illegal
    else match (header &&& 0xF#32).toNat, args with
      | 0x1, [d, f, r, rw, ex, fd, inn] => .instr (.composeCtrl d f r rw ex fd inn)
      | 0x1, _ => wrongLength 7 args
      | 0x2, [w] => .instr (.decodeCtrl w)
      | 0x2, _ => wrongLength 1 args
      | 0x3, [base] => .instr (.waitReady base)
      | 0x3, _ => wrongLength 1 args
      | 0x4, [base, fd, phy, reg] => .instr (.startRead base fd phy reg)
      | 0x4, _ => wrongLength 4 args
      | 0x5, [base] => .instr (.readResult base)
      | 0x5, _ => wrongLength 1 args
      | 0x6, [fd, phy, base, reg] => .instr (.mdioRead fd phy base reg)
      | 0x6, _ => wrongLength 4 args
      | 0x7, [gen] => .instr (.selectMap gen)
      | 0x7, _ => wrongLength 1 args
      | 0x8, [gen, code] => .instr (.decodeStrap gen code)
      | 0x8, _ => wrongLength 2 args
      | 0x9, [gen] => .instr (.readStrap gen)
      | 0x9, _ => wrongLength 1 args
      | 0xA, [gen] => .instr (.detect gen)
      | 0xA, _ => wrongLength 1 args
      | _, _ => .illegal

/-- The decoder of command words, by the match and mask of R70. A word of neither row has `rw = 0`: R70 calls it
read-class. DESIGN CHOICE (log 14): it is kept apart from `MDIO_CMD_READ`, and what it does at the controller is
`Machine.takeReadClass`. -/
def decodeCommand (w : Word) : Decoded :=
  let f := wordFields w
  if w &&& 0x2000#32 = 0x2000#32 then
    .instr (.mdioCmdWrite f.cpuDataIn f.finish f.reserved f.phyExaddr f.frqDv f.phyInaddr)
  else if w &&& 0xFFFFE000#32 = 0#32 then .instr (.mdioCmdRead f.phyExaddr f.frqDv f.phyInaddr)
  else .readClass w

/-- The decoder, total on whatever is presented. -/
def decode : Presented → Decoded
  | .descriptor ws => decodeDescriptor ws
  | .command w => decodeCommand w

/-! ## The encoder -/

/-- The presented form of an instruction (R78, R79 for a descriptor; R68, R70 for a command word). -/
def encode : Instr → Presented
  | .composeCtrl d f r rw ex fd inn => .descriptor [0x1, d, f, r, rw, ex, fd, inn]
  | .decodeCtrl w => .descriptor [0x2, w]
  | .waitReady base => .descriptor [0x3, base]
  | .startRead base fd phy reg => .descriptor [0x4, base, fd, phy, reg]
  | .readResult base => .descriptor [0x5, base]
  | .mdioRead fd phy base reg => .descriptor [0x6, fd, phy, base, reg]
  | .selectMap gen => .descriptor [0x7, gen]
  | .decodeStrap gen code => .descriptor [0x8, gen, code]
  | .readStrap gen => .descriptor [0x9, gen]
  | .detect gen => .descriptor [0xA, gen]
  | .mdioCmdRead ex fd inn => .command (fieldsWord ⟨0, 0, 0, 0, ex, fd, inn⟩)
  | .mdioCmdWrite d f r ex fd inn => .command (fieldsWord ⟨d, f, r, 1, ex, fd, inn⟩)

/-! ## The opcode table's numbering -/

/-- The eight 32-bit words (the longest descriptor, R79) of an instruction whose bits are `w`, bit 0 the least
significant bit of the first word, bits from `nbits` up zero. -/
def tableWords (nbits w : Nat) : List Word :=
  [0, 1, 2, 3, 4, 5, 6, 7].map fun k => BitVec.ofNat 32 (w % 2 ^ nbits / 2 ^ (32 * k))

/-- How those words are presented: a legal header (R79) makes a descriptor of the length its op code gives; any
other first word is a command word at the controller's command path. Log 6. -/
def tablePresented (nbits w : Nat) : Presented :=
  let first := BitVec.ofNat 32 (w % 2 ^ nbits)
  match argCount first with
  | some k => .descriptor ((tableWords nbits w).take (k + 1))
  | none => .command first

/-- The instruction the decoder reads from bits numbered as `spec/opcode_table.json` numbers them. -/
def decodeTableWord (nbits w : Nat) : Option Instr :=
  match decode (tablePresented nbits w) with
  | .instr i => some i
  | _ => none

end Sys2Proof
end

