-- ==== Sys2Proof/Config.lean ====
section
/-! DEFINITION. The parameters of 00_scope.md R7, the shape of the generation table (R104), the answers of
the register access primitive (R12, R52), and the free values: opaque constants without a body. -/

namespace Sys2Proof

/-- `ADDR_ASSIGN`: which operand of `start_read` goes into which address field (R73, D5). -/
inductive AddrAssign where
  /-- PHY address in `phy_exaddr`, register number in `phy_inaddr` (the spec's default). -/
  | exIsPhy
  /-- Register number in `phy_exaddr`, PHY address in `phy_inaddr` (the source's literal text). -/
  | exIsReg
deriving DecidableEq, Repr

/-- `POLL_BUSERR`: what a failed bus read does inside `wait_ready` (R7, D7). -/
inductive PollBusErr where
  | abort
  | notReady
deriving DecidableEq, Repr

/-- `ON_MDIO_FAIL`: whether `DETECT` performs the MDIO steps after a failed one (R7, D22). -/
inductive OnMdioFail where
  | continueSteps
  | skipRest
deriving DecidableEq, Repr

/-- The two strap code tables of R106. -/
inductive CodeTable where
  | T1
  | T3
deriving DecidableEq, Repr

/-- A strap map: register address, field width, lowest bit of the field, code table (R104). -/
structure StrapMap where
  addr  : Word
  width : Nat
  lsb   : Nat
  table : CodeTable
deriving DecidableEq, Repr

/-- One record of `GEN_TABLE`: the MDIO base and the strap map, each possibly absent (R104). -/
structure GenRecord where
  mdioBase : Option Word
  strap    : Option StrapMap
deriving DecidableEq, Repr

/-- One use of the register access primitive: a 32-bit read or a 32-bit write (R12, R49). -/
inductive Access where
  | rd (addr : Word)
  | wr (addr : Word) (w : Word)
deriving DecidableEq, Repr

/-- One answer of the primitive. `word` is the word of a read, `ok` its success flag (R12). `reached` matters
only for a write that answered `ok = false`: whether it reached the device all the same, which the source does
not say (R150, U16). A write with `ok = true` has reached it (R64). -/
structure Answer where
  word    : Word
  ok      : Bool
  reached : Bool
deriving DecidableEq, Repr, Inhabited

/-- FREE VALUE. The answer of the `n`-th free draw to an access (R52: "the answers of the primitive are draws",
"the model puts no law on them"). No body: nothing can be proved about it. Log 1. -/
opaque Config.freeAnswer : Nat → Access → Answer

/-- FREE VALUE. `STRAP_LSB_F`, OPEN, 0 to 31 (R7, D17). Log 11. -/
opaque Config.strapLsbF : Fin 32

/-- FREE VALUE. `STRAP_LSB_G`, OPEN, 0 to 29 (R7, D17). Log 11. -/
opaque Config.strapLsbG : Fin 30

/-- FREE VALUE. `STRAP_LSB_H`, OPEN, 0 to 29 (R7, D17). Log 11. -/
opaque Config.strapLsbH : Fin 30

/-- The parameters of R7, each with the source's value or the spec's default; the strap positions, which have
neither, are the free values above. `extraRecords` are the further records `GEN_TABLE` may hold for generations
the source does not list (R104, D24); the records of A to H are `Machine.hardwareRecord`. -/
structure Params where
  nPoll        : Nat := 1000
  /-- `T_POLL` in microseconds; timing only (R151). -/
  tPoll        : Nat := 1
  addrAssign   : AddrAssign := .exIsPhy
  pollBusErr   : PollBusErr := .abort
  onMdioFail   : OnMdioFail := .continueSteps
  strapLsbF    : Fin 32 := Config.strapLsbF
  strapLsbG    : Fin 30 := Config.strapLsbG
  strapLsbH    : Fin 30 := Config.strapLsbH
  extraRecords : List (Word × GenRecord) := []
deriving DecidableEq, Repr

end Sys2Proof
end

