-- ==== Sys2Proof/Machine/State.lean ====
section
/-! DEFINITION. The state of the machine (10_state.md), its reset value (R47), and the reasons a step can stop. -/

namespace Sys2Proof.Machine

/-- `PHASE`, the engine's sequencing position (R21). Codes 6 and 7 never occur (R22) and have no constructor. -/
inductive Phase where
  | idle
  | waitReadyPre
  | commandIssued
  | waitReadyPost
  | resultRead
  | failed
deriving DecidableEq, Repr

/-- `STATUS` (R29, R118). -/
inductive Status where
  | ok
  | timeout
  | busy
  | readTimeout
  | busError
  | illegal
  /-- No operation has ended since reset. -/
  | none
deriving DecidableEq, Repr

/-- A diagnostic event; no other kind exists (R30). -/
inductive Diag where
  | busy
  | readTimeout
deriving DecidableEq, Repr

/-- One bus event of `TRACE` (R31). The word of a failed read carries no information (R12). -/
inductive BusEvent where
  | rd (addr v : Word) (ok : Bool)
  | wr (addr v : Word) (ok : Bool)
deriving DecidableEq, Repr

/-- The interface modes (R83). -/
inductive Mode where
  | unknown
  | mii
  | rmii
  | gmiiMii
  | rgmii
deriving DecidableEq, Repr

/-- One key of the detection record with its value (R32). -/
inductive OutEntry where
  | uMdioPhyaddr (v : Word)
  | phyId (v : Word)
  | dMdioPhyaddr (v : Word)
  | phyMode (m : Mode)
deriving DecidableEq, Repr

/-- The value component of an operation's result (R78). -/
inductive Value where
  /-- The operation has no value of its own (a `START_READ` that succeeded, R78; an illegal descriptor). -/
  | none
  | word (w : Word)
  | fields (f : CtrlFields)
  | count (n : Nat)
  | value (v : BitVec 16)
  | map (mdioBase : Option Word) (strap : Option StrapMap)
  | mode (m : Mode)
  | record (out : List OutEntry)
deriving DecidableEq, Repr

/-- `return (x, s)` of R13: what an operation hands to the host. -/
structure Returned where
  value  : Value
  status : Status
deriving DecidableEq, Repr

/-- An MDIO read cycle the controller has started: the PHY and register it reads and its divider (R70). -/
structure Cycle where
  phy     : BitVec 5
  reg     : BitVec 5
  divider : BitVec 3
deriving DecidableEq, Repr

/-- The parameters of the reference device (R132). `INF` is `none`. `lat` and `phyReg` list the functions `LAT` and
`PHYREG` where they differ from their defaults. -/
structure RefParams where
  base       : Word
  /-- The strap address of the running generation, if it has one (R134). -/
  strapAddr  : Option Word
  lat        : List (Nat × Option Nat)
  latDefault : Option Nat
  phyReg     : List ((BitVec 5 × BitVec 5) × BitVec 16)
  phyDefault : BitVec 16
  uVal       : Word
  dVal       : Word
  strapWord  : Word
  /-- The bus event numbers that answer `ok = false`. -/
  fails      : List Nat
  /-- `FIN0`, the initial finish bit. -/
  fin0       : BitVec 1
  /-- `FDV0`, the initial divider. -/
  fdv0       : BitVec 3
  /-- `DATA0`, the initial result word. -/
  data0      : BitVec 16
deriving DecidableEq, Repr

/-- The reference device: its parameters and its state (R132); its initial state is `RefParams.initial`. -/
structure RefDevice extends RefParams where
  fin  : BitVec 1
  fdv  : BitVec 3
  /-- Commands received. -/
  n    : Nat
  cnt  : Option Nat
  cmd  : Word
  data : BitVec 16
deriving DecidableEq, Repr

/-- The register access primitive (R48, R52). -/
inductive Bus where
  /-- Unconstrained: the answers still scripted, then free draws numbered from `n`. Log 1. -/
  | oracle (script : List Answer) (n : Nat)
  /-- The reference device (R132 to R134), for test vectors and smoke runs only. Log 16. -/
  | reference (d : RefDevice)
deriving DecidableEq, Repr

/-- The engine registers that have no value at reset (R47). -/
inductive EngineReg where
  | cnt
  | base
  | fdiv
  | paddr
  | rnum
  | result
deriving DecidableEq, Repr

/-- The state (R19), the host's side of the machine, and the model's own fields (INVENTORY.md, State). -/
@[ext]
structure State where
  /-- `PHASE` (R21, R22). -/
  phase         : Phase
  /-- `CNT` (R23). -/
  cnt           : Nat
  /-- `BASE` (R24). -/
  base          : Word
  /-- `FDIV` (R25). -/
  fdiv          : BitVec 3
  /-- `PADDR` (R26). -/
  paddr         : BitVec 5
  /-- `RNUM` (R27). -/
  rnum          : BitVec 5
  /-- `RESULT` (R28). -/
  result        : BitVec 16
  /-- `STATUS` (R29). -/
  status        : Status
  /-- `DIAG` (R30), oldest first. -/
  diag          : List Diag
  /-- `TRACE` (R31), in issue order. -/
  trace         : List BusEvent
  /-- `OUT` (R32). -/
  out           : List OutEntry
  /-- `STAGE` (R32). -/
  stage         : List OutEntry
  /-- Whether `CNT` has a value (R47, U22). -/
  cntValued     : Bool
  /-- Whether `BASE`, `FDIV`, `PADDR` and `RNUM` have a value; one operation writes all four (R47, U22). -/
  latchesValued : Bool
  /-- Whether `RESULT` has a value (R47, U21). -/
  resultValued  : Bool
  /-- The MDIO read cycles of the read commands that reached the controller, oldest first (R37, R46, R58); a command
  that reached it while busy counts too, whose effect the spec leaves open (R145, N10, U11), and so does one at a base
  outside R60's table, where the platform decides what stands (R61). Log 8. -/
  cycles        : List Cycle
  /-- What is presented next: descriptors and command words, first come first (R79, R103, R37). Log 5. -/
  inbox         : List Presented
  /-- What the last operation returned (R13, R136). `none`: no operation has ended. Log 12. -/
  returned      : Option Returned
  /-- The primitive (R52). The model's own field. -/
  bus           : Bus
  /-- How many times the engine slept `T_POLL` (R92). The model's own field. Log 10. -/
  sleeps        : Nat
  /-- The parameters (R7, R33). The model's own field; no step changes it. Log 2. -/
  params        : Params
deriving DecidableEq, Repr

/-- Why the machine stops with a fault. -/
inductive Fault where
  /-- A register that R47 leaves without a value is read before an operation wrote it: "a model must fault on a read of
  it" (R47), "`fault`" (U21, U22), where `fault` is "the model stops with an error" (93_implementation_defined.md).
  Raised by `hostRead` and by a phase step of a state no run reaches; no instruction raises it. Safe: the machine only
  stops. -/
  | valuelessRegister (r : EngineReg)
deriving DecidableEq, Repr

/-- Why a step is refused. -/
inductive Refusal where
  /-- No meaning yet: raised by a refused arm of `exec`. Safe. -/
  | notModelled (mnemonic : String)
  /-- An operation handed to `exec` while `PHASE` is not `Idle`: "outside the model, which gives it no step" (R103,
  U26). Raised by every descriptor operation. Safe. -/
  | operationWhileBusy
  /-- A descriptor with too few argument words: "refused by the host interface before it reaches the engine"
  (R81, U25). Raised by `step`. Safe. -/
  | shortDescriptor
  /-- A descriptor with more argument words than its op code's length (R79). Raised by `step`. Safe. Log 5. -/
  | overlongDescriptor
  /-- A command word with `rw = 0` and a written `finish` or `reserved` of 1 at the undescribed controller: "`refuse`" (U13,
  R71, R72). Raised by `takeReadClass`, unless the reference device is installed. Safe. Log 14. -/
  | finishOrReservedWritten
  /-- An MDIO write command at a controller whose response is not in the source (R70, N9, U12). Raised by
  `execMdioCmdWrite`, unless the reference device is installed. Safe. Log 7. -/
  | mdioWriteUndescribed
deriving DecidableEq, Repr

/-- Reset (R47, R138). The registers without a value hold zero, with their `Valued` flags false (log 3). The
engine starts with nothing presented (R139). -/
def State.reset : State where
  phase := .idle
  cnt := 0
  base := 0
  fdiv := 0
  paddr := 0
  rnum := 0
  result := 0
  status := .none
  diag := []
  trace := []
  out := []
  stage := []
  cntValued := false
  latchesValued := false
  resultValued := false
  cycles := []
  inbox := []
  returned := none
  bus := .oracle [] 0
  sleeps := 0
  params := {}

end Sys2Proof.Machine
end

