-- ==== Sys2Proof/Machine/Flags.lean ====
section
/-! DEFINITION. The one status bit the engine reads, and the numeric codes the spec gives its enumerations. -/

namespace Sys2Proof.Machine

/-- The ready/finish bit: bit 15 of `MDIO_RWCTRL` as read (R34). The other 31 bits have no effect (R91). -/
def ready (v : Word) : Bool := v.getLsbD 15

/-- A poll observes ready: the read succeeded and bit 15 is set (R91). -/
def Answer.ready (a : Answer) : Bool := a.ok && Machine.ready a.word

/-- The codes of `PHASE` (R21). -/
def Phase.code : Phase → BitVec 3
  | .idle => 0
  | .waitReadyPre => 1
  | .commandIssued => 2
  | .waitReadyPost => 3
  | .resultRead => 4
  | .failed => 5

/-- The status codes (R118); code 6 is unused. -/
def Status.code : Status → Nat
  | .ok => 0
  | .timeout => 1
  | .busy => 2
  | .readTimeout => 3
  | .busError => 4
  | .illegal => 5
  | .none => 7

/-- The mode codes (R83). -/
def Mode.code : Mode → Nat
  | .unknown => 0
  | .mii => 1
  | .rmii => 2
  | .gmiiMii => 3
  | .rgmii => 4

/-- The mode strings (R83); `UNKNOWN` has none. -/
def Mode.text : Mode → Option String
  | .unknown => none
  | .mii => some "mii"
  | .rmii => some "rmii"
  | .gmiiMii => some "gmii/mii"
  | .rgmii => some "rgmii"

/-- Two statuses, two codes (R118). -/
theorem Status.code_injective : Function.Injective Status.code := by
  intro a b
  cases a <;> cases b <;> simp [Status.code]

/-- Two phases, two codes, none of them 6 or 7 (R21, R22). -/
theorem Phase.code_injective : Function.Injective Phase.code := by
  intro a b
  cases a <;> cases b <;> simp [Phase.code]

end Sys2Proof.Machine
end

