-- ==== Sys2Proof/Machine/Operands.lean ====
section
/-! DEFINITION. Every operand form: register addresses (R36, R50), the generation operand and its table (R80,
R104), operand narrowing (R82), the read command word (R90), the PHY identifier (R76), the strap code (R77). -/

namespace Sys2Proof.Machine

/-! ## Controller registers: offsets from a base (R36) -/

def offRwctrl : Word := 0x1100
def offRoData : Word := 0x1104
def offUPhyaddr : Word := 0x0108
def offDPhyaddr : Word := 0x2108
/-- Listed and never accessed (R43). -/
def offURoStat : Word := 0x010C
/-- Listed and never accessed (R43). -/
def offDRoStat : Word := 0x210C

/-- The address of a controller register: `mask_32(base + offset)` (R50). -/
def regAddr (base offset : Word) : Word := base.plus offset

/-! ## Narrowing (R82, R90: always by mask, never by a range check) -/

/-- `mask_3(freq_div)`. -/
def narrowDiv (w : Word) : BitVec 3 := w.setWidth 3

/-- `mask_5` of a PHY address or register number. -/
def narrowAddr (w : Word) : BitVec 5 := w.setWidth 5

/-- The low 16 bits of a result (R75). -/
def narrowResult (w : Word) : BitVec 16 := w.setWidth 16

/-- `frq_dv` of a read-back control word: bits 7:5 (R74). -/
def readDivider (c : Word) : BitVec 3 := (wordFields c).frqDv

/-! ## The read command (R90) -/

/-- `READ_CMD(freq_div, phy_addr, reg_num)`, by `ADDR_ASSIGN` (R73, R90). -/
def readCmd (p : Params) (freqDiv phyAddr regNum : Word) : Word :=
  match p.addrAssign with
  | .exIsPhy => composeWord 0 0 0 0 phyAddr freqDiv regNum
  | .exIsReg => composeWord 0 0 0 0 regNum freqDiv phyAddr

/-- The command word `CommandIssued` composes from the latches (R97). -/
def latchedCmd (s : State) : Word :=
  readCmd s.params (s.fdiv.setWidth 32) (s.paddr.setWidth 32) (s.rnum.setWidth 32)

/-- The MDIO read cycle a read-class word starts: "of register `phy_inaddr`/`phy_exaddr` (by `ADDR_ASSIGN`) of the
addressed PHY at divider `frq_dv`" (R70). -/
def cycleOf (p : Params) (w : Word) : Cycle :=
  let f := wordFields w
  match p.addrAssign with
  | .exIsPhy => ⟨f.phyExaddr, f.phyInaddr, f.frqDv⟩
  | .exIsReg => ⟨f.phyInaddr, f.phyExaddr, f.frqDv⟩

/-- `phy_id = (zext_32(id1) << 16) | zext_32(id2)` (R76). -/
def phyIdOf (id1 id2 : BitVec 16) : Word := (id1.setWidth 32 <<< 16) ||| id2.setWidth 32

/-! ## Generations (R80, R104) -/

/-- The closed enumeration of generations (R80). -/
inductive Generation where
  | A | B | C | D | E | F | G | H
  | other
deriving DecidableEq, Repr

/-- Every value above 7 is `OTHER` (R80). -/
def generationOf (gen : Word) : Generation :=
  match gen.toNat with
  | 0 => .A
  | 1 => .B
  | 2 => .C
  | 3 => .D
  | 4 => .E
  | 5 => .F
  | 6 => .G
  | 7 => .H
  | _ => .other

/-- `GEN_TABLE` for this hardware (R104). -/
def hardwareRecord (p : Params) : Generation → GenRecord
  | .A => ⟨some 0x10090000, none⟩
  | .B => ⟨some 0x10090000, none⟩
  | .C => ⟨some 0x10050000, none⟩
  | .D => ⟨some 0x10010000, none⟩
  | .E => ⟨some 0x10040000, none⟩
  | .F => ⟨none, some ⟨0x20030002, 1, p.strapLsbF, .T1⟩⟩
  | .G => ⟨none, some ⟨0x200300EC, 3, p.strapLsbG, .T3⟩⟩
  | .H => ⟨none, some ⟨0x120100EC, 3, p.strapLsbH, .T3⟩⟩
  | .other => ⟨none, none⟩

/-- `GEN_TABLE[g(gen)]`: the hardware's record for A to H; for any other code the further record the parameter
holds, if any (R104, D24), else `(none, none)`. Log 20. -/
def genRecord (p : Params) (gen : Word) : GenRecord :=
  match generationOf gen with
  | .other => (p.extraRecords.lookup gen).getD (hardwareRecord p .other)
  | g => hardwareRecord p g

/-! ## Strap codes (R77, R106) -/

/-- `code = (v >> lsb) & (2^width - 1)` (R77). -/
def strapCode (m : StrapMap) (v : Word) : Word := (v >>> m.lsb) &&& BitVec.ofNat 32 (2 ^ m.width - 1)

/-- The tables `T1` and `T3`; an unmapped code is `UNKNOWN` (R106). -/
def codeMode (t : CodeTable) (code : Word) : Mode :=
  match t, code.toNat with
  | .T1, 0 => .mii
  | .T1, 1 => .rmii
  | .T3, 0 => .gmiiMii
  | .T3, 1 => .rgmii
  | .T3, 4 => .rmii
  | _, _ => .unknown

/-- `DECODE_STRAP`'s value: the mode of a raw code for a generation (R107). -/
def strapMode (p : Params) (gen code : Word) : Mode :=
  match (genRecord p gen).strap with
  | none => .unknown
  | some m => codeMode m.table code

end Sys2Proof.Machine
end

