-- ==== Sys2Proof/Machine/Reference.lean ====
section
/-! DEFINITION. The reference device of 60_exceptions.md R132 to R134: one deterministic controller, "for test
vectors and smoke runs only; no rule of the block depends on it, and a claim proved only under it says nothing of
the hardware". -/

namespace Sys2Proof.Machine

/-- The initial state of the device (R132): `fin`, `fdv` and `data` by `FIN0`, `FDV0` and `DATA0`, the rest 0. -/
def RefParams.initial (p : RefParams) : RefDevice :=
  { p with fin := p.fin0, fdv := p.fdv0, n := 0, cnt := some 0, cmd := 0, data := p.data0 }

/-- `LAT(n)`; `none` is `INF` (R132). -/
def RefDevice.latency (d : RefDevice) (n : Nat) : Option Nat := (d.lat.lookup n).getD d.latDefault

/-- `PHYREG(p, r)` (R132). -/
def RefDevice.phyRegister (d : RefDevice) (phy reg : BitVec 5) : BitVec 16 :=
  (d.phyReg.lookup (phy, reg)).getD d.phyDefault

/-- The reaction to a command word `w` (R133, `on MemWrite(b + 0x1100, w)`). -/
def RefDevice.takeCommand (d : RefDevice) (w : Word) : RefDevice :=
  let d1 := { d with fdv := (wordFields w).frqDv }
  if (wordFields w).rw = 0 then
    { d1 with n := d.n + 1, fin := 0, cnt := d.latency (d.n + 1), cmd := w }
  else d1

/-- One device step before a read of `MDIO_RWCTRL` is answered (R133). -/
def RefDevice.cycleStep (d : RefDevice) (p : Params) : RefDevice :=
  if d.fin = 0 ∧ 1 ≤ d.n then
    match d.cnt with
    | none => d
    | some 0 =>
      let c := cycleOf p d.cmd
      { d with fin := 1, data := d.phyRegister c.phy c.reg }
    | some (k + 1) => { d with cnt := some k }
  else d

/-- The word a read of `MDIO_RWCTRL` answers (R133). -/
def RefDevice.statusWord (d : RefDevice) : Word :=
  (d.fin.setWidth 32 <<< 15) ||| (d.fdv.setWidth 32 <<< 5)

/-- The answer of a failed access and of every address the device does not define (R133, R134). -/
def failAnswer : Answer := ⟨0, false, false⟩

/-- The answer of a successful read. -/
def readAnswer (v : Word) : Answer := ⟨v, true, true⟩

/-- The device's answer to bus event number `ev` and what it leaves of the device (R133, R134). DESIGN CHOICE (log 16): a
write at an address R133 or R134 defines for reads only is taken as R134's "any other address", so it answers
`ok = false` and changes nothing. -/
def RefDevice.react (d : RefDevice) (p : Params) (ev : Nat) (acc : Access) : Answer × RefDevice :=
  if ev ∈ d.fails then (failAnswer, d)
  else match acc with
    | .wr addr w =>
      if addr = regAddr d.base offRwctrl then (readAnswer 0, d.takeCommand w) else (failAnswer, d)
    | .rd addr =>
      if addr = regAddr d.base offRwctrl then (readAnswer (d.cycleStep p).statusWord, d.cycleStep p)
      else if addr = regAddr d.base offRoData then (readAnswer (d.data.setWidth 32), d)
      else if addr = regAddr d.base offUPhyaddr then (readAnswer d.uVal, d)
      else if addr = regAddr d.base offDPhyaddr then (readAnswer d.dVal, d)
      else if d.strapAddr = some addr then (readAnswer d.strapWord, d)
      else (failAnswer, d)

end Sys2Proof.Machine
end

