-- ==== Sys2Proof/Machine/Ops.lean ====
section
/-! DEFINITION. The named operations: bus accesses (R12, R51), the diagnostic stream (R13), the end of an
operation and the failure ending (R13, R119), the illegal descriptor (R123), the host's reads (R47, R136), and
fetching what is presented next (R79, R103). -/

namespace Sys2Proof.Machine

/-! ## The bus -/

/-- The primitive's answer to the access that is bus event number `ev`, and the primitive afterwards. Any answer
may come (R52): a scripted one, a free draw, or the reference device's. -/
def Bus.answer (b : Bus) (p : Params) (ev : Nat) (acc : Access) : Answer × Bus :=
  match b with
  | .oracle (a :: script) n => (a, .oracle script (n + 1))
  | .oracle [] n => (Config.freeAnswer n acc, .oracle [] (n + 1))
  | .reference d => ((d.react p ev acc).1, .reference (d.react p ev acc).2)

/-- The event appended to `TRACE` for an access and its answer (R31, R51). -/
def eventOf (acc : Access) (a : Answer) : BusEvent :=
  match acc with
  | .rd addr => .rd addr a.word a.ok
  | .wr addr w => .wr addr w a.ok

/-- The primitive's answer to `acc` in this state. -/
def busAnswer (acc : Access) (s : State) : Answer := (s.bus.answer s.params (s.trace.length + 1) acc).1

/-- The state after the access `acc`: one event more in `TRACE`, the primitive moved on (R51). -/
def afterAccess (acc : Access) (s : State) : State :=
  { s with
    bus := (s.bus.answer s.params (s.trace.length + 1) acc).2
    trace := s.trace ++ [eventOf acc (busAnswer acc s)] }

/-- `MemRead(addr, 4)`: the answer (R12). -/
def readAns (addr : Word) (s : State) : Answer := busAnswer (.rd addr) s

/-- `MemRead(addr, 4)`: the state after it. -/
def afterRead (addr : Word) (s : State) : State := afterAccess (.rd addr) s

/-- The controller starts an MDIO read cycle (R37, R70); two command words start two (R58). DESIGN CHOICE (log 8): a
command that reaches a busy controller is recorded all the same, though its effect is not in the source (R145, N10,
U11); no rule reads the record, and the later answers stay draws. -/
def startCycle (w : Word) (s : State) : State := { s with cycles := s.cycles ++ [cycleOf s.params w] }

/-- `MemWrite(addr, 4, w)`: the success flag (R12). -/
def writeOk (addr w : Word) (s : State) : Bool := (busAnswer (.wr addr w) s).ok

/-- Whether the written word reached the device: always when the write answered `ok = true` (R64), else as the
answer says (R150, U16). -/
def writeReached (addr w : Word) (s : State) : Bool :=
  (busAnswer (.wr addr w) s).ok || (busAnswer (.wr addr w) s).reached

/-- `MemWrite(addr, 4, w)` of a command word: the state after it; a word that reached the controller has started
its cycle (R37, R58). DESIGN CHOICE (log 8): also where no poll observed ready before it, as `START_READ` alone allows;
what a busy controller does with it is not in the source (R93, R145, N10, U11). DESIGN CHOICE (log 8): and at any base;
what stands at `base + 0x1100` for a base outside R60's table is left to the platform (R61, R50). -/
def afterCommandWrite (addr w : Word) (s : State) : State :=
  if writeReached addr w s then startCycle w (afterAccess (.wr addr w) s) else afterAccess (.wr addr w) s

/-- A command word arriving at the controller's command path from outside the engine (R37). The reference device
reacts by R133; the unconstrained controller keeps its freedom of answer. -/
def Bus.takeCommand (b : Bus) (w : Word) : Bus :=
  match b with
  | .oracle script n => .oracle script n
  | .reference d => .reference (d.takeCommand w)

/-! ## Ending an operation -/

/-- `Diag(tag)` (R13, R30). -/
def emitDiag (d : Diag) (s : State) : State := { s with diag := s.diag ++ [d] }

/-- `STATUS <- st; return (v, st)` (R13, R29). -/
def finishOp (v : Value) (st : Status) (s : State) : State := { s with status := st, returned := some ⟨v, st⟩ }

/-- `RESULT <- v`. -/
def setResult (v : BitVec 16) (s : State) : State := { s with result := v, resultValued := true }

/-- `fail(S, info)` of R95, the failure entry of a transaction: `RESULT <- 0`, `STATUS <- S`, `phase <- Failed`
(R119). The `Failed` step of R100 ends the operation. -/
def failTransaction (st : Status) (s : State) : State :=
  { setResult 0 s with status := st, phase := .failed }

/-- The return from the failure: the `Failed` step, `phase <- Idle; return (0, STATUS)` (R100, R128). -/
def leaveFailed (s : State) : State :=
  { s with phase := .idle, returned := some ⟨.value 0, s.status⟩ }

/-- An illegal descriptor: only `STATUS <- ILLEGAL` (R81, R123). -/
def illegalDescriptor (s : State) : State := finishOp .none .illegal s

/-- The host presents an operation only when `PHASE = Idle`; at any other time there is no step (R103, U26). -/
def whenIdle (s : State) (t : State) : Host.Outcome State Fault Refusal :=
  if s.phase = .idle then .next t else .refused .operationWhileBusy

/-! ## The registers without a value at reset (R47) -/

/-- Whether the register has a value. -/
def hasValue (s : State) : EngineReg → Bool
  | .cnt => s.cntValued
  | .base | .fdiv | .paddr | .rnum => s.latchesValued
  | .result => s.resultValued

/-- The register's contents as a number. -/
def regContents (s : State) : EngineReg → Nat
  | .cnt => s.cnt
  | .base => s.base.toNat
  | .fdiv => s.fdiv.toNat
  | .paddr => s.paddr.toNat
  | .rnum => s.rnum.toNat
  | .result => s.result.toNat

/-- The host's read of an engine register (R136). The stop is the spec's: "a model must fault on a read of it before the
first `MDIO_READ` or `READ_RESULT`" (R47, 10_state.md), and "`fault`" for `RESULT` (U21) and for the other five (U22,
93_implementation_defined.md). -/
def hostRead (r : EngineReg) (s : State) : Except Fault Nat :=
  if hasValue s r then .ok (regContents s r) else .error (.valuelessRegister r)

/-! ## What is presented next -/

/-- What the machine takes up next when `PHASE` is `Idle`. -/
inductive Fetched where
  /-- Nothing is presented (R139). -/
  | nothing
  /-- Something is presented, decoded; `rest` stays presented. -/
  | taken (d : Decoded) (rest : List Presented)
deriving DecidableEq, Repr

/-- The oldest presented term, decoded. -/
def fetch (s : State) : Fetched :=
  match s.inbox with
  | [] => .nothing
  | p :: rest => .taken (decode p) rest

/-- `s` with the table's instruction presented first and the engine able to accept it. -/
def presentFirst (s : State) (p : Presented) : State := { s with phase := .idle, inbox := p :: s.inbox }

end Sys2Proof.Machine
end

