-- ==== Sys2Proof/Machine/Codec.lean ====
section
/-! DEFINITION. The control-word codec family (40_field_codec.md): `COMPOSE_CTRL` and `DECODE_CTRL`. -/

namespace Sys2Proof.Machine

/-- `COMPOSE_CTRL` (R87). -/
def execComposeCtrl (cpuDataIn finish reserved rw phyExaddr frqDv phyInaddr : Word) (s : State) :
    Host.Outcome State Fault Refusal :=
  whenIdle s (finishOp (.word (composeWord cpuDataIn finish reserved rw phyExaddr frqDv phyInaddr)) .ok s)

/-- `DECODE_CTRL` (R88). -/
def execDecodeCtrl (word : Word) (s : State) : Host.Outcome State Fault Refusal :=
  whenIdle s (finishOp (.fields (wordFields word)) .ok s)

end Sys2Proof.Machine
end

