-- ==== Sys2Proof/Machine/Controller.lean ====
section
/-! DEFINITION. Command words at the controller's command path: the two `CTRL` rows (R70) and the read-class words of no
row (R84), what the controller does when such a word is presented to it (R37). The engine's own command write,
`afterCommandWrite`, starts its cycle by the same `startCycle`. Log 6. -/

namespace Sys2Proof.Machine

/-- A read command presented to the controller: it "triggers the hardware read cycle" (R37), and the reference device
reacts by R133. -/
def takeReadCommand (w : Word) (s : State) : State := { startCycle w s with bus := s.bus.takeCommand w }

/-- `MDIO_CMD_READ`: "starts an MDIO read cycle" (R70). Its end and its result are the controller's own, seen only
through later reads, which are draws (R46, R52). -/
def execMdioCmdRead (phyExaddr : BitVec 5) (frqDv : BitVec 3) (phyInaddr : BitVec 5) (s : State) :
    Host.Outcome State Fault Refusal :=
  .next (takeReadCommand (fieldsWord ⟨0, 0, 0, 0, phyExaddr, frqDv, phyInaddr⟩) s)

/-- `MDIO_CMD_WRITE`: "the device behaviour is not in the source" (R70, N9, U12), so the unconstrained controller's
response is refused by name; the reference device's is R133's. Log 7. -/
def execMdioCmdWrite (cpuDataIn : BitVec 16) (finish reserved : BitVec 1) (phyExaddr : BitVec 5) (frqDv : BitVec 3)
    (phyInaddr : BitVec 5) (s : State) : Host.Outcome State Fault Refusal :=
  match s.bus with
  | .oracle _ _ => .refused .mdioWriteUndescribed
  | .reference d =>
    .next { s with bus := .reference (d.takeCommand (fieldsWord ⟨cpuDataIn, finish, reserved, 1, phyExaddr, frqDv, phyInaddr⟩)) }

/-- A command word with `rw = 0` outside the form of `MDIO_CMD_READ` (R70, R84). DESIGN CHOICE (log 14): with `finish`
and `reserved` 0 it is a read command, "(`rw = 0`)", and triggers the read cycle whatever its `cpu_data_in` (R37). With
`finish` or `reserved` 1 what the controller does is not in the source (R71, R72), and the word is refused (U13), but
the reference device reacts to every word with `w[13] = 0` (R133). -/
def takeReadClass (w : Word) (s : State) : Host.Outcome State Fault Refusal :=
  let f := wordFields w
  if f.finish = 0 ∧ f.reserved = 0 then .next (takeReadCommand w s)
  else match s.bus with
    | .oracle _ _ => .refused .finishOrReservedWritten
    | .reference _ => .next (takeReadCommand w s)

end Sys2Proof.Machine
end

