-- ==== Sys2Proof/Machine/RegMap.lean ====
section
/-! DEFINITION. The register-map selector and strap decoder family (42_regmap.md): `SELECT_MAP`, `DECODE_STRAP`,
`READ_STRAP`. -/

namespace Sys2Proof.Machine

/-- `SELECT_MAP` (R105). -/
def execSelectMap (gen : Word) (s : State) : Host.Outcome State Fault Refusal :=
  let r := genRecord s.params gen
  whenIdle s (finishOp (.map r.mdioBase r.strap) .ok s)

/-- `DECODE_STRAP` (R107). -/
def execDecodeStrap (gen code : Word) (s : State) : Host.Outcome State Fault Refusal :=
  whenIdle s (finishOp (.mode (strapMode s.params gen code)) .ok s)

/-- The mode and the status of the strap query in this state (R108). -/
def strapQuery (gen : Word) (s : State) : Mode × Status :=
  match (genRecord s.params gen).strap with
  | none => (.unknown, .ok)
  | some m =>
    let a := readAns m.addr s
    if a.ok then (strapMode s.params gen (strapCode m a.word), .ok) else (.unknown, .busError)

/-- The strap query's bus access: one read of the strap address, or none (R108). -/
def afterStrapRead (gen : Word) (s : State) : State :=
  match (genRecord s.params gen).strap with
  | none => s
  | some m => afterRead m.addr s

/-- `READ_STRAP` as an operation run from `Idle` or inside `DETECT` (R108). -/
def strapOp (gen : Word) (s : State) : State :=
  finishOp (.mode (strapQuery gen s).1) (strapQuery gen s).2 (afterStrapRead gen s)

/-- `READ_STRAP` (R108). -/
def execReadStrap (gen : Word) (s : State) : Host.Outcome State Fault Refusal :=
  whenIdle s (strapOp gen s)

end Sys2Proof.Machine
end

