-- ==== Sys2Proof/Machine/Transaction.lean ====
section
/-! DEFINITION. The transaction family (41_transaction.md): `WAIT_READY`, `START_READ`, `READ_RESULT`, and
`MDIO_READ` through the phases of R96 to R101. -/

namespace Sys2Proof.Machine

/-! ## One poll, shared by `WAIT_READY` and the two poll phases -/

/-- What one poll came to (R91). -/
inductive PollResult where
  /-- The read succeeded and bit 15 is set. -/
  | ready
  /-- The read failed under `POLL_BUSERR = ABORT`. -/
  | abort
  /-- A failed poll. -/
  | again
deriving DecidableEq, Repr

/-- The verdict on a poll's answer (R91, D7). -/
def pollVerdict (p : Params) (a : Answer) : PollResult :=
  if Answer.ready a then .ready
  else if a.ok = false ∧ p.pollBusErr = .abort then .abort
  else .again

/-- `CNT <- N_POLL`. -/
def loadCount (s : State) : State := { s with cnt := s.params.nPoll, cntValued := true }

/-- After a failed poll: `CNT <- CNT - 1`, and a sleep only between two polls (R91, D9). -/
def failedPoll (s : State) : State :=
  { s with cnt := s.cnt - 1, sleeps := if s.cnt - 1 = 0 then s.sleeps else s.sleeps + 1 }

/-! ## `WAIT_READY` -/

/-- The loop of R91. The recursion argument is the value of `CNT` at the loop's head. -/
def waitLoop (base : Word) : Nat → State → State
  | 0, s => finishOp (.count 0) .timeout s
  | k + 1, s =>
    let addr := regAddr base offRwctrl
    let s1 := afterRead addr s
    match pollVerdict s.params (readAns addr s) with
    | .ready => finishOp (.count s1.cnt) .ok s1
    | .abort => finishOp (.count 0) .busError s1
    | .again => waitLoop base k (failedPoll s1)

/-- `WAIT_READY` (R91). -/
def execWaitReady (base : Word) (s : State) : Host.Outcome State Fault Refusal :=
  whenIdle s (waitLoop base s.params.nPoll (loadCount s))

/-! ## `START_READ` and `READ_RESULT` -/

/-- `START_READ` (R93). A success hands back its status only (R78); a failed write the value 0 with `BUS_ERROR` (R118,
R119; "on failure the value is 0", C7). That this 0 is 16 bits wide is the model's choice (log 12). -/
def execStartRead (base freqDiv phyAddr regNum : Word) (s : State) : Host.Outcome State Fault Refusal :=
  let addr := regAddr base offRwctrl
  let w := readCmd s.params freqDiv phyAddr regNum
  let ok := writeOk addr w s
  whenIdle s
    (finishOp (if ok then .none else .value 0) (if ok then .ok else .busError) (afterCommandWrite addr w s))

/-- `READ_RESULT` (R94). -/
def execReadResult (base : Word) (s : State) : Host.Outcome State Fault Refusal :=
  let addr := regAddr base offRoData
  let a := readAns addr s
  let s1 := afterRead addr s
  whenIdle s
    (if a.ok then finishOp (.value (narrowResult a.word)) .ok (setResult (narrowResult a.word) s1)
     else finishOp (.value 0) .busError (setResult 0 s1))

/-! ## `MDIO_READ`: the phases -/

/-- One step of a poll phase (R96, R98): time-out when `CNT = 0`, else one poll. -/
def pollPhase (onReady : Phase) (tag : Diag) (st : Status) (s : State) : State :=
  if s.cnt = 0 then failTransaction st (emitDiag tag s)
  else
    let addr := regAddr s.base offRwctrl
    let s1 := afterRead addr s
    match pollVerdict s.params (readAns addr s) with
    | .ready => { s1 with phase := onReady }
    | .abort => failTransaction .busError s1
    | .again => failedPoll s1

/-- `CommandIssued` (R97). -/
def commandPhase (s : State) : State :=
  let addr := regAddr s.base offRwctrl
  let w := latchedCmd s
  let s1 := afterCommandWrite addr w s
  if writeOk addr w s then { loadCount s1 with phase := .waitReadyPost } else failTransaction .busError s1

/-- `ResultRead` (R99). -/
def resultPhase (s : State) : State :=
  let addr := regAddr s.base offRoData
  let a := readAns addr s
  let s1 := afterRead addr s
  if a.ok then
    { finishOp (.value (narrowResult a.word)) .ok (setResult (narrowResult a.word) s1) with phase := .idle }
  else failTransaction .busError s1

/-- One transition of `PHASE` (R101). In `Idle` there is none. -/
def phaseNext (s : State) : State :=
  match s.phase with
  | .idle => s
  | .waitReadyPre => pollPhase .commandIssued .busy .busy s
  | .commandIssued => commandPhase s
  | .waitReadyPost => pollPhase .resultRead .readTimeout .readTimeout s
  | .resultRead => resultPhase s
  | .failed => leaveFailed s

/-- A register without a value that this phase's step would read: "`fault` (no rule reads them then)" (U22, R47). A poll
phase's step reads `CNT`, and a latch only when `CNT` is not 0: "a time-out step makes no read" (R126). No run from
`Idle` comes here, since acceptance writes all of them (R95). -/
def valuelessRead (s : State) : Option EngineReg :=
  match s.phase with
  | .idle | .failed => none
  | .waitReadyPre | .waitReadyPost =>
    if s.cntValued = false then some .cnt
    else if s.cnt ≠ 0 ∧ s.latchesValued = false then some .base else none
  | .commandIssued | .resultRead => if s.latchesValued = false then some .base else none

/-- The engine's next step while a transaction is in progress (R21, R101). -/
def phaseStep (s : State) : Host.Outcome State Fault Refusal :=
  match valuelessRead s with
  | some r => .fault (.valuelessRegister r)
  | none => .next (phaseNext s)

/-- Up to `k` transitions, ending early at `Idle`. -/
def runPhases : Nat → State → State
  | 0, s => s
  | k + 1, s => if s.phase = .idle then s else runPhases k (phaseNext s)

/-- `MDIO_READ` accepted: the latches, `CNT <- N_POLL`, `phase <- WaitReadyPre` (R95, R24 to R27). -/
def acceptRead (freqDiv phyAddr base regNum : Word) (s : State) : State :=
  { loadCount s with
    base := base
    fdiv := narrowDiv freqDiv
    paddr := narrowAddr phyAddr
    rnum := narrowAddr regNum
    latchesValued := true
    phase := .waitReadyPre }

/-- The whole transaction: from acceptance back to `Idle`, "within at most `2 * N_POLL + 4` steps" (R101), the
acceptance being one of them. -/
def transaction (freqDiv phyAddr base regNum : Word) (s : State) : State :=
  runPhases (2 * s.params.nPoll + 3) (acceptRead freqDiv phyAddr base regNum s)

/-- `MDIO_READ` (R95). -/
def execMdioRead (freqDiv phyAddr base regNum : Word) (s : State) : Host.Outcome State Fault Refusal :=
  whenIdle s (transaction freqDiv phyAddr base regNum s)

end Sys2Proof.Machine
end

