-- ==== Sys2Proof/Machine/Detect.lean ====
section
/-! DEFINITION. The detection sequence family (43_detect.md): `DETECT`, steps 1 to 6 of R110. The local variables of
the pseudocode (`good`, `fdiv`, `u`, `base`) are arguments. -/

namespace Sys2Proof.Machine

/-- `STAGE.append`. -/
def stageEntry (e : OutEntry) (s : State) : State := { s with stage := s.stage ++ [e] }

/-- `proceed`: `good or ON_MDIO_FAIL = CONTINUE` (R110). -/
def proceed (p : Params) (good : Bool) : Bool := good || p.onMdioFail == .continueSteps

/-- Step 4 (R113), entered with `good` true: the two transactions and the staged identifier. Answers `good`. -/
def detectIds (fdiv : BitVec 3) (u base : Word) (s : State) : Bool × State :=
  let t1 := transaction (fdiv.setWidth 32) u base 0x02 s
  let good1 := t1.status == .ok
  if proceed t1.params good1 then
    let t2 := transaction (fdiv.setWidth 32) u base 0x03 t1
    let good2 := good1 && t2.status == .ok
    (good2, if good2 then stageEntry (.phyId (phyIdOf t1.result t2.result)) t2 else t2)
  else (good1, t1)

/-- Step 5 (R114): the target PHY address register, when `proceed` holds. Answers `good`. -/
def detectTarget (base : Word) (good : Bool) (s : State) : Bool × State :=
  if proceed s.params good then
    let addr := regAddr base offDPhyaddr
    let a := readAns addr s
    let s1 := afterRead addr s
    if a.ok then (good, stageEntry (.dMdioPhyaddr a.word) s1) else (false, s1)
  else (good, s)

/-- The commit (R114): the staged keys reach `OUT` together, or none does. -/
def commitStage (good : Bool) (s : State) : State :=
  if good then { s with out := s.out ++ s.stage } else s

/-- Steps 3 to 5 and the commit (R112 to R114), with the divider of step 2. -/
def detectPhy (base : Word) (fdiv : BitVec 3) (s : State) : State :=
  let addr := regAddr base offUPhyaddr
  let a := readAns addr s
  let s1 := afterRead addr s
  let r4 := if a.ok then detectIds fdiv a.word base (stageEntry (.uMdioPhyaddr a.word) s1) else (false, s1)
  let r5 := detectTarget base r4.1 r4.2
  commitStage r5.1 r5.2

/-- Steps 2 to 5 for a generation with a base (R111): a failed step-2 read skips them all. -/
def detectMdio (base : Word) (s : State) : State :=
  let addr := regAddr base offRwctrl
  let a := readAns addr s
  let s1 := afterRead addr s
  if a.ok then detectPhy base (readDivider a.word) s1 else s1

/-- Steps 1 to 5: a generation without a base makes no MDIO access (R111). -/
def detectController (gen : Word) (s : State) : State :=
  match (genRecord s.params gen).mdioBase with
  | none => s
  | some base => detectMdio base s

/-- Step 6 (R115): `phy-mode` is appended when the mode is not `UNKNOWN`. -/
def detectStrap (gen : Word) (s : State) : State :=
  let m := (strapQuery gen s).1
  let s1 := strapOp gen s
  if m = .unknown then s1 else { s1 with out := s1.out ++ [.phyMode m] }

/-- `OUT <- []; STAGE <- []` (R110, R116). -/
def freshRecord (s : State) : State := { s with out := [], stage := [] }

/-- `DETECT` as an operation run from `Idle` (R110). -/
def detectOp (gen : Word) (s : State) : State :=
  let t := detectStrap gen (detectController gen (freshRecord s))
  finishOp (.record t.out) .ok t

/-- `DETECT` (R110). -/
def execDetect (gen : Word) (s : State) : Host.Outcome State Fault Refusal :=
  whenIdle s (detectOp gen s)

end Sys2Proof.Machine
end

