-- ==== Sys2Proof/Machine/Dispatch.lean ====
section
/-! DEFINITION. One arm per instruction. -/

namespace Sys2Proof.Machine

def exec (i : Instr) (s : State) : Host.Outcome State Fault Refusal :=
  match i with
  | .composeCtrl d f r rw ex fd inn => Sys2Proof.Machine.execComposeCtrl d f r rw ex fd inn s
  | .decodeCtrl w => Sys2Proof.Machine.execDecodeCtrl w s
  | .waitReady base => Sys2Proof.Machine.execWaitReady base s
  | .startRead base fd phy reg => Sys2Proof.Machine.execStartRead base fd phy reg s
  | .readResult base => Sys2Proof.Machine.execReadResult base s
  | .mdioRead fd phy base reg => Sys2Proof.Machine.execMdioRead fd phy base reg s
  | .selectMap gen => Sys2Proof.Machine.execSelectMap gen s
  | .decodeStrap gen code => Sys2Proof.Machine.execDecodeStrap gen code s
  | .readStrap gen => Sys2Proof.Machine.execReadStrap gen s
  | .detect gen => Sys2Proof.Machine.execDetect gen s
  | .mdioCmdRead ex fd inn => Sys2Proof.Machine.execMdioCmdRead ex fd inn s
  | .mdioCmdWrite d f r ex fd inn => Sys2Proof.Machine.execMdioCmdWrite d f r ex fd inn s

end Sys2Proof.Machine
end

