-- ==== Sys2Proof/Machine/Step.lean ====
section
/-! DEFINITION. One step of the machine. -/

namespace Sys2Proof.Machine

/-- One step. While a transaction is in progress, the next transition of `PHASE` (R101). In `Idle`: the oldest
presented term is taken up and run to its end (R103); with nothing presented the engine does nothing (R139). -/
def step (s : State) : Host.Outcome State Fault Refusal :=
  if s.phase = .idle then
    match fetch s with
    | .nothing => .next s
    | .taken (.instr i) rest => exec i { s with inbox := rest }
    | .taken .illegal rest => .next (illegalDescriptor { s with inbox := rest })
    | .taken .short _ => .refused .shortDescriptor
    | .taken .overlong _ => .refused .overlongDescriptor
    | .taken (.readClass w) rest => takeReadClass w { s with inbox := rest }
  else phaseStep s

/-- `s` with the table's instruction presented first, so that the next step runs it (logs 5 and 6). -/
def State.withFetchWord (s : State) (nbits w : Nat) : State := presentFirst s (tablePresented nbits w)

end Sys2Proof.Machine
end

