-- ==== Sys2Proof/Safety.lean ====
section
/-! DEFINITION. What counts as a sound state and a safe run, and the words claims use: the invariant, the record's
order (R32), the verdicts on a poll (R91), the hazard rules on a trace (R145, R146), the addresses (R49, R60). -/

namespace Sys2Proof.Machine

/-! ## The detection record -/

/-- The place of a key in the record's order (R32). -/
def OutEntry.rank : OutEntry → Nat
  | .uMdioPhyaddr _ => 0
  | .phyId _ => 1
  | .dMdioPhyaddr _ => 2
  | .phyMode _ => 3

/-- The keys stand in R32's order, each at most once. -/
abbrev recordOrdered (l : List OutEntry) : Prop := (l.map OutEntry.rank).Pairwise (· < ·)

/-- An MDIO key: any but `phy-mode`. -/
def OutEntry.isMdio (e : OutEntry) : Bool := e.rank < 3

/-! ## The invariant -/

/-- A failure status of a transaction (R100). -/
abbrev transactionFailure (st : Status) : Prop := st = .busy ∨ st = .readTimeout ∨ st = .busError

/-- The state invariant: what R22 to R32 and R100 say of the registers at every moment. -/
structure StateInv (s : State) : Prop where
  /-- `CNT` is at most `N_POLL` (R23). -/
  cntBound     : s.cnt ≤ s.params.nPoll
  /-- A transaction in progress has latched its operands (R24 to R27, U22). -/
  latched      : s.phase ≠ .idle → s.cntValued = true ∧ s.latchesValued = true
  /-- `Failed` holds the zero result and a failure (R100). -/
  failedShape  : s.phase = .failed → s.result = 0 ∧ s.resultValued = true ∧ transactionFailure s.status
  /-- The record is in order, each key at most once (R32, R116). -/
  outOrdered   : recordOrdered s.out
  /-- `phy-mode` is omitted when it is `UNKNOWN` (R83, R115). -/
  outKnown     : OutEntry.phyMode .unknown ∉ s.out
  /-- `STAGE` holds MDIO keys only, in order (R32). -/
  stageOrdered : recordOrdered s.stage ∧ ∀ e ∈ s.stage, e.isMdio = true
  /-- `NONE` only before the first operation has ended (R29). -/
  ended        : s.returned ≠ none → s.status ≠ .none

/-! ## Polls -/

/-- A poll that observes ready: the read succeeded and bit 15 is set (R91). -/
abbrev ReadyPoll (a : Answer) : Prop := a.ok = true ∧ a.word.getLsbD 15 = true

/-- A poll that ends the loop with `BUS_ERROR` (R91, D7). -/
abbrev AbortingPoll (p : Params) (a : Answer) : Prop := a.ok = false ∧ p.pollBusErr = .abort

/-- A failed poll: it decrements the counter (R91). -/
abbrev FailedPoll (p : Params) (a : Answer) : Prop := ¬ ReadyPoll a ∧ ¬ AbortingPoll p a

/-- The state after `k` reads of `addr`. -/
def afterReads (addr : Word) : Nat → State → State
  | 0, s => s
  | k + 1, s => afterRead addr (afterReads addr k s)

/-- The answer to read number `k` of `addr`, counted from 0. -/
def pollAns (addr : Word) (k : Nat) (s : State) : Answer := readAns addr (afterReads addr k s)

/-- The first `k` reads of `addr` are failed polls. -/
abbrev failedPolls (addr : Word) (k : Nat) (s : State) : Prop := ∀ j < k, FailedPoll s.params (pollAns addr j s)

/-! ## The end of a transaction -/

/-- The engine registers as a finished `MDIO_READ` of operands `f`, `p`, `b`, `r` leaves them (R95, R119), over the
state `s` its bus events left: the masked operands in the latches, `CNT`, the sleeps, the result and the status. -/
def readEnd (f p b r : Word) (cnt sleeps : Nat) (v : BitVec 16) (st : Status) (s : State) : State :=
  { s with
    phase := .idle
    base := b
    fdiv := f.setWidth 3
    paddr := p.setWidth 5
    rnum := r.setWidth 5
    latchesValued := true
    cnt := cnt
    cntValued := true
    sleeps := sleeps
    result := v
    resultValued := true
    status := st
    returned := some ⟨.value v, st⟩ }

/-- The record and the result `DETECT` ends with: the MDIO keys it committed, then `phy-mode` when the strap query left
the mode `m` in `u` (R115, R116). -/
def detectEnd (keys : List OutEntry) (m : Mode) (u : State) : State :=
  let rec' := keys ++ if m = .unknown then [] else [.phyMode m]
  { u with out := rec', status := .ok, returned := some ⟨.record rec', .ok⟩ }

/-! ## Hazards on a trace -/

/-- A read of `addr` that observed ready. -/
def isReadyRead (addr : Word) : Option BusEvent → Bool
  | some (.rd a v ok) => a == addr && ok && v.getLsbD 15
  | _ => false

/-- R145 and R146 for one event and the one before it, for the controller at `base`: a command is written only
right after a poll of `MDIO_RWCTRL` that observed ready, and so is `MDIO_RO_DATA` read. -/
def hazardFree (base : Word) (before : Option BusEvent) : BusEvent → Bool
  | .wr addr _ _ => addr == regAddr base offRwctrl && isReadyRead (regAddr base offRwctrl) before
  | .rd addr _ _ => addr != regAddr base offRoData || isReadyRead (regAddr base offRwctrl) before

/-- Every event of a run keeps R145 and R146. -/
def hazardFreeRun (base : Word) : Option BusEvent → List BusEvent → Bool
  | _, [] => true
  | before, e :: es => hazardFree base before e && hazardFreeRun base (some e) es

/-! ## Addresses and words on the bus -/

/-- The address of an event. -/
def BusEvent.addr : BusEvent → Word
  | .rd a _ _ => a
  | .wr a _ _ => a

/-- Whether the event is a write. -/
def BusEvent.isWrite : BusEvent → Bool
  | .rd _ _ _ => false
  | .wr _ _ _ => true

/-- The word of a write is a read command (R37, R70); a read needs nothing. -/
def BusEvent.commandWord : BusEvent → Bool
  | .rd _ _ _ => true
  | .wr _ w _ => isReadCommand w

/-- The ten operations of R78, told from the two command classes. -/
def isOperation : Instr → Bool
  | .mdioCmdRead _ _ _ => false
  | .mdioCmdWrite _ _ _ _ _ _ => false
  | _ => true

/-! ## Safe steps and runs -/

/-- A step that neither faults nor is refused. -/
def stepSafe (s : State) : Prop := ∃ t, step s = .next t

/-- The microseconds slept (R151). -/
def sleptMicroseconds (s : State) : Nat := s.sleeps * s.params.tPoll

end Sys2Proof.Machine
end

