-- ==== Sys2Proof/Certificates/Slice0/Obligations.lean ====
section
/-! DEFINITION. The statements for the provers. Each docstring names the rules of spec/ it formalises; where a clause
rests on a choice of the model, it names the log entry. -/

open Sys2Proof Sys2Proof.Machine

/-! ## Reset, the step, the invariant -/

/-- R138: reset puts every engine register and stream in the state of R47, the registers it names without a value (the
host's read of one faults), and each `DETECT` starts with `OUT` and `STAGE` empty: it runs from `freshRecord`,
whatever they held, and with no base and no strap map it ends with both empty. -/
def Obligations.ResetLeavesTheSpecsState : Prop :=
  State.reset.phase = .idle ∧ State.reset.status = .none ∧ State.reset.diag = [] ∧ State.reset.trace = [] ∧
  (∀ r, hostRead r State.reset = .error (.valuelessRegister r)) ∧
  (∀ gen s out stage, exec (.detect gen) { s with out := out, stage := stage } = exec (.detect gen) s) ∧
  (∀ gen s, s.phase = .idle → freshRecord s = { s with out := [], stage := [] } ∧
    exec (.detect gen) s =
      (let t := detectStrap gen (detectController gen (freshRecord s))
       .next { t with status := .ok, returned := some ⟨.record t.out, .ok⟩ }) ∧
    (genRecord s.params gen = ⟨none, none⟩ → exec (.detect gen) s =
      .next { s with out := [], stage := [], status := .ok, returned := some ⟨.record [], .ok⟩ }))

/-- Reset meets the invariant. The clause on `CNT` rests on the zero the model chose for a `CNT` without a value (log
3, DESIGN CHOICE), and the clauses on `OUT` and `STAGE` on their being empty at reset (log 9, DEDUCED: R47 says it
only of the start of a `DETECT`); these are the model's choice, not the spec's. -/
def Obligations.ResetMeetsTheInvariant : Prop := StateInv State.reset

/-- Every step keeps the invariant (R22 to R32, R100), from every state that has it. -/
def Obligations.StepKeepsTheInvariant : Prop :=
  ∀ s t, StateInv s → step s = .next t → StateInv t

/-- R117, R47: from a state of the invariant no step faults; a failure is a status, never a stop. -/
def Obligations.InvariantStatesNeverFault : Prop :=
  ∀ s r, StateInv s → step s ≠ .fault r

/-- A step in `Idle` runs the instruction the oldest presented term decodes to, with that term taken (R103, R79); in
any other phase the step is the transaction's next transition and nothing presented is taken up (R21). The model's
choices: that the step in `Idle` runs the whole operation, where R101 has a transition for each phase (log 4), the
list of presented terms (log 5), and a presented command word as an instruction (log 6). -/
def Obligations.StepRunsTheDecodedInstruction : Prop :=
  (∀ s p rest i, s.phase = .idle → s.inbox = p :: rest → decode p = .instr i →
    step s = exec i { s with inbox := rest }) ∧
  (∀ s, s.phase ≠ .idle → step s = phaseStep s ∧ ∀ t, step s = .next t → t.inbox = s.inbox)

/-- The model's idle step (log 13, DEDUCED): with nothing presented a step leaves the state as it is. R139 says only
that the engine does nothing until the host presents a descriptor, and the spec has no step there. -/
def Obligations.NothingPresentedNothingHappens : Prop :=
  ∀ s, s.phase = .idle → s.inbox = [] → step s = .next s

/-- R103: an operation runs to its end and leaves `PHASE = Idle`, in which the next is accepted; presented at any
other time it is given no step. -/
def Obligations.OperationsRunToCompletionFromIdle : Prop :=
  ∀ i s, isOperation i = true →
    (s.phase = .idle → ∃ t, exec i s = .next t ∧ t.phase = .idle) ∧
    (s.phase ≠ .idle → exec i s = .refused .operationWhileBusy)

/-! ## Encoding -/

/-- Words written out from the tables of 30_encoding.md (R78 to R80, R70) and the programs of 95_test_vectors.md
decode to the instructions they stand for. -/
def Obligations.SpecWordsDecode : Prop :=
  decode (.descriptor [0x1, 0x12345, 2, 3, 2, 0x25, 9, 0x3F]) = .instr (.composeCtrl 0x12345 2 3 2 0x25 9 0x3F) ∧
  decode (.descriptor [0x2, 0x2345453F]) = .instr (.decodeCtrl 0x2345453F) ∧
  decode (.descriptor [0x3, 0x10090000]) = .instr (.waitReady 0x10090000) ∧
  decode (.descriptor [0x4, 0x10090000, 3, 5, 2]) = .instr (.startRead 0x10090000 3 5 2) ∧
  decode (.descriptor [0x5, 0x10090000]) = .instr (.readResult 0x10090000) ∧
  decode (.descriptor [0x6, 3, 5, 0x10090000, 2]) = .instr (.mdioRead 3 5 0x10090000 2) ∧
  decode (.descriptor [0x8, 6, 1]) = .instr (.decodeStrap 6 1) ∧
  decode (.descriptor [0xA, 0]) = .instr (.detect 0) ∧
  decode (.command 0x00000562) = .instr (.mdioCmdRead 5 3 2) ∧
  decode (.command 0xDEADBEEF) = .instr (.mdioCmdWrite 0xDEAD 1 0 0x1E 7 0x0F)

/-- R79, R81, R70: the decoder accepts exactly the presented terms whose header, length or command class the tables
allow. -/
def Obligations.DecoderAcceptsExactlyTheWellFormed : Prop :=
  ∀ p : Presented, p.wf = true ↔ ∃ i, decode p = .instr i

/-- Decoding an encoded instruction gives it back, for every instruction with every operand (R78, R79, R68, R70). -/
def Obligations.DecodeOfEncodeIsTheInstruction : Prop :=
  ∀ i : Instr, decode (encode i) = .instr i

/-- No two presented terms decode to one instruction: encoding what was decoded gives the words back. -/
def Obligations.EncodeOfDecodeIsThePresentedTerm : Prop :=
  ∀ (p : Presented) (i : Instr), decode p = .instr i → encode i = p

/-- R81, R123: a header with op code 0x0 or 0xB to 0xF, or with bits 31:4 not all zero, ends with status `ILLEGAL` and
no other effect, whatever words follow; a descriptor of a legal header with too few argument words, and the empty
descriptor, is refused. (The model's choices: that the whole descriptor is taken from the list of presented terms, log
15, and that a descriptor with more argument words than R79 gives is refused, log 5.) -/
def Obligations.IllegalDescriptorsHaveNoOtherEffect : Prop :=
  (∀ (s : State) (header : Word) args rest, s.phase = .idle → s.inbox = .descriptor (header :: args) :: rest →
    ((header &&& 0xF#32).toNat = 0 ∨ 0xB ≤ (header &&& 0xF#32).toNat ∨ header >>> 4 ≠ 0#32) →
    step s = .next { s with inbox := rest, status := .illegal, returned := some ⟨.none, .illegal⟩ }) ∧
  (∀ (s : State) (header : Word) args rest k, s.phase = .idle → s.inbox = .descriptor (header :: args) :: rest →
    argCount header = some k → args.length < k → step s = .refused .shortDescriptor) ∧
  (∀ (s : State) rest, s.phase = .idle → s.inbox = .descriptor [] :: rest → step s = .refused .shortDescriptor) ∧
  (∀ (s : State) (header : Word) args rest k, s.phase = .idle → s.inbox = .descriptor (header :: args) :: rest →
    argCount header = some k → k < args.length → step s = .refused .overlongDescriptor)

/-! ## The control-word codec -/

/-- R87: `COMPOSE_CTRL`, op 0x1 with seven argument words, answers the word whose fields are the operands masked to
their widths, never errors, and writes `STATUS` only. -/
def Obligations.ComposeCtrlMasksEachField : Prop :=
  ∀ s d f r rw ex fd inn, s.phase = .idle →
    decode (.descriptor [0x1, d, f, r, rw, ex, fd, inn]) = .instr (.composeCtrl d f r rw ex fd inn) ∧
    ∃ w : Word,
      exec (.composeCtrl d f r rw ex fd inn) s =
        .next { s with status := .ok, returned := some ⟨.word w, .ok⟩ } ∧
      w.toNat = d.toNat % 2 ^ 16 * 2 ^ 16 + f.toNat % 2 * 2 ^ 15 + r.toNat % 2 * 2 ^ 14 + rw.toNat % 2 * 2 ^ 13
        + ex.toNat % 2 ^ 5 * 2 ^ 8 + fd.toNat % 2 ^ 3 * 2 ^ 5 + inn.toNat % 2 ^ 5

/-- R88: `DECODE_CTRL`, op 0x2 with one argument word, answers bits 31:16, 15, 14, 13, 12:8, 7:5 and 4:0 of every word
and writes `STATUS` only. -/
def Obligations.DecodeCtrlReadsEachField : Prop :=
  ∀ s (w : Word), s.phase = .idle →
    decode (.descriptor [0x2, w]) = .instr (.decodeCtrl w) ∧
    exec (.decodeCtrl w) s = .next { s with
      status := .ok
      returned := some ⟨.fields ⟨w.extractLsb' 16 16, w.extractLsb' 15 1, w.extractLsb' 14 1, w.extractLsb' 13 1,
        w.extractLsb' 8 5, w.extractLsb' 5 3, w.extractLsb' 0 5⟩, .ok⟩ }

/-- R89: both round-trip laws, run as operations one after the other. -/
def Obligations.CodecRoundTrips : Prop :=
  ∀ s, s.phase = .idle →
    (∀ d f r rw ex fd inn, ∃ w t u,
      exec (.composeCtrl d f r rw ex fd inn) s = .next t ∧ t.returned = some ⟨.word w, .ok⟩ ∧
      exec (.decodeCtrl w) t = .next u ∧
      u.returned = some ⟨.fields ⟨d.setWidth 16, f.setWidth 1, r.setWidth 1, rw.setWidth 1, ex.setWidth 5,
        fd.setWidth 3, inn.setWidth 5⟩, .ok⟩) ∧
    (∀ w, ∃ (f : CtrlFields) (t u : State),
      exec (.decodeCtrl w) s = .next t ∧ t.returned = some ⟨.fields f, .ok⟩ ∧
      exec (.composeCtrl (f.cpuDataIn.setWidth 32) (f.finish.setWidth 32) (f.reserved.setWidth 32) (f.rw.setWidth 32)
        (f.phyExaddr.setWidth 32) (f.frqDv.setWidth 32) (f.phyInaddr.setWidth 32)) t = .next u ∧
      u.returned = some ⟨.word w, .ok⟩)

/-- R90: the read command has bits 31:13 zero, the divider at 7:5 and the two addresses placed by `ADDR_ASSIGN`, each
operand masked; it is of class `MDIO_CMD_READ`. -/
def Obligations.ReadCommandPlacesItsOperands : Prop :=
  ∀ (p : Params) (freqDiv phyAddr regNum : Word),
    let w := readCmd p freqDiv phyAddr regNum
    w &&& 0xFFFFE000#32 = 0#32 ∧ w.extractLsb' 5 3 = freqDiv.setWidth 3 ∧
    (p.addrAssign = .exIsPhy → w.extractLsb' 8 5 = phyAddr.setWidth 5 ∧ w.extractLsb' 0 5 = regNum.setWidth 5) ∧
    (p.addrAssign = .exIsReg → w.extractLsb' 8 5 = regNum.setWidth 5 ∧ w.extractLsb' 0 5 = phyAddr.setWidth 5)

/-! ## The bus -/

/-- R51, R12: a read is one bus event, appended to `TRACE` with its answer, and changes nothing else of the state but
the primitive; a write likewise, and a command word that reached the controller has started its cycle (R37, R58, R64;
whether a write that answered `ok = false` reached it is free, log 8). R52: the unconstrained primitive gives any
answer, the next of its script whatever that is, and after the script a draw of its own for each access, numbered by a
counter (log 1). What the reference device answers is the obligation ReferenceDeviceReacts. -/
def Obligations.AccessAppendsOneEvent : Prop :=
  (∀ s addr (w : Word),
    (let r := s.bus.answer s.params (s.trace.length + 1) (.rd addr)
     readAns addr s = r.1 ∧
     afterRead addr s = { s with trace := s.trace ++ [.rd addr r.1.word r.1.ok], bus := r.2 }) ∧
    (let r := s.bus.answer s.params (s.trace.length + 1) (.wr addr w)
     writeOk addr w s = r.1.ok ∧
     afterCommandWrite addr w s = { s with
       trace := s.trace ++ [.wr addr w r.1.ok]
       bus := r.2
       cycles := if r.1.ok || r.1.reached then s.cycles ++ [cycleOf s.params w] else s.cycles })) ∧
  (∀ p ev acc a l n, (Bus.oracle (a :: l) n).answer p ev acc = (a, .oracle l (n + 1))) ∧
  (∀ p ev acc n, (Bus.oracle [] n).answer p ev acc = (Config.freeAnswer n acc, .oracle [] (n + 1)))

/-! ## `WAIT_READY`, `START_READ`, `READ_RESULT` -/

/-- R91, R92: `WAIT_READY`, op 0x3 with one argument word. With polls counted from 0: ready at poll `k` ends with
`N_POLL - k` after `k + 1` reads and `k` sleeps; an aborting poll ends with `(0, BUS_ERROR)`; `N_POLL` failed polls
end with `(0, TIMEOUT)` after `N_POLL` reads; and the count is 0 exactly when no poll of the loop observed ready. -/
def Obligations.WaitReadyPollsUntilReadyOrTheBound : Prop :=
  ∀ s base, s.phase = .idle →
    let n := s.params.nPoll
    let addr : Word := base + 0x1100
    decode (.descriptor [0x3, base]) = .instr (.waitReady base) ∧
    (∀ k < n, failedPolls addr k s → ReadyPoll (pollAns addr k s) →
      exec (.waitReady base) s = .next { afterReads addr (k + 1) s with
        cnt := n - k, cntValued := true, sleeps := s.sleeps + k,
        status := .ok, returned := some ⟨.count (n - k), .ok⟩ }) ∧
    (∀ k < n, failedPolls addr k s → AbortingPoll s.params (pollAns addr k s) →
      exec (.waitReady base) s = .next { afterReads addr (k + 1) s with
        cnt := n - k, cntValued := true, sleeps := s.sleeps + k,
        status := .busError, returned := some ⟨.count 0, .busError⟩ }) ∧
    (failedPolls addr n s →
      exec (.waitReady base) s = .next { afterReads addr n s with
        cnt := 0, cntValued := true, sleeps := s.sleeps + (n - 1),
        status := .timeout, returned := some ⟨.count 0, .timeout⟩ }) ∧
    (∃ t r, exec (.waitReady base) s = .next t ∧ t.returned = some ⟨.count r, t.status⟩ ∧
      (r = 0 ↔ ¬ ∃ k < n, failedPolls addr k s ∧ ReadyPoll (pollAns addr k s)))

/-- R91: only bit 15 of the word read is examined. Two scripts of answers that agree in `ok` and in bit 15 give one
result, count, status and number of polls. -/
def Obligations.OtherPollBitsHaveNoEffect : Prop :=
  ∀ (s : State) (base : Word) (l l' : List Answer) (m : Nat), s.phase = .idle →
    List.Forall₂ (fun a b => a.ok = b.ok ∧ a.word.getLsbD 15 = b.word.getLsbD 15) l l' →
    ∃ t t', exec (.waitReady base) { s with bus := .oracle l m } = .next t ∧
      exec (.waitReady base) { s with bus := .oracle l' m } = .next t' ∧
      t.returned = t'.returned ∧ t.status = t'.status ∧ t.cnt = t'.cnt ∧ t.sleeps = t'.sleeps ∧
      t.trace.length = t'.trace.length

/-- R93, R118, R119: `START_READ`, op 0x4 with four argument words, makes one write of the read command to
`MDIO_RWCTRL` and nothing else; it ends `OK` with no value of its own, or, when the write failed, with the value 0 and
`BUS_ERROR`. (The model's choices: the width of that 0, log 12, and the record of started cycles inside
`afterCommandWrite`, log 8.) -/
def Obligations.StartReadWritesTheCommand : Prop :=
  ∀ s base freqDiv phyAddr regNum, s.phase = .idle →
    let addr : Word := base + 0x1100
    let w := readCmd s.params freqDiv phyAddr regNum
    let s1 := afterCommandWrite addr w s
    decode (.descriptor [0x4, base, freqDiv, phyAddr, regNum]) = .instr (.startRead base freqDiv phyAddr regNum) ∧
    (writeOk addr w s = true → exec (.startRead base freqDiv phyAddr regNum) s =
      .next { s1 with status := .ok, returned := some ⟨.none, .ok⟩ }) ∧
    (writeOk addr w s = false → exec (.startRead base freqDiv phyAddr regNum) s =
      .next { s1 with status := .busError, returned := some ⟨.value 0, .busError⟩ })

/-- R94: `READ_RESULT`, op 0x5 with one argument word, makes one read of `MDIO_RO_DATA` and keeps bits 15:0; a failed
read gives 0 and `BUS_ERROR`. -/
def Obligations.ReadResultKeepsSixteenBits : Prop :=
  ∀ s base, s.phase = .idle →
    let addr : Word := base + 0x1104
    let a := readAns addr s
    let v := if a.ok then a.word.extractLsb' 0 16 else 0
    let st := if a.ok then Status.ok else Status.busError
    decode (.descriptor [0x5, base]) = .instr (.readResult base) ∧
    exec (.readResult base) s = .next { afterRead addr s with
      result := v, resultValued := true, status := st, returned := some ⟨.value v, st⟩ }

/-- R28, R47: `RESULT` holds the value the last `MDIO_READ` or `READ_RESULT` returned, bits 15:0 of the word read
last, at `MDIO_RO_DATA`, when it ended `OK`, and 0 when it failed; the host may read it from then on, and its read
faults before. -/
def Obligations.ResultHoldsTheReturnedValue : Prop :=
  (∀ s, s.resultValued = false → hostRead .result s = .error (.valuelessRegister .result)) ∧
  (∀ s i, (∃ b, i = Instr.readResult b) ∨ (∃ f p b r, i = Instr.mdioRead f p b r) → s.phase = .idle →
    ∃ t v, exec i s = .next t ∧ t.returned = some ⟨.value v, t.status⟩ ∧ t.result = v ∧
      hostRead .result t = .ok v.toNat ∧ (t.status ≠ .ok → v = 0) ∧
      (t.status = .ok → ∀ b, (i = .readResult b ∨ ∃ f p r, i = .mdioRead f p b r) →
        ∃ w : Word, t.trace.getLast? = some (.rd (b + 0x1104) w true) ∧ v = w.extractLsb' 0 16))

/-! ## The phases of `MDIO_READ` -/

/-- R96: a step of the pre-check times out when `CNT = 0`, else makes one poll. -/
def Obligations.PreCheckStep : Prop :=
  ∀ s, s.phase = .waitReadyPre → s.cntValued = true → s.latchesValued = true →
    let addr : Word := s.base + 0x1100
    let a := readAns addr s
    let s1 := afterRead addr s
    (s.cnt = 0 → step s = .next { s with
      diag := s.diag ++ [.busy], result := 0, resultValued := true, status := .busy, phase := .failed }) ∧
    (s.cnt ≠ 0 → ReadyPoll a → step s = .next { s1 with phase := .commandIssued }) ∧
    (s.cnt ≠ 0 → AbortingPoll s.params a → step s = .next { s1 with
      result := 0, resultValued := true, status := .busError, phase := .failed }) ∧
    (s.cnt ≠ 0 → FailedPoll s.params a → step s = .next { s1 with
      cnt := s.cnt - 1, sleeps := if s.cnt = 1 then s.sleeps else s.sleeps + 1 })

/-- R97: the step of `CommandIssued` writes the command composed from the latches; success reloads `CNT` and moves to
the post-check, failure is a bus error. -/
def Obligations.CommandIssuedStep : Prop :=
  ∀ s, s.phase = .commandIssued → s.latchesValued = true →
    let addr : Word := s.base + 0x1100
    let w := readCmd s.params (s.fdiv.setWidth 32) (s.paddr.setWidth 32) (s.rnum.setWidth 32)
    let s1 := afterCommandWrite addr w s
    (writeOk addr w s = true → step s = .next { s1 with
      cnt := s.params.nPoll, cntValued := true, phase := .waitReadyPost }) ∧
    (writeOk addr w s = false → step s = .next { s1 with
      result := 0, resultValued := true, status := .busError, phase := .failed })

/-- R98: a step of the post-check is the pre-check's with the diagnostic and status `READ_TIMEOUT` and with
`ResultRead` next. -/
def Obligations.PostCheckStep : Prop :=
  ∀ s, s.phase = .waitReadyPost → s.cntValued = true → s.latchesValued = true →
    let addr : Word := s.base + 0x1100
    let a := readAns addr s
    let s1 := afterRead addr s
    (s.cnt = 0 → step s = .next { s with
      diag := s.diag ++ [.readTimeout], result := 0, resultValued := true, status := .readTimeout, phase := .failed }) ∧
    (s.cnt ≠ 0 → ReadyPoll a → step s = .next { s1 with phase := .resultRead }) ∧
    (s.cnt ≠ 0 → AbortingPoll s.params a → step s = .next { s1 with
      result := 0, resultValued := true, status := .busError, phase := .failed }) ∧
    (s.cnt ≠ 0 → FailedPoll s.params a → step s = .next { s1 with
      cnt := s.cnt - 1, sleeps := if s.cnt = 1 then s.sleeps else s.sleeps + 1 })

/-- R99, R100: `ResultRead` reads `MDIO_RO_DATA` once and ends the operation or fails; `Failed` makes no access and no
diagnostic, moves to `Idle` and returns `(0, STATUS)`; and it is entered only from the four phases before it, with the
zero result and a failure. -/
def Obligations.ResultReadAndFailedSteps : Prop :=
  (∀ s, s.phase = .resultRead → s.latchesValued = true →
    let addr : Word := s.base + 0x1104
    let a := readAns addr s
    let s1 := afterRead addr s
    let v := a.word.extractLsb' 0 16
    (a.ok = true → step s = .next { s1 with
      result := v, resultValued := true, status := .ok, phase := .idle, returned := some ⟨.value v, .ok⟩ }) ∧
    (a.ok = false → step s = .next { s1 with
      result := 0, resultValued := true, status := .busError, phase := .failed })) ∧
  (∀ s, s.phase = .failed →
    step s = .next { s with phase := .idle, returned := some ⟨.value 0, s.status⟩ }) ∧
  (∀ s t, step s = .next t → t.phase = .failed →
    t.result = 0 ∧ transactionFailure t.status ∧
    (s.phase = .waitReadyPre ∨ s.phase = .commandIssued ∨ s.phase = .waitReadyPost ∨ s.phase = .resultRead))

/-- U22, R47: a transaction step that would read `CNT` or a latch without a value faults. A poll phase's step reads a
latch only when `CNT` is not 0: with a `CNT` of 0 it times out (R96, R98) and makes no read (R126), whether or not the
latches have a value. The states that fault lie outside the invariant. -/
def Obligations.ValuelessLatchesFault : Prop :=
  ∀ s,
    ((s.phase = .waitReadyPre ∨ s.phase = .waitReadyPost) → s.cntValued = false →
      step s = .fault (.valuelessRegister .cnt)) ∧
    ((s.phase = .waitReadyPre ∨ s.phase = .waitReadyPost) → s.cntValued = true → s.cnt ≠ 0 → s.latchesValued = false →
      step s = .fault (.valuelessRegister .base)) ∧
    ((s.phase = .commandIssued ∨ s.phase = .resultRead) → s.latchesValued = false →
      step s = .fault (.valuelessRegister .base)) ∧
    (s.phase = .waitReadyPre → s.cntValued = true → s.cnt = 0 → step s = .next { s with
      diag := s.diag ++ [.busy], result := 0, resultValued := true, status := .busy, phase := .failed }) ∧
    (s.phase = .waitReadyPost → s.cntValued = true → s.cnt = 0 → step s = .next { s with
      diag := s.diag ++ [.readTimeout], result := 0, resultValued := true, status := .readTimeout, phase := .failed })

/-! ## `MDIO_READ` as a whole -/

/-- R95, R99, R24 to R27: a transaction whose pre-check observes ready at poll `k`, whose command write succeeds,
whose post-check observes ready at poll `j` (a full count again) and whose result read succeeds returns the low 16
bits of `MDIO_RO_DATA`, with the masked operands in the latches and no diagnostic. -/
def Obligations.MdioReadReturnsTheResult : Prop :=
  ∀ s f p b r k j, s.phase = .idle →
    let n := s.params.nPoll
    let addr : Word := b + 0x1100
    let w := readCmd s.params f p r
    let s1 := afterReads addr (k + 1) s
    let s2 := afterCommandWrite addr w s1
    let s3 := afterReads addr (j + 1) s2
    let a := readAns (b + 0x1104) s3
    let v := a.word.extractLsb' 0 16
    k < n → failedPolls addr k s → ReadyPoll (pollAns addr k s) → writeOk addr w s1 = true →
    j < n → failedPolls addr j s2 → ReadyPoll (pollAns addr j s2) → a.ok = true →
    exec (.mdioRead f p b r) s =
      .next (readEnd f p b r (n - j) (s.sleeps + k + j) v .ok (afterRead (b + 0x1104) s3))

/-- R120, R96: a pre-check of `N_POLL` failed polls is `BUSY`: exactly `N_POLL` reads of `MDIO_RWCTRL`, no write, one
diagnostic, value 0. -/
def Obligations.BusyTransactionWritesNoCommand : Prop :=
  ∀ s f p b r, s.phase = .idle →
    let n := s.params.nPoll
    failedPolls (b + 0x1100) n s →
    exec (.mdioRead f p b r) s =
      .next { readEnd f p b r 0 (s.sleeps + (n - 1)) 0 .busy (afterReads (b + 0x1100) n s) with
        diag := s.diag ++ [.busy] }

/-- R121, R98: a post-check of `N_POLL` failed polls is `READ_TIMEOUT`: the command has been written, `MDIO_RO_DATA`
is not read, one diagnostic, value 0. -/
def Obligations.ReadTimeoutAfterTheCommand : Prop :=
  ∀ s f p b r k, s.phase = .idle →
    let n := s.params.nPoll
    let addr : Word := b + 0x1100
    let w := readCmd s.params f p r
    let s1 := afterReads addr (k + 1) s
    let s2 := afterCommandWrite addr w s1
    k < n → failedPolls addr k s → ReadyPoll (pollAns addr k s) → writeOk addr w s1 = true → failedPolls addr n s2 →
    exec (.mdioRead f p b r) s =
      .next { readEnd f p b r 0 (s.sleeps + k + (n - 1)) 0 .readTimeout (afterReads addr n s2) with
        diag := s.diag ++ [.readTimeout] }

/-- R122, R119, R97: a bus error at a pre-check poll, at the command write, at a post-check poll or at the result read
ends the transaction there, with value 0, the failed access the last event of `TRACE`, and no diagnostic. -/
def Obligations.BusErrorEndsTheTransaction : Prop :=
  ∀ s f p b r k, s.phase = .idle →
    let n := s.params.nPoll
    let addr : Word := b + 0x1100
    let w := readCmd s.params f p r
    let s1 := afterReads addr (k + 1) s
    let s2 := afterCommandWrite addr w s1
    k < n → failedPolls addr k s →
    (AbortingPoll s.params (pollAns addr k s) →
      exec (.mdioRead f p b r) s = .next (readEnd f p b r (n - k) (s.sleeps + k) 0 .busError s1)) ∧
    (ReadyPoll (pollAns addr k s) → writeOk addr w s1 = false →
      exec (.mdioRead f p b r) s = .next (readEnd f p b r (n - k) (s.sleeps + k) 0 .busError s2)) ∧
    (∀ j < n, ReadyPoll (pollAns addr k s) → writeOk addr w s1 = true → failedPolls addr j s2 →
      let s3 := afterReads addr (j + 1) s2
      (AbortingPoll s.params (pollAns addr j s2) →
        exec (.mdioRead f p b r) s = .next (readEnd f p b r (n - j) (s.sleeps + k + j) 0 .busError s3)) ∧
      (ReadyPoll (pollAns addr j s2) → (readAns (b + 0x1104) s3).ok = false →
        exec (.mdioRead f p b r) s =
          .next (readEnd f p b r (n - j) (s.sleeps + k + j) 0 .busError (afterRead (b + 0x1104) s3))))

/-- R101: `MDIO_READ` is the run of its transitions. Acceptance latches the masked operands and enters `WaitReadyPre`;
at most `2 * N_POLL + 3` single steps later the machine is where `exec` says, back in `Idle`. (That `exec` answers the
end of that run at once is the model's choice of granularity, log 4.) -/
def Obligations.MdioReadIsTheRunOfItsTransitions : Prop :=
  ∀ s f p b r, s.phase = .idle →
    let accepted : State := { s with
      phase := .waitReadyPre, base := b, fdiv := f.setWidth 3, paddr := p.setWidth 5, rnum := r.setWidth 5,
      latchesValued := true, cnt := s.params.nPoll, cntValued := true }
    ∃ k t, k ≤ 2 * s.params.nPoll + 3 ∧ exec (.mdioRead f p b r) s = .next t ∧
      Host.Core.run core k accepted = .next t ∧ t.phase = .idle

/-- R101: every transaction in progress is back in `Idle` within `2 * N_POLL + 3` steps, from every state of the
invariant. -/
def Obligations.EveryTransactionReturnsToIdle : Prop :=
  ∀ s, StateInv s → s.phase ≠ .idle →
    ∃ k t, k ≤ 2 * s.params.nPoll + 3 ∧ Host.Core.run core k s = .next t ∧ t.phase = .idle

/-- R101: a successful `MDIO_READ f, p, b, r` makes the bus events of `WAIT_READY b`, `START_READ b, f, p, r`,
`WAIT_READY b`, `READ_RESULT b` run in turn with the same answers, and leaves the same result, count and status. (The
same started cycles too: that record is the model's, log 8.) -/
def Obligations.MdioReadRefinesTheFourOperations : Prop :=
  ∀ s f p b r t, s.phase = .idle → exec (.mdioRead f p b r) s = .next t → t.status = .ok →
    ∃ s1 s2 s3 s4, exec (.waitReady b) s = .next s1 ∧ s1.status = .ok ∧
      exec (.startRead b f p r) s1 = .next s2 ∧ s2.status = .ok ∧
      exec (.waitReady b) s2 = .next s3 ∧ s3.status = .ok ∧
      exec (.readResult b) s3 = .next s4 ∧ s4.status = .ok ∧
      s4.trace = t.trace ∧ s4.bus = t.bus ∧ s4.result = t.result ∧ s4.cnt = t.cnt ∧ s4.cycles = t.cycles ∧
      s4.returned = t.returned

/-- R58, R59, R151: one `MDIO_READ` writes at `MDIO_RWCTRL` only, at most once, and reads `MDIO_RO_DATA` at most once,
exactly once each when it ends `OK`, and makes at most `2 * N_POLL` other reads, all of `MDIO_RWCTRL`. -/
def Obligations.MdioReadAccessCounts : Prop :=
  ∀ s f p b r, s.phase = .idle →
    ∃ t evs, exec (.mdioRead f p b r) s = .next t ∧ t.trace = s.trace ++ evs ∧
      evs.countP (fun e => e.isWrite && e.addr == b + 0x1100) ≤ 1 ∧
      (∀ e ∈ evs, e.isWrite = true → e.addr = b + 0x1100) ∧
      evs.countP (fun e => !e.isWrite && e.addr == b + 0x1104) ≤ 1 ∧
      evs.countP (fun e => !e.isWrite && e.addr == b + 0x1100) ≤ 2 * s.params.nPoll ∧
      evs.length = evs.countP (fun e => e.addr == b + 0x1104) + evs.countP (fun e => e.addr == b + 0x1100) ∧
      (t.status = .ok → evs.countP (fun e => e.isWrite && e.addr == b + 0x1100) = 1 ∧
        evs.countP (fun e => !e.isWrite && e.addr == b + 0x1104) = 1)

/-- R145, R146, R97: inside `MDIO_READ` and `DETECT` every command write, and every read of `MDIO_RO_DATA`, comes
right after a poll of `MDIO_RWCTRL` that observed ready. (For `DETECT`, a further generation's strap address is taken
not to be the controller's result register; no generation of R104 has both.) -/
def Obligations.CommandsAndResultsFollowReady : Prop :=
  (∀ s f p b r, s.phase = .idle →
    ∃ t evs, exec (.mdioRead f p b r) s = .next t ∧ t.trace = s.trace ++ evs ∧ hazardFreeRun b none evs = true) ∧
  (∀ s gen b, s.phase = .idle → (genRecord s.params gen).mdioBase = some b →
    (∀ m, (genRecord s.params gen).strap = some m → m.addr ≠ b + 0x1104) →
    ∃ t evs, exec (.detect gen) s = .next t ∧ t.trace = s.trace ++ evs ∧ hazardFreeRun b none evs = true)

/-! ## The selector and the straps -/

/-- R105, R104: `SELECT_MAP`, op 0x7 with one argument word, answers the table's base and strap map for each
generation code, `(none, none)` for every code above 7 without a further record, and writes `STATUS` only. (The last
clause is the model's choice, log 20: a code above 7 takes the further record the parameter `extraRecords` holds for
it.) -/
def Obligations.SelectMapAnswersTheTable : Prop :=
  ∀ s (gen : Word), s.phase = .idle →
    decode (.descriptor [0x7, gen]) = .instr (.selectMap gen) ∧
    ∃ mb st, exec (.selectMap gen) s =
        .next { s with status := .ok, returned := some ⟨.map mb st, .ok⟩ } ∧
      (gen.toNat = 0 → mb = some 0x10090000 ∧ st = none) ∧
      (gen.toNat = 1 → mb = some 0x10090000 ∧ st = none) ∧
      (gen.toNat = 2 → mb = some 0x10050000 ∧ st = none) ∧
      (gen.toNat = 3 → mb = some 0x10010000 ∧ st = none) ∧
      (gen.toNat = 4 → mb = some 0x10040000 ∧ st = none) ∧
      (gen.toNat = 5 → mb = none ∧ st = some ⟨0x20030002, 1, s.params.strapLsbF, .T1⟩) ∧
      (gen.toNat = 6 → mb = none ∧ st = some ⟨0x200300EC, 3, s.params.strapLsbG, .T3⟩) ∧
      (gen.toNat = 7 → mb = none ∧ st = some ⟨0x120100EC, 3, s.params.strapLsbH, .T3⟩) ∧
      (7 < gen.toNat → s.params.extraRecords.lookup gen = none → mb = none ∧ st = none) ∧
      (∀ g, 7 < gen.toNat → s.params.extraRecords.lookup gen = some g → mb = g.mdioBase ∧ st = g.strap)

/-- R107, R106: `DECODE_STRAP`, op 0x8 with two argument words, answers the mode of `T1` for F and of `T3` for G and
H, `UNKNOWN` for every unmapped code and for every generation without a strap map, with the code unmasked. (The last
clause is the model's choice, log 20: a code above 7 whose further record has a strap map is decoded by that map's
table.) -/
def Obligations.DecodeStrapAnswersTheCodeTables : Prop :=
  ∀ s (gen code : Word), s.phase = .idle →
    decode (.descriptor [0x8, gen, code]) = .instr (.decodeStrap gen code) ∧
    ∃ m, exec (.decodeStrap gen code) s =
        .next { s with status := .ok, returned := some ⟨.mode m, .ok⟩ } ∧
      (gen.toNat = 5 → m = if code = 0 then .mii else if code = 1 then .rmii else .unknown) ∧
      (gen.toNat = 6 ∨ gen.toNat = 7 →
        m = if code = 0 then .gmiiMii else if code = 1 then .rgmii else if code = 4 then .rmii else .unknown) ∧
      (gen.toNat ≤ 4 → m = .unknown) ∧
      (7 < gen.toNat → (genRecord s.params gen).strap = none → m = .unknown) ∧
      (∀ x, 7 < gen.toNat → (genRecord s.params gen).strap = some x → m = codeMode x.table code)

/-- R108, R77: `READ_STRAP`, op 0x9 with one argument word, makes one read of the strap address and decodes the
field's bits by `DECODE_STRAP`; a failed read is `(UNKNOWN, BUS_ERROR)`; a generation without a strap map makes no
access. -/
def Obligations.ReadStrapDecodesTheField : Prop :=
  ∀ s (gen : Word), s.phase = .idle →
    decode (.descriptor [0x9, gen]) = .instr (.readStrap gen) ∧
    ((genRecord s.params gen).strap = none → exec (.readStrap gen) s =
      .next { s with status := .ok, returned := some ⟨.mode .unknown, .ok⟩ }) ∧
    (∀ x, (genRecord s.params gen).strap = some x →
      let a := readAns x.addr s
      let s1 := afterRead x.addr s
      (a.ok = false → exec (.readStrap gen) s =
        .next { s1 with status := .busError, returned := some ⟨.mode .unknown, .busError⟩ }) ∧
      (a.ok = true → ∀ code : Word, code.toNat = a.word.toNat / 2 ^ x.lsb % 2 ^ x.width →
        ∃ u m, exec (.decodeStrap gen code) s = .next u ∧ u.returned = some ⟨.mode m, .ok⟩ ∧
          exec (.readStrap gen) s = .next { s1 with status := .ok, returned := some ⟨.mode m, .ok⟩ }))

/-- R108: bits of the strap word outside the field have no effect on the mode. -/
def Obligations.StrapBitsOutsideTheFieldHaveNoEffect : Prop :=
  ∀ (s : State) (gen : Word) (x : StrapMap) (v v' : Word) (l : List Answer) (m : Nat), s.phase = .idle →
    (genRecord s.params gen).strap = some x →
    (∀ i, x.lsb ≤ i → i < x.lsb + x.width → v.getLsbD i = v'.getLsbD i) →
    ∃ t t', exec (.readStrap gen) { s with bus := .oracle (⟨v, true, true⟩ :: l) m } = .next t ∧
      exec (.readStrap gen) { s with bus := .oracle (⟨v', true, true⟩ :: l) m } = .next t' ∧
      t.returned = t'.returned ∧ t.status = .ok

/-! ## `DETECT` -/

/-- R110, R118: `DETECT` always ends with status `OK`, hands its record to the host, and leaves the engine `Idle`. -/
def Obligations.DetectAlwaysEndsOk : Prop :=
  ∀ s gen, s.phase = .idle →
    ∃ t, exec (.detect gen) s = .next t ∧ t.status = .ok ∧ t.returned = some ⟨.record t.out, .ok⟩ ∧ t.phase = .idle ∧
      recordOrdered t.out ∧ t.inbox = s.inbox ∧ t.params = s.params

/-- R111: without a base, or when the step-2 read of the control register fails, steps 3 to 5 are skipped: no MDIO key
is added, and `phy-mode` is still attempted, by `READ_STRAP`. -/
def Obligations.SkippedMdioStillAttemptsTheStrap : Prop :=
  ∀ s gen, s.phase = .idle →
    let s0 : State := { s with out := [], stage := [] }
    ((genRecord s.params gen).mdioBase = none →
      ∃ u m st, exec (.readStrap gen) s0 = .next u ∧ u.returned = some ⟨.mode m, st⟩ ∧
        exec (.detect gen) s = .next (detectEnd [] m u)) ∧
    (∀ b, (genRecord s.params gen).mdioBase = some b → (readAns (b + 0x1100) s).ok = false →
      ∃ u m st, exec (.readStrap gen) (afterRead (b + 0x1100) s0) = .next u ∧ u.returned = some ⟨.mode m, st⟩ ∧
        exec (.detect gen) s = .next (detectEnd [] m u))

/-- R112: when the initiator PHY address read fails, no transaction is issued; step 5 is still attempted under
`CONTINUE` and skipped under `SKIP_REST`; no MDIO key is recorded; step 6 runs. -/
def Obligations.FailedInitiatorReadIssuesNoTransaction : Prop :=
  ∀ s gen b, s.phase = .idle → (genRecord s.params gen).mdioBase = some b →
    let s1 := afterRead (b + 0x1100) { s with out := [], stage := [] }
    let s2 := afterRead (b + 0x0108) s1
    let d := readAns (b + 0x2108) s2
    let s3 : State := if s.params.onMdioFail = .continueSteps
      then { afterRead (b + 0x2108) s2 with stage := if d.ok then [.dMdioPhyaddr d.word] else [] }
      else s2
    (readAns (b + 0x1100) s).ok = true → (readAns (b + 0x0108) s1).ok = false →
    ∃ u m st, exec (.readStrap gen) s3 = .next u ∧ u.returned = some ⟨.mode m, st⟩ ∧
      exec (.detect gen) s = .next (detectEnd [] m u)

/-- R113, R114, R126: a failed transaction of step 4 commits nothing. When the first fails, `SKIP_REST` goes straight
to step 6, and `CONTINUE` still issues the second and then makes the step-5 read; when the second fails, step 5 is
made under `CONTINUE` only; and when both succeed but the step-5 read fails, the staged keys are dropped. Step 6 runs
each time. -/
def Obligations.FailedStepsCommitNothing : Prop :=
  ∀ s gen b, s.phase = .idle → (genRecord s.params gen).mdioBase = some b →
    let s1 := afterRead (b + 0x1100) { s with out := [], stage := [] }
    let c := readAns (b + 0x1100) s
    let fdiv : Word := (c.word.extractLsb' 5 3).setWidth 32
    let u := readAns (b + 0x0108) s1
    let s2 : State := { afterRead (b + 0x0108) s1 with stage := [.uMdioPhyaddr u.word] }
    let step5 : State → State := fun t =>
      if s.params.onMdioFail = .continueSteps then
        let d := readAns (b + 0x2108) t
        { afterRead (b + 0x2108) t with stage := if d.ok then t.stage ++ [.dMdioPhyaddr d.word] else t.stage }
      else t
    let endsAfter : State → Prop := fun t3 =>
      ∃ e m st, exec (.readStrap gen) t3 = .next e ∧ e.returned = some ⟨.mode m, st⟩ ∧
        exec (.detect gen) s = .next (detectEnd [] m e)
    ∀ t1, c.ok = true → u.ok = true → exec (.mdioRead fdiv u.word b 0x02) s2 = .next t1 →
      (t1.status ≠ .ok → s.params.onMdioFail = .skipRest → endsAfter t1) ∧
      (∀ t2, exec (.mdioRead fdiv u.word b 0x03) t1 = .next t2 →
        (t1.status ≠ .ok → s.params.onMdioFail = .continueSteps → endsAfter (step5 t2)) ∧
        (t1.status = .ok → t2.status ≠ .ok → endsAfter (step5 t2)) ∧
        (t1.status = .ok → t2.status = .ok → (readAns (b + 0x2108) t2).ok = false →
          ∃ id : Word, id.toNat = t1.result.toNat * 2 ^ 16 + t2.result.toNat ∧
            endsAfter { afterRead (b + 0x2108) t2 with stage := [.uMdioPhyaddr u.word, .phyId id] }))

/-- R112 to R115, R74, R76: when every access and transaction succeeds, `DETECT` records the raw initiator word, the
identifier of the two transactions (register 2 high, register 3 low, both at the divider read back and the initiator
address), and the raw target word, in that order, then `phy-mode` if determinable. -/
def Obligations.DetectRecordsTheThreeKeys : Prop :=
  ∀ s gen b, s.phase = .idle → (genRecord s.params gen).mdioBase = some b →
    let s1 := afterRead (b + 0x1100) { s with out := [], stage := [] }
    let c := readAns (b + 0x1100) s
    let fdiv : Word := (c.word.extractLsb' 5 3).setWidth 32
    let u := readAns (b + 0x0108) s1
    let s2 : State := { afterRead (b + 0x0108) s1 with stage := [.uMdioPhyaddr u.word] }
    ∀ t1 t2 : State, c.ok = true → u.ok = true →
      exec (.mdioRead fdiv u.word b 0x02) s2 = .next t1 → t1.status = .ok →
      exec (.mdioRead fdiv u.word b 0x03) t1 = .next t2 → t2.status = .ok →
      let d := readAns (b + 0x2108) t2
      d.ok = true →
      ∃ (id : Word) (t3 e : State) (m : Mode) (st : Status),
        id.toNat = t1.result.toNat * 2 ^ 16 + t2.result.toNat ∧
        t3 = { afterRead (b + 0x2108) t2 with
          out := [.uMdioPhyaddr u.word, .phyId id, .dMdioPhyaddr d.word]
          stage := [.uMdioPhyaddr u.word, .phyId id, .dMdioPhyaddr d.word] } ∧
        exec (.readStrap gen) t3 = .next e ∧ e.returned = some ⟨.mode m, st⟩ ∧
        exec (.detect gen) s =
          .next (detectEnd [.uMdioPhyaddr u.word, .phyId id, .dMdioPhyaddr d.word] m e)

/-- R114, R126: the three MDIO keys reach the record together or none does, and none does when a transaction emitted a
diagnostic. -/
def Obligations.MdioKeysCommitTogether : Prop :=
  ∀ s gen, s.phase = .idle →
    ∃ t, exec (.detect gen) s = .next t ∧
      (t.out.filter OutEntry.isMdio = [] ∨
        ∃ u id d, t.out.filter OutEntry.isMdio = [.uMdioPhyaddr u, .phyId id, .dMdioPhyaddr d]) ∧
      (t.diag ≠ s.diag → t.out.filter OutEntry.isMdio = [])

/-- R115: for a generation with a strap map, step 6's read of the strap is the last bus event on every path, and
`phy-mode` is recorded exactly when that read succeeded and its code is mapped. -/
def Obligations.StrapStepRunsOnEveryPath : Prop :=
  ∀ s gen x, s.phase = .idle → (genRecord s.params gen).strap = some x →
    ∃ t before v ok, exec (.detect gen) s = .next t ∧ s.trace <+: before ∧ t.trace = before ++ [.rd x.addr v ok] ∧
      t.out.filter (fun e => !e.isMdio) =
        (if ok = true ∧ strapMode s.params gen (strapCode x v) ≠ .unknown
          then [.phyMode (strapMode s.params gen (strapCode x v))] else [])

/-- R49, R61, R60: every access `DETECT` makes is at one of the controller's four registers it may read or at the
strap register of its generation, and its writes are at `MDIO_RWCTRL`. -/
def Obligations.DetectTouchesOnlyItsRegisters : Prop :=
  ∀ s gen, s.phase = .idle →
    ∃ t evs, exec (.detect gen) s = .next t ∧ t.trace = s.trace ++ evs ∧
      ∀ e ∈ evs,
        (∃ b, (genRecord s.params gen).mdioBase = some b ∧
          (e.addr = b + 0x1100 ∨
            (e.isWrite = false ∧ (e.addr = b + 0x1104 ∨ e.addr = b + 0x0108 ∨ e.addr = b + 0x2108)))) ∨
        (∃ x, (genRecord s.params gen).strap = some x ∧ e.isWrite = false ∧ e.addr = x.addr)

/-! ## Rules of the whole machine -/

/-- R30, R31, R33: the engine only appends to `TRACE` and to `DIAG`, and no step changes a parameter. (The started
cycles only grow too: that record is the model's, log 8.) -/
def Obligations.StreamsOnlyGrow : Prop :=
  ∀ s t, step s = .next t → s.trace <+: t.trace ∧ s.diag <+: t.diag ∧ s.cycles <+: t.cycles ∧ t.params = s.params

/-- R37, R70, R90: whatever runs, every word the engine writes on the bus is a read command (`w & 0xFFFFE000 = 0`). -/
def Obligations.EngineWritesOnlyReadCommands : Prop :=
  ∀ s t, step s = .next t → ∃ evs, t.trace = s.trace ++ evs ∧ ∀ e ∈ evs, e.commandWord = true

/-- R30, D8: only `MDIO_READ` emits diagnostics: one `BUSY` or one `READ_TIMEOUT`, exactly when it ends so, and none
on any other end. The diagnostics `DETECT` adds are those of its transactions: none without a base or when the step-2
read or the initiator read fails; else those of the first transaction, and of the second where it is issued. -/
def Obligations.DiagnosticsNameTheirFailure : Prop :=
  (∀ s f p b r, s.phase = .idle → ∃ t, exec (.mdioRead f p b r) s = .next t ∧
    t.diag = s.diag ++ (match t.status with | .busy => [.busy] | .readTimeout => [.readTimeout] | _ => [])) ∧
  (∀ s t i, (∀ f p b r, i ≠ .mdioRead f p b r) → (∀ g, i ≠ .detect g) → exec i s = .next t → t.diag = s.diag) ∧
  (∀ s gen, s.phase = .idle → ∃ t, exec (.detect gen) s = .next t ∧
    ((genRecord s.params gen).mdioBase = none → t.diag = s.diag) ∧
    ∀ b, (genRecord s.params gen).mdioBase = some b →
      let s1 := afterRead (b + 0x1100) { s with out := [], stage := [] }
      let c := readAns (b + 0x1100) s
      let fdiv : Word := (c.word.extractLsb' 5 3).setWidth 32
      let u := readAns (b + 0x0108) s1
      let s2 : State := { afterRead (b + 0x0108) s1 with stage := [.uMdioPhyaddr u.word] }
      (c.ok = false ∨ u.ok = false → t.diag = s.diag) ∧
      (c.ok = true → u.ok = true → ∀ t1, exec (.mdioRead fdiv u.word b 0x02) s2 = .next t1 →
        (t1.status ≠ .ok → s.params.onMdioFail = .skipRest → t.diag = t1.diag) ∧
        (t1.status = .ok ∨ s.params.onMdioFail = .continueSteps →
          ∀ t2, exec (.mdioRead fdiv u.word b 0x03) t1 = .next t2 → t.diag = t2.diag)))

/-- R23 to R32: each register is written only by the operations its rule names. Only `DETECT` writes `OUT` and
`STAGE`; only `MDIO_READ` (and `DETECT` through it) writes the latches; only `READ_RESULT` besides writes `RESULT`,
and only `WAIT_READY` besides `CNT`; the pure operations make no bus access. The clauses on the model's own fields
rest on its choices: what is presented (log 5), the parameters (log 2), the started cycles (log 8), the sleeps (log
10), and the command words presented from outside, which leave every engine register alone (log 6). -/
def Obligations.RegistersAreWrittenOnlyByTheirOperations : Prop :=
  ∀ i s t, exec i s = .next t →
    t.inbox = s.inbox ∧ t.params = s.params ∧
    ((∀ g, i ≠ .detect g) → t.out = s.out ∧ t.stage = s.stage) ∧
    ((∀ g, i ≠ .detect g) → (∀ f p b r, i ≠ .mdioRead f p b r) →
      t.base = s.base ∧ t.fdiv = s.fdiv ∧ t.paddr = s.paddr ∧ t.rnum = s.rnum ∧ t.latchesValued = s.latchesValued ∧
      ((∀ b, i ≠ .readResult b) → t.result = s.result ∧ t.resultValued = s.resultValued) ∧
      ((∀ b, i ≠ .waitReady b) → t.cnt = s.cnt ∧ t.cntValued = s.cntValued ∧ t.sleeps = s.sleeps) ∧
      ((∀ b f p r, i ≠ .startRead b f p r) → isOperation i = true → t.cycles = s.cycles)) ∧
    ((∃ d f r rw ex fd inn, i = .composeCtrl d f r rw ex fd inn) ∨ (∃ w, i = .decodeCtrl w) ∨ (∃ g, i = .selectMap g) ∨
      (∃ g c, i = .decodeStrap g c) → t.trace = s.trace ∧ t.bus = s.bus) ∧
    (isOperation i = false → t = { s with cycles := t.cycles, bus := t.bus })

/-! ## The controller's command path and the reference device -/

/-- R70, R37, R133: a read command at the controller starts an MDIO read cycle of the addressed PHY's register at the
word's divider, by `ADDR_ASSIGN`, and touches no engine state; the unconstrained controller's later answers stay as
free as they were, and the reference device reacts by R133. (Presenting a command word from outside the engine is the
model's reading of the table's row, log 6, and the record of started cycles is the model's, log 8.) -/
def Obligations.ReadCommandStartsACycle : Prop :=
  ∀ s (ex : BitVec 5) (fd : BitVec 3) (inn : BitVec 5),
    ∃ (c : Cycle) (w : Word) (b : Bus), exec (.mdioCmdRead ex fd inn) s = .next { s with cycles := s.cycles ++ [c], bus := b } ∧
      w.toNat = ex.toNat * 2 ^ 8 + fd.toNat * 2 ^ 5 + inn.toNat ∧ c.divider = fd ∧
      (s.params.addrAssign = .exIsPhy → c.phy = ex ∧ c.reg = inn) ∧
      (s.params.addrAssign = .exIsReg → c.phy = inn ∧ c.reg = ex) ∧
      (∀ l n, s.bus = .oracle l n → b = .oracle l n) ∧
      (∀ d, s.bus = .reference d →
        b = .reference { d with fdv := fd, n := d.n + 1, fin := 0, cnt := d.latency (d.n + 1), cmd := w })

/-- The model's reading of R70, N9 and U12 (logs 6 and 7, DEDUCED): an MDIO write command presented from outside the
engine is refused at the controller the source does not describe (U12 says that the engine never writes one); it
completes only over the reference device, which by R133 takes its divider and does nothing else. -/
def Obligations.WriteCommandIsRefusedAtTheRealController : Prop :=
  ∀ s (d : BitVec 16) (f r : BitVec 1) (ex : BitVec 5) (fd : BitVec 3) (inn : BitVec 5),
    (∀ l n, s.bus = .oracle l n → exec (.mdioCmdWrite d f r ex fd inn) s = .refused .mdioWriteUndescribed) ∧
    (∀ dev, s.bus = .reference dev →
      exec (.mdioCmdWrite d f r ex fd inn) s = .next { s with bus := .reference { dev with fdv := fd } })

/-- R133's consequences: under the reference device, without failing events and with a cycle of latency `L` in flight,
a `WAIT_READY` returns `N_POLL - L` when `L < N_POLL`, finish and the addressed PHY register's value then standing in
the device; with a latency of `N_POLL` or more, or `INF`, it times out. Says nothing of the hardware (R132). -/
def Obligations.ReferenceDeviceFinishesAfterItsLatency : Prop :=
  ∀ s d, s.phase = .idle → s.bus = .reference d → d.fails = [] → d.fin = 0 → 1 ≤ d.n →
    (∀ L, d.cnt = some L → L < s.params.nPoll →
      ∃ t d', exec (.waitReady d.base) s = .next t ∧
        t.returned = some ⟨.count (s.params.nPoll - L), .ok⟩ ∧ t.bus = .reference d' ∧ d'.fin = 1 ∧
        d'.data = d.phyRegister (cycleOf s.params d.cmd).phy (cycleOf s.params d.cmd).reg) ∧
    (∀ L, d.cnt = some L → s.params.nPoll ≤ L →
      ∃ t, exec (.waitReady d.base) s = .next t ∧ t.returned = some ⟨.count 0, .timeout⟩) ∧
    (d.cnt = none → ∃ t, exec (.waitReady d.base) s = .next t ∧ t.returned = some ⟨.count 0, .timeout⟩)

/-- The read-class words of no row (R84), presented at the command path (log 6), with `rw = 0` and bits 31:14 not all
zero. With `finish` and `reserved` 0 the word is a read command and starts its cycle (R37; the model's choice, log
14). With one of them 1 it is refused at the undescribed controller (U13), and the reference device reacts by R133.
The record of the cycle is the model's (log 8). -/
def Obligations.ReadClassWordsAtTheController : Prop :=
  ∀ (s : State) (w : Word) rest, s.phase = .idle → s.inbox = .command w :: rest →
    w.getLsbD 13 = false → w &&& 0xFFFFE000#32 ≠ 0#32 →
    ∃ c : Cycle, c.divider = w.extractLsb' 5 3 ∧
      (s.params.addrAssign = .exIsPhy → c.phy = w.extractLsb' 8 5 ∧ c.reg = w.extractLsb' 0 5) ∧
      (s.params.addrAssign = .exIsReg → c.phy = w.extractLsb' 0 5 ∧ c.reg = w.extractLsb' 8 5) ∧
      (∀ l n, s.bus = .oracle l n →
        (w.getLsbD 15 = false → w.getLsbD 14 = false →
          step s = .next { s with inbox := rest, cycles := s.cycles ++ [c] }) ∧
        (w.getLsbD 15 = true ∨ w.getLsbD 14 = true → step s = .refused .finishOrReservedWritten)) ∧
      (∀ d, s.bus = .reference d → step s = .next { s with
        inbox := rest
        cycles := s.cycles ++ [c]
        bus := .reference
          { d with fdv := w.extractLsb' 5 3, n := d.n + 1, fin := 0, cnt := d.latency (d.n + 1), cmd := w } })

/-- R132: the reference device starts with `fin`, `fdv` and `data` as `FIN0`, `FDV0` and `DATA0` give them and the
rest 0; by R133 its first poll then observes ready when `FIN0 = 1`, and a `WAIT_READY` before any command times out
when `FIN0 = 0`. Says nothing of the hardware (R132). -/
def Obligations.ReferenceDeviceStartsAsGiven : Prop :=
  ∀ p : RefParams,
    p.initial.toRefParams = p ∧ p.initial.fin = p.fin0 ∧ p.initial.fdv = p.fdv0 ∧ p.initial.n = 0 ∧
    p.initial.cnt = some 0 ∧ p.initial.cmd = 0 ∧ p.initial.data = p.data0 ∧
    ∀ s, s.phase = .idle → s.bus = .reference p.initial → p.fails = [] →
      (p.fin0 = 1 → 0 < s.params.nPoll → ∃ t, exec (.waitReady p.base) s = .next t ∧
        t.returned = some ⟨.count s.params.nPoll, .ok⟩) ∧
      (p.fin0 = 0 → ∃ t, exec (.waitReady p.base) s = .next t ∧ t.returned = some ⟨.count 0, .timeout⟩)

/-- R133, R134: the reference device's answer to bus event number `ev` and what it leaves of the device. A failing
event changes nothing. A command word at `MDIO_RWCTRL` is taken, a read of `MDIO_RWCTRL` makes one device step before
its answer, the other three registers and the strap register are read as they stand, and any other address answers
`(0, false)`. Says nothing of the hardware (R132). (That a write at any address but `MDIO_RWCTRL`, one defined for
reads too, answers `ok = false` is the model's choice, log 16.) -/
def Obligations.ReferenceDeviceReacts : Prop :=
  ∀ (d : RefDevice) (p : Params) (ev : Nat),
    let bus := Bus.reference d
    (ev ∈ d.fails → ∀ acc, bus.answer p ev acc = (⟨0, false, false⟩, bus)) ∧
    (ev ∉ d.fails →
      (∀ w : Word, ∃ a, a.ok = true ∧ bus.answer p ev (.wr (d.base + 0x1100) w) = (a, .reference
        (if w.getLsbD 13 = true then { d with fdv := w.extractLsb' 5 3 }
         else { d with fdv := w.extractLsb' 5 3, n := d.n + 1, fin := 0, cnt := d.latency (d.n + 1), cmd := w }))) ∧
      (∀ addr w, addr ≠ d.base + 0x1100 → bus.answer p ev (.wr addr w) = (⟨0, false, false⟩, bus)) ∧
      (∃ (a : Answer) (d' : RefDevice), bus.answer p ev (.rd (d.base + 0x1100)) = (a, .reference d') ∧
        a.ok = true ∧ a.word.toNat = d'.fin.toNat * 2 ^ 15 + d'.fdv.toNat * 2 ^ 5 ∧
        ((d.fin ≠ 0 ∨ d.n = 0 ∨ d.cnt = none) → d' = d) ∧
        (d.fin = 0 → 1 ≤ d.n →
          (∀ k, d.cnt = some (k + 1) → d' = { d with cnt := some k }) ∧
          (d.cnt = some 0 → d' = { d with
            fin := 1
            data := if p.addrAssign = .exIsPhy then d.phyRegister (d.cmd.extractLsb' 8 5) (d.cmd.extractLsb' 0 5)
              else d.phyRegister (d.cmd.extractLsb' 0 5) (d.cmd.extractLsb' 8 5) }))) ∧
      bus.answer p ev (.rd (d.base + 0x1104)) = (⟨d.data.setWidth 32, true, true⟩, bus) ∧
      bus.answer p ev (.rd (d.base + 0x0108)) = (⟨d.uVal, true, true⟩, bus) ∧
      bus.answer p ev (.rd (d.base + 0x2108)) = (⟨d.dVal, true, true⟩, bus) ∧
      (∀ addr, addr ≠ d.base + 0x1100 → addr ≠ d.base + 0x1104 → addr ≠ d.base + 0x0108 → addr ≠ d.base + 0x2108 →
        (d.strapAddr = some addr → bus.answer p ev (.rd addr) = (⟨d.strapWord, true, true⟩, bus)) ∧
        (d.strapAddr ≠ some addr → bus.answer p ev (.rd addr) = (⟨0, false, false⟩, bus))))
end

