-- ==== Sys2Proof/Laws/Decode.lean ====
section
/-! SUPPORT. The small lemmas of the codec and of the decoder. -/

namespace Sys2Proof

/-- The fields of a composed word are the operands masked to their widths (R68: the fields do not overlap). -/
theorem wordFields_composeWord (d f r rw ex fd inn : Word) :
    wordFields (composeWord d f r rw ex fd inn) =
      ⟨d.setWidth 16, f.setWidth 1, r.setWidth 1, rw.setWidth 1, ex.setWidth 5, fd.setWidth 3, inn.setWidth 5⟩ := by
  simp only [wordFields, composeWord, FieldSpec.place, FieldSpec.get, FieldSpec.mask, ctrlCpuDataIn, ctrlFinish,
    ctrlReserved, ctrlRw, ctrlPhyExaddr, ctrlFrqDv, ctrlPhyInaddr, CtrlFields.mk.injEq]
  refine ⟨?_, ?_, ?_, ?_, ?_, ?_, ?_⟩ <;> (ext i hi; interval_cases i <;> simp)

/-- The fields of a word as bit ranges (R68). -/
theorem wordFields_extract (w : Word) : wordFields w = ⟨w.extractLsb' 16 16, w.extractLsb' 15 1, w.extractLsb' 14 1,
    w.extractLsb' 13 1, w.extractLsb' 8 5, w.extractLsb' 5 3, w.extractLsb' 0 5⟩ := by
  simp only [wordFields, FieldSpec.get, FieldSpec.mask, ctrlCpuDataIn, ctrlFinish, ctrlReserved, ctrlRw, ctrlPhyExaddr,
    ctrlFrqDv, ctrlPhyInaddr, CtrlFields.mk.injEq]
  refine ⟨?_, ?_, ?_, ?_, ?_, ?_, ?_⟩ <;> (ext i hi; interval_cases i <;> simp)

/-- The fields of a word are the fields it was made of. -/
theorem wordFields_fieldsWord (f : CtrlFields) : wordFields (fieldsWord f) = f := by
  rw [fieldsWord, wordFields_composeWord]
  simp

/-- A word's value is the sum of its fields at their places (R68: the fields cover all 32 bits). -/
theorem toNat_eq_fields (w : Word) : w.toNat = (wordFields w).cpuDataIn.toNat * 2 ^ 16 + (wordFields w).finish.toNat * 2 ^ 15
    + (wordFields w).reserved.toNat * 2 ^ 14 + (wordFields w).rw.toNat * 2 ^ 13 + (wordFields w).phyExaddr.toNat * 2 ^ 8
    + (wordFields w).frqDv.toNat * 2 ^ 5 + (wordFields w).phyInaddr.toNat := by
  have h : w.toNat < 2 ^ 32 := w.isLt
  simp only [wordFields_extract, BitVec.extractLsb'_toNat, Nat.shiftRight_eq_div_pow]
  omega

/-- Two words with the same fields are the same word. -/
theorem wordFields_injective {w w' : Word} (h : wordFields w = wordFields w') : w = w' := by
  apply BitVec.eq_of_toNat_eq
  rw [toNat_eq_fields w, toNat_eq_fields w', h]

/-- Every word is the word of its fields. -/
theorem fieldsWord_wordFields (w : Word) : fieldsWord (wordFields w) = w :=
  wordFields_injective (wordFields_fieldsWord _)

/-- The class `MDIO_CMD_READ` in terms of the fields (R70). -/
theorem isReadCommand_iff (w : Word) : isReadCommand w = true ↔ (wordFields w).cpuDataIn = 0 ∧ (wordFields w).finish = 0 ∧
    (wordFields w).reserved = 0 ∧ (wordFields w).rw = 0 := by
  have e : w &&& 0xFFFFE000#32 = 0#32 ↔ w >>> 13 = 0#32 := by
    constructor
    · intro h
      ext i hi
      have := congrArg (fun x : Word => x.getLsbD (13 + i)) h
      rw [BitVec.getElem_ushiftRight]
      by_cases hlt : i < 19
      · interval_cases i <;> simpa using this
      · simpa using BitVec.getLsbD_of_ge w (13 + i) (by omega)
    · intro h
      ext i hi
      by_cases hlt : i < 13
      · interval_cases i <;> simp
      · have := congrArg (fun x : Word => x.getLsbD (i - 13)) h
        have h2 : 13 + (i - 13) = i := by omega
        simp only [BitVec.getLsbD_ushiftRight, h2, BitVec.getLsbD_zero] at this
        rw [BitVec.getElem_and, ← BitVec.getLsbD_eq_getElem, this]
        simp
  have hlt : w.toNat < 2 ^ 32 := w.isLt
  simp only [isReadCommand, beq_iff_eq, e, wordFields_extract, ← BitVec.toNat_inj, BitVec.toNat_ushiftRight,
    BitVec.extractLsb'_toNat, Nat.shiftRight_eq_div_pow, BitVec.ofNat_eq_ofNat, BitVec.toNat_ofNat]
  norm_num
  omega

/-- The class `MDIO_CMD_WRITE` in terms of the fields (R70). -/
theorem isWriteCommand_iff (w : Word) : isWriteCommand w = true ↔ (wordFields w).rw = 1 := by
  have e : w &&& 0x2000#32 = 0x2000#32 ↔ w.getLsbD 13 = true := by
    constructor
    · intro h
      have := congrArg (fun x : Word => x.getLsbD 13) h
      simpa using this
    · intro h
      ext i hi
      interval_cases i <;> simp
      simpa using h
  have h1 : (wordFields w).rw = BitVec.ofBool (w.getLsbD 13) := by
    rw [wordFields_extract]; ext i hi; interval_cases i; simp
  rw [isWriteCommand, beq_iff_eq, e, h1]
  cases w.getLsbD 13 <;> simp

/-- The decoder's command words are the two classes of R70. -/
theorem decodeCommand_cases (w : Word) :
    (isWriteCommand w = true ∧ decodeCommand w = .instr (.mdioCmdWrite (wordFields w).cpuDataIn (wordFields w).finish
      (wordFields w).reserved (wordFields w).phyExaddr (wordFields w).frqDv (wordFields w).phyInaddr)) ∨
    (isWriteCommand w = false ∧ isReadCommand w = true ∧ decodeCommand w =
      .instr (.mdioCmdRead (wordFields w).phyExaddr (wordFields w).frqDv (wordFields w).phyInaddr)) ∨
    (isWriteCommand w = false ∧ isReadCommand w = false ∧ decodeCommand w = .readClass w) := by
  unfold decodeCommand isWriteCommand isReadCommand
  by_cases h1 : w &&& 0x2000#32 = 0x2000#32
  · exact .inl (by simp [h1])
  · by_cases h2 : w &&& 0xFFFFE000#32 = 0#32
    · exact .inr (.inl (by simp [h1, h2]))
    · exact .inr (.inr (by simp [h1, h2]))

/-- A header with its upper 28 bits zero is its own low nibble. -/
theorem header_eq {h : Word} (h0 : h >>> 4 = 0#32) : h = BitVec.ofNat 32 (h &&& 0xF#32).toNat := by
  apply BitVec.eq_of_toNat_eq
  have := congrArg BitVec.toNat h0
  have hlt : h.toNat < 2 ^ 32 := h.isLt
  simp only [BitVec.toNat_ushiftRight, Nat.shiftRight_eq_div_pow, BitVec.toNat_and, BitVec.toNat_ofNat] at *
  rw [show 15 % 2 ^ 32 = 2 ^ 4 - 1 by norm_num, Nat.and_two_pow_sub_one_eq_mod]
  omega

end Sys2Proof
end

