-- ==== Sys2Proof/Laws/State.lean ====
section
/-! SUPPORT. One lemma per field per update of the state, true by definition, so that no later proof unfolds a record
update. -/

namespace Sys2Proof.Machine

variable (s : State)

/-! ### `afterAccess` -/

@[simp] theorem afterAccess_phase (acc : Access) : (afterAccess acc s).phase = s.phase := rfl
@[simp] theorem afterAccess_cnt (acc : Access) : (afterAccess acc s).cnt = s.cnt := rfl
@[simp] theorem afterAccess_base (acc : Access) : (afterAccess acc s).base = s.base := rfl
@[simp] theorem afterAccess_fdiv (acc : Access) : (afterAccess acc s).fdiv = s.fdiv := rfl
@[simp] theorem afterAccess_paddr (acc : Access) : (afterAccess acc s).paddr = s.paddr := rfl
@[simp] theorem afterAccess_rnum (acc : Access) : (afterAccess acc s).rnum = s.rnum := rfl
@[simp] theorem afterAccess_result (acc : Access) : (afterAccess acc s).result = s.result := rfl
@[simp] theorem afterAccess_status (acc : Access) : (afterAccess acc s).status = s.status := rfl
@[simp] theorem afterAccess_diag (acc : Access) : (afterAccess acc s).diag = s.diag := rfl
@[simp] theorem afterAccess_trace (acc : Access) : (afterAccess acc s).trace = s.trace ++ [eventOf acc (busAnswer acc s)] := rfl
@[simp] theorem afterAccess_out (acc : Access) : (afterAccess acc s).out = s.out := rfl
@[simp] theorem afterAccess_stage (acc : Access) : (afterAccess acc s).stage = s.stage := rfl
@[simp] theorem afterAccess_cntValued (acc : Access) : (afterAccess acc s).cntValued = s.cntValued := rfl
@[simp] theorem afterAccess_latchesValued (acc : Access) : (afterAccess acc s).latchesValued = s.latchesValued := rfl
@[simp] theorem afterAccess_resultValued (acc : Access) : (afterAccess acc s).resultValued = s.resultValued := rfl
@[simp] theorem afterAccess_cycles (acc : Access) : (afterAccess acc s).cycles = s.cycles := rfl
@[simp] theorem afterAccess_inbox (acc : Access) : (afterAccess acc s).inbox = s.inbox := rfl
@[simp] theorem afterAccess_returned (acc : Access) : (afterAccess acc s).returned = s.returned := rfl
@[simp] theorem afterAccess_bus (acc : Access) : (afterAccess acc s).bus = (s.bus.answer s.params (s.trace.length + 1) acc).2 := rfl
@[simp] theorem afterAccess_sleeps (acc : Access) : (afterAccess acc s).sleeps = s.sleeps := rfl
@[simp] theorem afterAccess_params (acc : Access) : (afterAccess acc s).params = s.params := rfl

/-! ### `afterRead` -/

@[simp] theorem afterRead_phase (addr : Word) : (afterRead addr s).phase = s.phase := rfl
@[simp] theorem afterRead_cnt (addr : Word) : (afterRead addr s).cnt = s.cnt := rfl
@[simp] theorem afterRead_base (addr : Word) : (afterRead addr s).base = s.base := rfl
@[simp] theorem afterRead_fdiv (addr : Word) : (afterRead addr s).fdiv = s.fdiv := rfl
@[simp] theorem afterRead_paddr (addr : Word) : (afterRead addr s).paddr = s.paddr := rfl
@[simp] theorem afterRead_rnum (addr : Word) : (afterRead addr s).rnum = s.rnum := rfl
@[simp] theorem afterRead_result (addr : Word) : (afterRead addr s).result = s.result := rfl
@[simp] theorem afterRead_status (addr : Word) : (afterRead addr s).status = s.status := rfl
@[simp] theorem afterRead_diag (addr : Word) : (afterRead addr s).diag = s.diag := rfl
@[simp] theorem afterRead_trace (addr : Word) : (afterRead addr s).trace = s.trace ++ [.rd addr (readAns addr s).word (readAns addr s).ok] := rfl
@[simp] theorem afterRead_out (addr : Word) : (afterRead addr s).out = s.out := rfl
@[simp] theorem afterRead_stage (addr : Word) : (afterRead addr s).stage = s.stage := rfl
@[simp] theorem afterRead_cntValued (addr : Word) : (afterRead addr s).cntValued = s.cntValued := rfl
@[simp] theorem afterRead_latchesValued (addr : Word) : (afterRead addr s).latchesValued = s.latchesValued := rfl
@[simp] theorem afterRead_resultValued (addr : Word) : (afterRead addr s).resultValued = s.resultValued := rfl
@[simp] theorem afterRead_cycles (addr : Word) : (afterRead addr s).cycles = s.cycles := rfl
@[simp] theorem afterRead_inbox (addr : Word) : (afterRead addr s).inbox = s.inbox := rfl
@[simp] theorem afterRead_returned (addr : Word) : (afterRead addr s).returned = s.returned := rfl
@[simp] theorem afterRead_bus (addr : Word) : (afterRead addr s).bus = (s.bus.answer s.params (s.trace.length + 1) (.rd addr)).2 := rfl
@[simp] theorem afterRead_sleeps (addr : Word) : (afterRead addr s).sleeps = s.sleeps := rfl
@[simp] theorem afterRead_params (addr : Word) : (afterRead addr s).params = s.params := rfl

/-! ### `startCycle` -/

@[simp] theorem startCycle_phase (w : Word) : (startCycle w s).phase = s.phase := rfl
@[simp] theorem startCycle_cnt (w : Word) : (startCycle w s).cnt = s.cnt := rfl
@[simp] theorem startCycle_base (w : Word) : (startCycle w s).base = s.base := rfl
@[simp] theorem startCycle_fdiv (w : Word) : (startCycle w s).fdiv = s.fdiv := rfl
@[simp] theorem startCycle_paddr (w : Word) : (startCycle w s).paddr = s.paddr := rfl
@[simp] theorem startCycle_rnum (w : Word) : (startCycle w s).rnum = s.rnum := rfl
@[simp] theorem startCycle_result (w : Word) : (startCycle w s).result = s.result := rfl
@[simp] theorem startCycle_status (w : Word) : (startCycle w s).status = s.status := rfl
@[simp] theorem startCycle_diag (w : Word) : (startCycle w s).diag = s.diag := rfl
@[simp] theorem startCycle_trace (w : Word) : (startCycle w s).trace = s.trace := rfl
@[simp] theorem startCycle_out (w : Word) : (startCycle w s).out = s.out := rfl
@[simp] theorem startCycle_stage (w : Word) : (startCycle w s).stage = s.stage := rfl
@[simp] theorem startCycle_cntValued (w : Word) : (startCycle w s).cntValued = s.cntValued := rfl
@[simp] theorem startCycle_latchesValued (w : Word) : (startCycle w s).latchesValued = s.latchesValued := rfl
@[simp] theorem startCycle_resultValued (w : Word) : (startCycle w s).resultValued = s.resultValued := rfl
@[simp] theorem startCycle_cycles (w : Word) : (startCycle w s).cycles = s.cycles ++ [cycleOf s.params w] := rfl
@[simp] theorem startCycle_inbox (w : Word) : (startCycle w s).inbox = s.inbox := rfl
@[simp] theorem startCycle_returned (w : Word) : (startCycle w s).returned = s.returned := rfl
@[simp] theorem startCycle_bus (w : Word) : (startCycle w s).bus = s.bus := rfl
@[simp] theorem startCycle_sleeps (w : Word) : (startCycle w s).sleeps = s.sleeps := rfl
@[simp] theorem startCycle_params (w : Word) : (startCycle w s).params = s.params := rfl

/-! ### `emitDiag` -/

@[simp] theorem emitDiag_phase (d : Diag) : (emitDiag d s).phase = s.phase := rfl
@[simp] theorem emitDiag_cnt (d : Diag) : (emitDiag d s).cnt = s.cnt := rfl
@[simp] theorem emitDiag_base (d : Diag) : (emitDiag d s).base = s.base := rfl
@[simp] theorem emitDiag_fdiv (d : Diag) : (emitDiag d s).fdiv = s.fdiv := rfl
@[simp] theorem emitDiag_paddr (d : Diag) : (emitDiag d s).paddr = s.paddr := rfl
@[simp] theorem emitDiag_rnum (d : Diag) : (emitDiag d s).rnum = s.rnum := rfl
@[simp] theorem emitDiag_result (d : Diag) : (emitDiag d s).result = s.result := rfl
@[simp] theorem emitDiag_status (d : Diag) : (emitDiag d s).status = s.status := rfl
@[simp] theorem emitDiag_diag (d : Diag) : (emitDiag d s).diag = s.diag ++ [d] := rfl
@[simp] theorem emitDiag_trace (d : Diag) : (emitDiag d s).trace = s.trace := rfl
@[simp] theorem emitDiag_out (d : Diag) : (emitDiag d s).out = s.out := rfl
@[simp] theorem emitDiag_stage (d : Diag) : (emitDiag d s).stage = s.stage := rfl
@[simp] theorem emitDiag_cntValued (d : Diag) : (emitDiag d s).cntValued = s.cntValued := rfl
@[simp] theorem emitDiag_latchesValued (d : Diag) : (emitDiag d s).latchesValued = s.latchesValued := rfl
@[simp] theorem emitDiag_resultValued (d : Diag) : (emitDiag d s).resultValued = s.resultValued := rfl
@[simp] theorem emitDiag_cycles (d : Diag) : (emitDiag d s).cycles = s.cycles := rfl
@[simp] theorem emitDiag_inbox (d : Diag) : (emitDiag d s).inbox = s.inbox := rfl
@[simp] theorem emitDiag_returned (d : Diag) : (emitDiag d s).returned = s.returned := rfl
@[simp] theorem emitDiag_bus (d : Diag) : (emitDiag d s).bus = s.bus := rfl
@[simp] theorem emitDiag_sleeps (d : Diag) : (emitDiag d s).sleeps = s.sleeps := rfl
@[simp] theorem emitDiag_params (d : Diag) : (emitDiag d s).params = s.params := rfl

/-! ### `finishOp` -/

@[simp] theorem finishOp_phase (v : Value) (st : Status) : (finishOp v st s).phase = s.phase := rfl
@[simp] theorem finishOp_cnt (v : Value) (st : Status) : (finishOp v st s).cnt = s.cnt := rfl
@[simp] theorem finishOp_base (v : Value) (st : Status) : (finishOp v st s).base = s.base := rfl
@[simp] theorem finishOp_fdiv (v : Value) (st : Status) : (finishOp v st s).fdiv = s.fdiv := rfl
@[simp] theorem finishOp_paddr (v : Value) (st : Status) : (finishOp v st s).paddr = s.paddr := rfl
@[simp] theorem finishOp_rnum (v : Value) (st : Status) : (finishOp v st s).rnum = s.rnum := rfl
@[simp] theorem finishOp_result (v : Value) (st : Status) : (finishOp v st s).result = s.result := rfl
@[simp] theorem finishOp_status (v : Value) (st : Status) : (finishOp v st s).status = st := rfl
@[simp] theorem finishOp_diag (v : Value) (st : Status) : (finishOp v st s).diag = s.diag := rfl
@[simp] theorem finishOp_trace (v : Value) (st : Status) : (finishOp v st s).trace = s.trace := rfl
@[simp] theorem finishOp_out (v : Value) (st : Status) : (finishOp v st s).out = s.out := rfl
@[simp] theorem finishOp_stage (v : Value) (st : Status) : (finishOp v st s).stage = s.stage := rfl
@[simp] theorem finishOp_cntValued (v : Value) (st : Status) : (finishOp v st s).cntValued = s.cntValued := rfl
@[simp] theorem finishOp_latchesValued (v : Value) (st : Status) : (finishOp v st s).latchesValued = s.latchesValued := rfl
@[simp] theorem finishOp_resultValued (v : Value) (st : Status) : (finishOp v st s).resultValued = s.resultValued := rfl
@[simp] theorem finishOp_cycles (v : Value) (st : Status) : (finishOp v st s).cycles = s.cycles := rfl
@[simp] theorem finishOp_inbox (v : Value) (st : Status) : (finishOp v st s).inbox = s.inbox := rfl
@[simp] theorem finishOp_returned (v : Value) (st : Status) : (finishOp v st s).returned = some ⟨v, st⟩ := rfl
@[simp] theorem finishOp_bus (v : Value) (st : Status) : (finishOp v st s).bus = s.bus := rfl
@[simp] theorem finishOp_sleeps (v : Value) (st : Status) : (finishOp v st s).sleeps = s.sleeps := rfl
@[simp] theorem finishOp_params (v : Value) (st : Status) : (finishOp v st s).params = s.params := rfl

/-! ### `setResult` -/

@[simp] theorem setResult_phase (v : BitVec 16) : (setResult v s).phase = s.phase := rfl
@[simp] theorem setResult_cnt (v : BitVec 16) : (setResult v s).cnt = s.cnt := rfl
@[simp] theorem setResult_base (v : BitVec 16) : (setResult v s).base = s.base := rfl
@[simp] theorem setResult_fdiv (v : BitVec 16) : (setResult v s).fdiv = s.fdiv := rfl
@[simp] theorem setResult_paddr (v : BitVec 16) : (setResult v s).paddr = s.paddr := rfl
@[simp] theorem setResult_rnum (v : BitVec 16) : (setResult v s).rnum = s.rnum := rfl
@[simp] theorem setResult_result (v : BitVec 16) : (setResult v s).result = v := rfl
@[simp] theorem setResult_status (v : BitVec 16) : (setResult v s).status = s.status := rfl
@[simp] theorem setResult_diag (v : BitVec 16) : (setResult v s).diag = s.diag := rfl
@[simp] theorem setResult_trace (v : BitVec 16) : (setResult v s).trace = s.trace := rfl
@[simp] theorem setResult_out (v : BitVec 16) : (setResult v s).out = s.out := rfl
@[simp] theorem setResult_stage (v : BitVec 16) : (setResult v s).stage = s.stage := rfl
@[simp] theorem setResult_cntValued (v : BitVec 16) : (setResult v s).cntValued = s.cntValued := rfl
@[simp] theorem setResult_latchesValued (v : BitVec 16) : (setResult v s).latchesValued = s.latchesValued := rfl
@[simp] theorem setResult_resultValued (v : BitVec 16) : (setResult v s).resultValued = true := rfl
@[simp] theorem setResult_cycles (v : BitVec 16) : (setResult v s).cycles = s.cycles := rfl
@[simp] theorem setResult_inbox (v : BitVec 16) : (setResult v s).inbox = s.inbox := rfl
@[simp] theorem setResult_returned (v : BitVec 16) : (setResult v s).returned = s.returned := rfl
@[simp] theorem setResult_bus (v : BitVec 16) : (setResult v s).bus = s.bus := rfl
@[simp] theorem setResult_sleeps (v : BitVec 16) : (setResult v s).sleeps = s.sleeps := rfl
@[simp] theorem setResult_params (v : BitVec 16) : (setResult v s).params = s.params := rfl

/-! ### `failTransaction` -/

@[simp] theorem failTransaction_phase (st : Status) : (failTransaction st s).phase = .failed := rfl
@[simp] theorem failTransaction_cnt (st : Status) : (failTransaction st s).cnt = s.cnt := rfl
@[simp] theorem failTransaction_base (st : Status) : (failTransaction st s).base = s.base := rfl
@[simp] theorem failTransaction_fdiv (st : Status) : (failTransaction st s).fdiv = s.fdiv := rfl
@[simp] theorem failTransaction_paddr (st : Status) : (failTransaction st s).paddr = s.paddr := rfl
@[simp] theorem failTransaction_rnum (st : Status) : (failTransaction st s).rnum = s.rnum := rfl
@[simp] theorem failTransaction_result (st : Status) : (failTransaction st s).result = 0 := rfl
@[simp] theorem failTransaction_status (st : Status) : (failTransaction st s).status = st := rfl
@[simp] theorem failTransaction_diag (st : Status) : (failTransaction st s).diag = s.diag := rfl
@[simp] theorem failTransaction_trace (st : Status) : (failTransaction st s).trace = s.trace := rfl
@[simp] theorem failTransaction_out (st : Status) : (failTransaction st s).out = s.out := rfl
@[simp] theorem failTransaction_stage (st : Status) : (failTransaction st s).stage = s.stage := rfl
@[simp] theorem failTransaction_cntValued (st : Status) : (failTransaction st s).cntValued = s.cntValued := rfl
@[simp] theorem failTransaction_latchesValued (st : Status) : (failTransaction st s).latchesValued = s.latchesValued := rfl
@[simp] theorem failTransaction_resultValued (st : Status) : (failTransaction st s).resultValued = true := rfl
@[simp] theorem failTransaction_cycles (st : Status) : (failTransaction st s).cycles = s.cycles := rfl
@[simp] theorem failTransaction_inbox (st : Status) : (failTransaction st s).inbox = s.inbox := rfl
@[simp] theorem failTransaction_returned (st : Status) : (failTransaction st s).returned = s.returned := rfl
@[simp] theorem failTransaction_bus (st : Status) : (failTransaction st s).bus = s.bus := rfl
@[simp] theorem failTransaction_sleeps (st : Status) : (failTransaction st s).sleeps = s.sleeps := rfl
@[simp] theorem failTransaction_params (st : Status) : (failTransaction st s).params = s.params := rfl

/-! ### `leaveFailed` -/

@[simp] theorem leaveFailed_phase : (leaveFailed s).phase = .idle := rfl
@[simp] theorem leaveFailed_cnt : (leaveFailed s).cnt = s.cnt := rfl
@[simp] theorem leaveFailed_base : (leaveFailed s).base = s.base := rfl
@[simp] theorem leaveFailed_fdiv : (leaveFailed s).fdiv = s.fdiv := rfl
@[simp] theorem leaveFailed_paddr : (leaveFailed s).paddr = s.paddr := rfl
@[simp] theorem leaveFailed_rnum : (leaveFailed s).rnum = s.rnum := rfl
@[simp] theorem leaveFailed_result : (leaveFailed s).result = s.result := rfl
@[simp] theorem leaveFailed_status : (leaveFailed s).status = s.status := rfl
@[simp] theorem leaveFailed_diag : (leaveFailed s).diag = s.diag := rfl
@[simp] theorem leaveFailed_trace : (leaveFailed s).trace = s.trace := rfl
@[simp] theorem leaveFailed_out : (leaveFailed s).out = s.out := rfl
@[simp] theorem leaveFailed_stage : (leaveFailed s).stage = s.stage := rfl
@[simp] theorem leaveFailed_cntValued : (leaveFailed s).cntValued = s.cntValued := rfl
@[simp] theorem leaveFailed_latchesValued : (leaveFailed s).latchesValued = s.latchesValued := rfl
@[simp] theorem leaveFailed_resultValued : (leaveFailed s).resultValued = s.resultValued := rfl
@[simp] theorem leaveFailed_cycles : (leaveFailed s).cycles = s.cycles := rfl
@[simp] theorem leaveFailed_inbox : (leaveFailed s).inbox = s.inbox := rfl
@[simp] theorem leaveFailed_returned : (leaveFailed s).returned = some ⟨.value 0, s.status⟩ := rfl
@[simp] theorem leaveFailed_bus : (leaveFailed s).bus = s.bus := rfl
@[simp] theorem leaveFailed_sleeps : (leaveFailed s).sleeps = s.sleeps := rfl
@[simp] theorem leaveFailed_params : (leaveFailed s).params = s.params := rfl

/-! ### `loadCount` -/

@[simp] theorem loadCount_phase : (loadCount s).phase = s.phase := rfl
@[simp] theorem loadCount_cnt : (loadCount s).cnt = s.params.nPoll := rfl
@[simp] theorem loadCount_base : (loadCount s).base = s.base := rfl
@[simp] theorem loadCount_fdiv : (loadCount s).fdiv = s.fdiv := rfl
@[simp] theorem loadCount_paddr : (loadCount s).paddr = s.paddr := rfl
@[simp] theorem loadCount_rnum : (loadCount s).rnum = s.rnum := rfl
@[simp] theorem loadCount_result : (loadCount s).result = s.result := rfl
@[simp] theorem loadCount_status : (loadCount s).status = s.status := rfl
@[simp] theorem loadCount_diag : (loadCount s).diag = s.diag := rfl
@[simp] theorem loadCount_trace : (loadCount s).trace = s.trace := rfl
@[simp] theorem loadCount_out : (loadCount s).out = s.out := rfl
@[simp] theorem loadCount_stage : (loadCount s).stage = s.stage := rfl
@[simp] theorem loadCount_cntValued : (loadCount s).cntValued = true := rfl
@[simp] theorem loadCount_latchesValued : (loadCount s).latchesValued = s.latchesValued := rfl
@[simp] theorem loadCount_resultValued : (loadCount s).resultValued = s.resultValued := rfl
@[simp] theorem loadCount_cycles : (loadCount s).cycles = s.cycles := rfl
@[simp] theorem loadCount_inbox : (loadCount s).inbox = s.inbox := rfl
@[simp] theorem loadCount_returned : (loadCount s).returned = s.returned := rfl
@[simp] theorem loadCount_bus : (loadCount s).bus = s.bus := rfl
@[simp] theorem loadCount_sleeps : (loadCount s).sleeps = s.sleeps := rfl
@[simp] theorem loadCount_params : (loadCount s).params = s.params := rfl

/-! ### `failedPoll` -/

@[simp] theorem failedPoll_phase : (failedPoll s).phase = s.phase := rfl
@[simp] theorem failedPoll_cnt : (failedPoll s).cnt = s.cnt - 1 := rfl
@[simp] theorem failedPoll_base : (failedPoll s).base = s.base := rfl
@[simp] theorem failedPoll_fdiv : (failedPoll s).fdiv = s.fdiv := rfl
@[simp] theorem failedPoll_paddr : (failedPoll s).paddr = s.paddr := rfl
@[simp] theorem failedPoll_rnum : (failedPoll s).rnum = s.rnum := rfl
@[simp] theorem failedPoll_result : (failedPoll s).result = s.result := rfl
@[simp] theorem failedPoll_status : (failedPoll s).status = s.status := rfl
@[simp] theorem failedPoll_diag : (failedPoll s).diag = s.diag := rfl
@[simp] theorem failedPoll_trace : (failedPoll s).trace = s.trace := rfl
@[simp] theorem failedPoll_out : (failedPoll s).out = s.out := rfl
@[simp] theorem failedPoll_stage : (failedPoll s).stage = s.stage := rfl
@[simp] theorem failedPoll_cntValued : (failedPoll s).cntValued = s.cntValued := rfl
@[simp] theorem failedPoll_latchesValued : (failedPoll s).latchesValued = s.latchesValued := rfl
@[simp] theorem failedPoll_resultValued : (failedPoll s).resultValued = s.resultValued := rfl
@[simp] theorem failedPoll_cycles : (failedPoll s).cycles = s.cycles := rfl
@[simp] theorem failedPoll_inbox : (failedPoll s).inbox = s.inbox := rfl
@[simp] theorem failedPoll_returned : (failedPoll s).returned = s.returned := rfl
@[simp] theorem failedPoll_bus : (failedPoll s).bus = s.bus := rfl
@[simp] theorem failedPoll_sleeps : (failedPoll s).sleeps = if s.cnt - 1 = 0 then s.sleeps else s.sleeps + 1 := rfl
@[simp] theorem failedPoll_params : (failedPoll s).params = s.params := rfl

/-! ### `acceptRead` -/

@[simp] theorem acceptRead_phase (f p b r : Word) : (acceptRead f p b r s).phase = .waitReadyPre := rfl
@[simp] theorem acceptRead_cnt (f p b r : Word) : (acceptRead f p b r s).cnt = s.params.nPoll := rfl
@[simp] theorem acceptRead_base (f p b r : Word) : (acceptRead f p b r s).base = b := rfl
@[simp] theorem acceptRead_fdiv (f p b r : Word) : (acceptRead f p b r s).fdiv = narrowDiv f := rfl
@[simp] theorem acceptRead_paddr (f p b r : Word) : (acceptRead f p b r s).paddr = narrowAddr p := rfl
@[simp] theorem acceptRead_rnum (f p b r : Word) : (acceptRead f p b r s).rnum = narrowAddr r := rfl
@[simp] theorem acceptRead_result (f p b r : Word) : (acceptRead f p b r s).result = s.result := rfl
@[simp] theorem acceptRead_status (f p b r : Word) : (acceptRead f p b r s).status = s.status := rfl
@[simp] theorem acceptRead_diag (f p b r : Word) : (acceptRead f p b r s).diag = s.diag := rfl
@[simp] theorem acceptRead_trace (f p b r : Word) : (acceptRead f p b r s).trace = s.trace := rfl
@[simp] theorem acceptRead_out (f p b r : Word) : (acceptRead f p b r s).out = s.out := rfl
@[simp] theorem acceptRead_stage (f p b r : Word) : (acceptRead f p b r s).stage = s.stage := rfl
@[simp] theorem acceptRead_cntValued (f p b r : Word) : (acceptRead f p b r s).cntValued = true := rfl
@[simp] theorem acceptRead_latchesValued (f p b r : Word) : (acceptRead f p b r s).latchesValued = true := rfl
@[simp] theorem acceptRead_resultValued (f p b r : Word) : (acceptRead f p b r s).resultValued = s.resultValued := rfl
@[simp] theorem acceptRead_cycles (f p b r : Word) : (acceptRead f p b r s).cycles = s.cycles := rfl
@[simp] theorem acceptRead_inbox (f p b r : Word) : (acceptRead f p b r s).inbox = s.inbox := rfl
@[simp] theorem acceptRead_returned (f p b r : Word) : (acceptRead f p b r s).returned = s.returned := rfl
@[simp] theorem acceptRead_bus (f p b r : Word) : (acceptRead f p b r s).bus = s.bus := rfl
@[simp] theorem acceptRead_sleeps (f p b r : Word) : (acceptRead f p b r s).sleeps = s.sleeps := rfl
@[simp] theorem acceptRead_params (f p b r : Word) : (acceptRead f p b r s).params = s.params := rfl

/-! ### `stageEntry` -/

@[simp] theorem stageEntry_phase (e : OutEntry) : (stageEntry e s).phase = s.phase := rfl
@[simp] theorem stageEntry_cnt (e : OutEntry) : (stageEntry e s).cnt = s.cnt := rfl
@[simp] theorem stageEntry_base (e : OutEntry) : (stageEntry e s).base = s.base := rfl
@[simp] theorem stageEntry_fdiv (e : OutEntry) : (stageEntry e s).fdiv = s.fdiv := rfl
@[simp] theorem stageEntry_paddr (e : OutEntry) : (stageEntry e s).paddr = s.paddr := rfl
@[simp] theorem stageEntry_rnum (e : OutEntry) : (stageEntry e s).rnum = s.rnum := rfl
@[simp] theorem stageEntry_result (e : OutEntry) : (stageEntry e s).result = s.result := rfl
@[simp] theorem stageEntry_status (e : OutEntry) : (stageEntry e s).status = s.status := rfl
@[simp] theorem stageEntry_diag (e : OutEntry) : (stageEntry e s).diag = s.diag := rfl
@[simp] theorem stageEntry_trace (e : OutEntry) : (stageEntry e s).trace = s.trace := rfl
@[simp] theorem stageEntry_out (e : OutEntry) : (stageEntry e s).out = s.out := rfl
@[simp] theorem stageEntry_stage (e : OutEntry) : (stageEntry e s).stage = s.stage ++ [e] := rfl
@[simp] theorem stageEntry_cntValued (e : OutEntry) : (stageEntry e s).cntValued = s.cntValued := rfl
@[simp] theorem stageEntry_latchesValued (e : OutEntry) : (stageEntry e s).latchesValued = s.latchesValued := rfl
@[simp] theorem stageEntry_resultValued (e : OutEntry) : (stageEntry e s).resultValued = s.resultValued := rfl
@[simp] theorem stageEntry_cycles (e : OutEntry) : (stageEntry e s).cycles = s.cycles := rfl
@[simp] theorem stageEntry_inbox (e : OutEntry) : (stageEntry e s).inbox = s.inbox := rfl
@[simp] theorem stageEntry_returned (e : OutEntry) : (stageEntry e s).returned = s.returned := rfl
@[simp] theorem stageEntry_bus (e : OutEntry) : (stageEntry e s).bus = s.bus := rfl
@[simp] theorem stageEntry_sleeps (e : OutEntry) : (stageEntry e s).sleeps = s.sleeps := rfl
@[simp] theorem stageEntry_params (e : OutEntry) : (stageEntry e s).params = s.params := rfl

/-! ### `freshRecord` -/

@[simp] theorem freshRecord_phase : (freshRecord s).phase = s.phase := rfl
@[simp] theorem freshRecord_cnt : (freshRecord s).cnt = s.cnt := rfl
@[simp] theorem freshRecord_base : (freshRecord s).base = s.base := rfl
@[simp] theorem freshRecord_fdiv : (freshRecord s).fdiv = s.fdiv := rfl
@[simp] theorem freshRecord_paddr : (freshRecord s).paddr = s.paddr := rfl
@[simp] theorem freshRecord_rnum : (freshRecord s).rnum = s.rnum := rfl
@[simp] theorem freshRecord_result : (freshRecord s).result = s.result := rfl
@[simp] theorem freshRecord_status : (freshRecord s).status = s.status := rfl
@[simp] theorem freshRecord_diag : (freshRecord s).diag = s.diag := rfl
@[simp] theorem freshRecord_trace : (freshRecord s).trace = s.trace := rfl
@[simp] theorem freshRecord_out : (freshRecord s).out = [] := rfl
@[simp] theorem freshRecord_stage : (freshRecord s).stage = [] := rfl
@[simp] theorem freshRecord_cntValued : (freshRecord s).cntValued = s.cntValued := rfl
@[simp] theorem freshRecord_latchesValued : (freshRecord s).latchesValued = s.latchesValued := rfl
@[simp] theorem freshRecord_resultValued : (freshRecord s).resultValued = s.resultValued := rfl
@[simp] theorem freshRecord_cycles : (freshRecord s).cycles = s.cycles := rfl
@[simp] theorem freshRecord_inbox : (freshRecord s).inbox = s.inbox := rfl
@[simp] theorem freshRecord_returned : (freshRecord s).returned = s.returned := rfl
@[simp] theorem freshRecord_bus : (freshRecord s).bus = s.bus := rfl
@[simp] theorem freshRecord_sleeps : (freshRecord s).sleeps = s.sleeps := rfl
@[simp] theorem freshRecord_params : (freshRecord s).params = s.params := rfl

/-! ### `afterCommandWrite`: as the access, and the started cycle when the word reached the controller -/

@[simp] theorem afterCommandWrite_phase (addr w : Word) : (afterCommandWrite addr w s).phase = s.phase := by
  unfold afterCommandWrite; split <;> rfl
@[simp] theorem afterCommandWrite_cnt (addr w : Word) : (afterCommandWrite addr w s).cnt = s.cnt := by
  unfold afterCommandWrite; split <;> rfl
@[simp] theorem afterCommandWrite_base (addr w : Word) : (afterCommandWrite addr w s).base = s.base := by
  unfold afterCommandWrite; split <;> rfl
@[simp] theorem afterCommandWrite_fdiv (addr w : Word) : (afterCommandWrite addr w s).fdiv = s.fdiv := by
  unfold afterCommandWrite; split <;> rfl
@[simp] theorem afterCommandWrite_paddr (addr w : Word) : (afterCommandWrite addr w s).paddr = s.paddr := by
  unfold afterCommandWrite; split <;> rfl
@[simp] theorem afterCommandWrite_rnum (addr w : Word) : (afterCommandWrite addr w s).rnum = s.rnum := by
  unfold afterCommandWrite; split <;> rfl
@[simp] theorem afterCommandWrite_result (addr w : Word) : (afterCommandWrite addr w s).result = s.result := by
  unfold afterCommandWrite; split <;> rfl
@[simp] theorem afterCommandWrite_status (addr w : Word) : (afterCommandWrite addr w s).status = s.status := by
  unfold afterCommandWrite; split <;> rfl
@[simp] theorem afterCommandWrite_diag (addr w : Word) : (afterCommandWrite addr w s).diag = s.diag := by
  unfold afterCommandWrite; split <;> rfl
@[simp] theorem afterCommandWrite_trace (addr w : Word) : (afterCommandWrite addr w s).trace = s.trace ++ [.wr addr w (writeOk addr w s)] := by
  unfold afterCommandWrite; split <;> rfl
@[simp] theorem afterCommandWrite_out (addr w : Word) : (afterCommandWrite addr w s).out = s.out := by
  unfold afterCommandWrite; split <;> rfl
@[simp] theorem afterCommandWrite_stage (addr w : Word) : (afterCommandWrite addr w s).stage = s.stage := by
  unfold afterCommandWrite; split <;> rfl
@[simp] theorem afterCommandWrite_cntValued (addr w : Word) : (afterCommandWrite addr w s).cntValued = s.cntValued := by
  unfold afterCommandWrite; split <;> rfl
@[simp] theorem afterCommandWrite_latchesValued (addr w : Word) : (afterCommandWrite addr w s).latchesValued = s.latchesValued := by
  unfold afterCommandWrite; split <;> rfl
@[simp] theorem afterCommandWrite_resultValued (addr w : Word) : (afterCommandWrite addr w s).resultValued = s.resultValued := by
  unfold afterCommandWrite; split <;> rfl
theorem afterCommandWrite_cycles (addr w : Word) : (afterCommandWrite addr w s).cycles =
    if writeReached addr w s then s.cycles ++ [cycleOf s.params w] else s.cycles := by
  unfold afterCommandWrite; split <;> rfl
@[simp] theorem afterCommandWrite_inbox (addr w : Word) : (afterCommandWrite addr w s).inbox = s.inbox := by
  unfold afterCommandWrite; split <;> rfl
@[simp] theorem afterCommandWrite_returned (addr w : Word) : (afterCommandWrite addr w s).returned = s.returned := by
  unfold afterCommandWrite; split <;> rfl
@[simp] theorem afterCommandWrite_bus (addr w : Word) : (afterCommandWrite addr w s).bus = (s.bus.answer s.params (s.trace.length + 1) (.wr addr w)).2 := by
  unfold afterCommandWrite; split <;> rfl
@[simp] theorem afterCommandWrite_sleeps (addr w : Word) : (afterCommandWrite addr w s).sleeps = s.sleeps := by
  unfold afterCommandWrite; split <;> rfl
@[simp] theorem afterCommandWrite_params (addr w : Word) : (afterCommandWrite addr w s).params = s.params := by
  unfold afterCommandWrite; split <;> rfl

/-! ### `commitStage` -/

@[simp] theorem commitStage_phase (good : Bool) : (commitStage good s).phase = s.phase := by
  cases good <;> rfl
@[simp] theorem commitStage_cnt (good : Bool) : (commitStage good s).cnt = s.cnt := by
  cases good <;> rfl
@[simp] theorem commitStage_base (good : Bool) : (commitStage good s).base = s.base := by
  cases good <;> rfl
@[simp] theorem commitStage_fdiv (good : Bool) : (commitStage good s).fdiv = s.fdiv := by
  cases good <;> rfl
@[simp] theorem commitStage_paddr (good : Bool) : (commitStage good s).paddr = s.paddr := by
  cases good <;> rfl
@[simp] theorem commitStage_rnum (good : Bool) : (commitStage good s).rnum = s.rnum := by
  cases good <;> rfl
@[simp] theorem commitStage_result (good : Bool) : (commitStage good s).result = s.result := by
  cases good <;> rfl
@[simp] theorem commitStage_status (good : Bool) : (commitStage good s).status = s.status := by
  cases good <;> rfl
@[simp] theorem commitStage_diag (good : Bool) : (commitStage good s).diag = s.diag := by
  cases good <;> rfl
@[simp] theorem commitStage_trace (good : Bool) : (commitStage good s).trace = s.trace := by
  cases good <;> rfl
theorem commitStage_out (good : Bool) : (commitStage good s).out = if good then s.out ++ s.stage else s.out := by
  cases good <;> rfl
@[simp] theorem commitStage_stage (good : Bool) : (commitStage good s).stage = s.stage := by
  cases good <;> rfl
@[simp] theorem commitStage_cntValued (good : Bool) : (commitStage good s).cntValued = s.cntValued := by
  cases good <;> rfl
@[simp] theorem commitStage_latchesValued (good : Bool) : (commitStage good s).latchesValued = s.latchesValued := by
  cases good <;> rfl
@[simp] theorem commitStage_resultValued (good : Bool) : (commitStage good s).resultValued = s.resultValued := by
  cases good <;> rfl
@[simp] theorem commitStage_cycles (good : Bool) : (commitStage good s).cycles = s.cycles := by
  cases good <;> rfl
@[simp] theorem commitStage_inbox (good : Bool) : (commitStage good s).inbox = s.inbox := by
  cases good <;> rfl
@[simp] theorem commitStage_returned (good : Bool) : (commitStage good s).returned = s.returned := by
  cases good <;> rfl
@[simp] theorem commitStage_bus (good : Bool) : (commitStage good s).bus = s.bus := by
  cases good <;> rfl
@[simp] theorem commitStage_sleeps (good : Bool) : (commitStage good s).sleeps = s.sleeps := by
  cases good <;> rfl
@[simp] theorem commitStage_params (good : Bool) : (commitStage good s).params = s.params := by
  cases good <;> rfl

end Sys2Proof.Machine
end

