-- ==== Sys2Proof/Laws/Ops.lean ====
section
/-! SUPPORT. One lemma for each shared operation, saying once what it can do. -/

namespace Sys2Proof.Machine

/-! ## Bus accesses -/

/-- An answer depends on the primitive, the parameters and the number of events so far, and on nothing else. -/
theorem busAnswer_congr {s t : State} (acc : Access) (hb : s.bus = t.bus) (hp : s.params = t.params)
    (hl : s.trace.length = t.trace.length) : busAnswer acc s = busAnswer acc t := by
  unfold busAnswer; rw [hb, hp, hl]

theorem readAns_congr {s t : State} (addr : Word) (hb : s.bus = t.bus) (hp : s.params = t.params)
    (hl : s.trace.length = t.trace.length) : readAns addr s = readAns addr t :=
  busAnswer_congr _ hb hp hl

theorem writeOk_congr {s t : State} (addr w : Word) (hb : s.bus = t.bus) (hp : s.params = t.params)
    (hl : s.trace.length = t.trace.length) : writeOk addr w s = writeOk addr w t := by
  unfold writeOk; rw [busAnswer_congr _ hb hp hl]

theorem writeReached_congr {s t : State} (addr w : Word) (hb : s.bus = t.bus) (hp : s.params = t.params)
    (hl : s.trace.length = t.trace.length) : writeReached addr w s = writeReached addr w t := by
  unfold writeReached; rw [busAnswer_congr _ hb hp hl]

/-- A scripted answer is the answer given. -/
@[simp] theorem answer_scripted (a : Answer) (l : List Answer) (n : Nat) (p : Params) (ev : Nat) (acc : Access) :
    Bus.answer (.oracle (a :: l) n) p ev acc = (a, .oracle l (n + 1)) := rfl

/-- A write answered `ok = true` has reached the device (R64). -/
theorem writeReached_of_ok {addr w : Word} {s : State} (h : writeOk addr w s = true) : writeReached addr w s = true := by
  unfold writeOk at h; simp [writeReached, h]

/-! ## Acceptance -/

/-- An operation presented while `PHASE` is `Idle` runs; presented at any other time it is refused (R103). -/
theorem whenIdle_next {s t u : State} : whenIdle s t = .next u ↔ s.phase = .idle ∧ t = u := by
  unfold whenIdle; split <;> simp_all

theorem whenIdle_idle {s : State} (h : s.phase = .idle) (t : State) : whenIdle s t = .next t := by simp [whenIdle, h]

theorem whenIdle_busy {s : State} (h : s.phase ≠ .idle) (t : State) : whenIdle s t = .refused .operationWhileBusy := by
  simp [whenIdle, h]

/-! ## The host's reads -/

/-- A host read answers the contents exactly where the register has a value (R47). -/
theorem hostRead_ok {r : EngineReg} {s : State} {n : Nat} :
    hostRead r s = .ok n ↔ hasValue s r = true ∧ regContents s r = n := by
  unfold hostRead; split <;> simp_all

/-! ## The unconstrained primitive -/

/-- A scripted answer is given as it stands. -/
@[simp] theorem Bus.answer_script (a : Answer) (l : List Answer) (n : Nat) (p : Params) (ev : Nat) (acc : Access) :
    (Bus.oracle (a :: l) n).answer p ev acc = (a, .oracle l (n + 1)) := rfl

/-- After the script each answer is a draw of its own. -/
@[simp] theorem Bus.answer_draw (n : Nat) (p : Params) (ev : Nat) (acc : Access) :
    (Bus.oracle [] n).answer p ev acc = (Config.freeAnswer n acc, .oracle [] (n + 1)) := rfl

/-! ## The verdict on a poll -/

theorem pollVerdict_ready {p : Params} {a : Answer} : pollVerdict p a = .ready ↔ ReadyPoll a := by
  unfold pollVerdict ReadyPoll Answer.ready ready
  cases h : a.ok <;> cases h' : a.word.getLsbD 15 <;> simp <;> split <;> simp

theorem pollVerdict_abort {p : Params} {a : Answer} : pollVerdict p a = .abort ↔ AbortingPoll p a := by
  unfold pollVerdict AbortingPoll Answer.ready ready
  cases h : a.ok <;> cases h' : a.word.getLsbD 15 <;> simp

theorem pollVerdict_again {p : Params} {a : Answer} : pollVerdict p a = .again ↔ FailedPoll p a := by
  unfold FailedPoll
  rw [← pollVerdict_ready (p := p), ← pollVerdict_abort]
  cases pollVerdict p a <;> simp

/-- Every poll comes to exactly one of the three. -/
theorem poll_cases (p : Params) (a : Answer) : ReadyPoll a ∨ AbortingPoll p a ∨ FailedPoll p a := by
  unfold FailedPoll; tauto

/-! ## Repeated reads -/

/-- What `k` reads of one address leave: only the trace and the primitive move. -/
theorem afterReads_shape (addr : Word) (k : Nat) (s : State) :
    ∃ tr b, afterReads addr k s = { s with trace := s.trace ++ tr, bus := b } ∧ tr.length = k ∧
      ∀ e ∈ tr, ∃ v ok, e = .rd addr v ok := by
  induction k with
  | zero => exact ⟨[], s.bus, by simp [afterReads], rfl, by simp⟩
  | succ k ih =>
    obtain ⟨tr, b, he, hl, hm⟩ := ih
    refine ⟨tr ++ [.rd addr (readAns addr (afterReads addr k s)).word (readAns addr (afterReads addr k s)).ok],
      (afterReads addr (k + 1) s).bus, ?_, by simp [hl], ?_⟩
    · simp only [afterReads, afterRead, afterAccess, eventOf, readAns, he, List.append_assoc]
    · intro e h
      rcases List.mem_append.mp h with h | h
      · exact hm e h
      · exact ⟨_, _, List.mem_singleton.mp h⟩

/-- Reading first and then `k` times is reading `k + 1` times. -/
theorem afterReads_shift (addr : Word) (k : Nat) (s : State) :
    afterReads addr k (afterRead addr s) = afterReads addr (k + 1) s := by
  induction k with
  | zero => rfl
  | succ k ih => rw [afterReads, ih]; rfl

theorem pollAns_shift (addr : Word) (k : Nat) (s : State) : pollAns addr k (afterRead addr s) = pollAns addr (k + 1) s := by
  unfold pollAns; rw [afterReads_shift]

@[simp] theorem afterReads_phase (addr : Word) (k : Nat) (s : State) : (afterReads addr k s).phase = s.phase := by
  obtain ⟨tr, b, h, -⟩ := afterReads_shape addr k s; rw [h]

@[simp] theorem afterReads_cnt (addr : Word) (k : Nat) (s : State) : (afterReads addr k s).cnt = s.cnt := by
  obtain ⟨tr, b, h, -⟩ := afterReads_shape addr k s; rw [h]

@[simp] theorem afterReads_base (addr : Word) (k : Nat) (s : State) : (afterReads addr k s).base = s.base := by
  obtain ⟨tr, b, h, -⟩ := afterReads_shape addr k s; rw [h]

@[simp] theorem afterReads_fdiv (addr : Word) (k : Nat) (s : State) : (afterReads addr k s).fdiv = s.fdiv := by
  obtain ⟨tr, b, h, -⟩ := afterReads_shape addr k s; rw [h]

@[simp] theorem afterReads_paddr (addr : Word) (k : Nat) (s : State) : (afterReads addr k s).paddr = s.paddr := by
  obtain ⟨tr, b, h, -⟩ := afterReads_shape addr k s; rw [h]

@[simp] theorem afterReads_rnum (addr : Word) (k : Nat) (s : State) : (afterReads addr k s).rnum = s.rnum := by
  obtain ⟨tr, b, h, -⟩ := afterReads_shape addr k s; rw [h]

@[simp] theorem afterReads_result (addr : Word) (k : Nat) (s : State) : (afterReads addr k s).result = s.result := by
  obtain ⟨tr, b, h, -⟩ := afterReads_shape addr k s; rw [h]

@[simp] theorem afterReads_status (addr : Word) (k : Nat) (s : State) : (afterReads addr k s).status = s.status := by
  obtain ⟨tr, b, h, -⟩ := afterReads_shape addr k s; rw [h]

@[simp] theorem afterReads_diag (addr : Word) (k : Nat) (s : State) : (afterReads addr k s).diag = s.diag := by
  obtain ⟨tr, b, h, -⟩ := afterReads_shape addr k s; rw [h]

@[simp] theorem afterReads_out (addr : Word) (k : Nat) (s : State) : (afterReads addr k s).out = s.out := by
  obtain ⟨tr, b, h, -⟩ := afterReads_shape addr k s; rw [h]

@[simp] theorem afterReads_stage (addr : Word) (k : Nat) (s : State) : (afterReads addr k s).stage = s.stage := by
  obtain ⟨tr, b, h, -⟩ := afterReads_shape addr k s; rw [h]

@[simp] theorem afterReads_cntValued (addr : Word) (k : Nat) (s : State) : (afterReads addr k s).cntValued = s.cntValued := by
  obtain ⟨tr, b, h, -⟩ := afterReads_shape addr k s; rw [h]

@[simp] theorem afterReads_latchesValued (addr : Word) (k : Nat) (s : State) : (afterReads addr k s).latchesValued = s.latchesValued := by
  obtain ⟨tr, b, h, -⟩ := afterReads_shape addr k s; rw [h]

@[simp] theorem afterReads_resultValued (addr : Word) (k : Nat) (s : State) : (afterReads addr k s).resultValued = s.resultValued := by
  obtain ⟨tr, b, h, -⟩ := afterReads_shape addr k s; rw [h]

@[simp] theorem afterReads_cycles (addr : Word) (k : Nat) (s : State) : (afterReads addr k s).cycles = s.cycles := by
  obtain ⟨tr, b, h, -⟩ := afterReads_shape addr k s; rw [h]

@[simp] theorem afterReads_inbox (addr : Word) (k : Nat) (s : State) : (afterReads addr k s).inbox = s.inbox := by
  obtain ⟨tr, b, h, -⟩ := afterReads_shape addr k s; rw [h]

@[simp] theorem afterReads_returned (addr : Word) (k : Nat) (s : State) : (afterReads addr k s).returned = s.returned := by
  obtain ⟨tr, b, h, -⟩ := afterReads_shape addr k s; rw [h]

@[simp] theorem afterReads_sleeps (addr : Word) (k : Nat) (s : State) : (afterReads addr k s).sleeps = s.sleeps := by
  obtain ⟨tr, b, h, -⟩ := afterReads_shape addr k s; rw [h]

@[simp] theorem afterReads_params (addr : Word) (k : Nat) (s : State) : (afterReads addr k s).params = s.params := by
  obtain ⟨tr, b, h, -⟩ := afterReads_shape addr k s; rw [h]

/-- Reads do not see the registers: changing everything but the trace, the primitive and the parameters changes no
answer, and the same registers come out. -/
theorem afterReads_congr {s t : State} (addr : Word) (hb : s.bus = t.bus) (hp : s.params = t.params)
    (ht : s.trace = t.trace) (k : Nat) :
    (afterReads addr k s).bus = (afterReads addr k t).bus ∧ (afterReads addr k s).trace = (afterReads addr k t).trace := by
  induction k with
  | zero => exact ⟨hb, ht⟩
  | succ k ih =>
    have hl : (afterReads addr k s).trace.length = (afterReads addr k t).trace.length := by rw [ih.2]
    have ha := readAns_congr addr ih.1 (by simp [hp]) hl
    simp only [afterReads, afterRead_bus, afterRead_trace, ha, ih.1, ih.2, afterReads_params, hp, and_self]

theorem pollAns_congr {s t : State} (addr : Word) (hb : s.bus = t.bus) (hp : s.params = t.params) (ht : s.trace = t.trace)
    (k : Nat) : pollAns addr k s = pollAns addr k t := by
  have h := afterReads_congr addr hb hp ht k
  exact readAns_congr addr h.1 (by simp [hp]) (by rw [h.2])

/-- The events `k` reads of one address append (R51). -/
theorem afterReads_trace (addr : Word) (k : Nat) (s : State) : (afterReads addr k s).trace =
    s.trace ++ (List.range k).map fun j => .rd addr (pollAns addr j s).word (pollAns addr j s).ok := by
  induction k with
  | zero => simp [afterReads]
  | succ k ih => rw [afterReads, afterRead_trace, ih, List.range_succ, List.map_append, List.append_assoc]; rfl

/-! ## Strap codes -/

/-- The strap code as a number (R77). -/
theorem strapCode_toNat (m : StrapMap) (v : Word) : (strapCode m v).toNat = v.toNat / 2 ^ m.lsb % 2 ^ m.width := by
  have hv : v.toNat / 2 ^ m.lsb < 2 ^ 32 := Nat.lt_of_le_of_lt (Nat.div_le_self _ _) v.isLt
  simp only [strapCode, BitVec.toNat_and, BitVec.toNat_ushiftRight, Nat.shiftRight_eq_div_pow, BitVec.toNat_ofNat]
  by_cases h : m.width ≤ 32
  · have : 2 ^ m.width ≤ 2 ^ 32 := Nat.pow_le_pow_right (by omega) h
    have : 0 < 2 ^ m.width := Nat.pow_pos (by omega)
    rw [Nat.mod_eq_of_lt (by omega), Nat.and_two_pow_sub_one_eq_mod]
  · obtain ⟨d, hd⟩ : ∃ d, m.width = 32 + d := ⟨m.width - 32, by omega⟩
    have hp : 0 < 2 ^ d := Nat.pow_pos (by omega)
    have e : (2 ^ m.width - 1) % 2 ^ 32 = 2 ^ 32 - 1 := by
      obtain ⟨c, hc⟩ : ∃ c, 2 ^ d = c + 1 := ⟨2 ^ d - 1, by omega⟩
      rw [hd, Nat.pow_add, hc]; omega
    rw [e, Nat.and_two_pow_sub_one_eq_mod, Nat.mod_eq_of_lt hv, Nat.mod_eq_of_lt]
    exact Nat.lt_of_lt_of_le hv (Nat.pow_le_pow_right (by omega) (by omega))

/-- The strap code depends on the field's bits only (R108). -/
theorem strapCode_congr (m : StrapMap) {v v' : Word}
    (h : ∀ i, m.lsb ≤ i → i < m.lsb + m.width → v.getLsbD i = v'.getLsbD i) : strapCode m v = strapCode m v' := by
  apply BitVec.eq_of_getLsbD_eq
  intro i hi
  simp only [strapCode, BitVec.getLsbD_and, BitVec.getLsbD_ushiftRight, BitVec.getLsbD_ofNat, Nat.testBit_two_pow_sub_one]
  by_cases hw : i < m.width
  · rw [h (m.lsb + i) (by omega) (by omega)]
  · simp [hw]

/-! ## The PHY identifier -/

/-- The identifier as a number (R76). -/
theorem phyIdOf_toNat (a b : BitVec 16) : (phyIdOf a b).toNat = a.toNat * 2 ^ 16 + b.toNat := by
  have l1 := a.isLt
  have l2 := b.isLt
  simp only [phyIdOf, BitVec.toNat_or, BitVec.toNat_shiftLeft, BitVec.toNat_setWidth]
  rw [Nat.mod_eq_of_lt (by omega : a.toNat < 2 ^ 32), Nat.mod_eq_of_lt (by omega : b.toNat < 2 ^ 32),
    Nat.shiftLeft_eq, Nat.mod_eq_of_lt (by omega), Nat.mul_comm, ← Nat.two_pow_add_eq_or_of_lt l2]

end Sys2Proof.Machine
end

