-- ==== Sys2Proof/Laws/Transaction.lean ====
section
/-! SUPPORT. What the poll loop, one transition of `PHASE` and a whole transaction can do. -/

namespace Sys2Proof.Machine

/-! ## One transition -/

/-- The transitions of a poll phase (R96, R98). -/
theorem pollPhase_cases (onReady : Phase) (tag : Diag) (st : Status) (s : State) :
    (s.cnt = 0 ∧ pollPhase onReady tag st s = failTransaction st (emitDiag tag s)) ∨
    (s.cnt ≠ 0 ∧ ReadyPoll (readAns (regAddr s.base offRwctrl) s) ∧
      pollPhase onReady tag st s = { afterRead (regAddr s.base offRwctrl) s with phase := onReady }) ∨
    (s.cnt ≠ 0 ∧ AbortingPoll s.params (readAns (regAddr s.base offRwctrl) s) ∧
      pollPhase onReady tag st s = failTransaction .busError (afterRead (regAddr s.base offRwctrl) s)) ∨
    (s.cnt ≠ 0 ∧ FailedPoll s.params (readAns (regAddr s.base offRwctrl) s) ∧
      pollPhase onReady tag st s = failedPoll (afterRead (regAddr s.base offRwctrl) s)) := by
  by_cases hc : s.cnt = 0
  · exact .inl ⟨hc, by simp [pollPhase, hc]⟩
  · refine .inr ?_
    rcases poll_cases s.params (readAns (regAddr s.base offRwctrl) s) with h | h | h
    · exact .inl ⟨hc, h, by simp [pollPhase, hc, pollVerdict_ready.mpr h]⟩
    · exact .inr (.inl ⟨hc, h, by simp [pollPhase, hc, pollVerdict_abort.mpr h]⟩)
    · exact .inr (.inr ⟨hc, h, by simp [pollPhase, hc, pollVerdict_again.mpr h]⟩)

/-- The transitions of `CommandIssued` (R97). -/
theorem commandPhase_cases (s : State) :
    (writeOk (regAddr s.base offRwctrl) (latchedCmd s) s = true ∧ commandPhase s =
      { loadCount (afterCommandWrite (regAddr s.base offRwctrl) (latchedCmd s) s) with phase := .waitReadyPost }) ∨
    (writeOk (regAddr s.base offRwctrl) (latchedCmd s) s = false ∧ commandPhase s =
      failTransaction .busError (afterCommandWrite (regAddr s.base offRwctrl) (latchedCmd s) s)) := by
  cases h : writeOk (regAddr s.base offRwctrl) (latchedCmd s) s <;> simp [commandPhase, h]

/-- The transitions of `ResultRead` (R99). -/
theorem resultPhase_cases (s : State) :
    ((readAns (regAddr s.base offRoData) s).ok = true ∧ resultPhase s =
      { finishOp (.value (narrowResult (readAns (regAddr s.base offRoData) s).word)) .ok
          (setResult (narrowResult (readAns (regAddr s.base offRoData) s).word)
            (afterRead (regAddr s.base offRoData) s)) with phase := .idle }) ∨
    ((readAns (regAddr s.base offRoData) s).ok = false ∧ resultPhase s =
      failTransaction .busError (afterRead (regAddr s.base offRoData) s)) := by
  cases h : (readAns (regAddr s.base offRoData) s).ok <;> simp [resultPhase, h]

/-- One transition appends at most one bus event, appends to `DIAG`, and keeps what no transaction writes. -/
structure PhaseFrame (s t : State) : Prop where
  trace  : ∃ evs, t.trace = s.trace ++ evs ∧ evs.length ≤ 1
  diag   : s.diag <+: t.diag
  params : t.params = s.params
  out    : t.out = s.out
  stage  : t.stage = s.stage
  inbox  : t.inbox = s.inbox
  base   : t.base = s.base
  fdiv   : t.fdiv = s.fdiv
  paddr  : t.paddr = s.paddr
  rnum   : t.rnum = s.rnum
  latch  : t.latchesValued = s.latchesValued
  cycles : s.cycles <+: t.cycles

theorem phaseNext_frame (s : State) : PhaseFrame s (phaseNext s) := by
  have poll : ∀ onReady tag st, PhaseFrame s (pollPhase onReady tag st s) := by
    intro onReady tag st
    rcases pollPhase_cases onReady tag st s with ⟨-, h⟩ | ⟨-, -, h⟩ | ⟨-, -, h⟩ | ⟨-, -, h⟩ <;> rw [h] <;>
      constructor <;> simp
  unfold phaseNext
  split
  · constructor <;> simp
  · exact poll _ _ _
  · rcases commandPhase_cases s with ⟨-, h⟩ | ⟨-, h⟩ <;> rw [h] <;> constructor <;> simp [afterCommandWrite_cycles] <;>
      split <;> simp
  · exact poll _ _ _
  · rcases resultPhase_cases s with ⟨-, h⟩ | ⟨-, h⟩ <;> rw [h] <;> constructor <;> simp
  · constructor <;> simp

/-! ## The bound on a transaction's steps (R101) -/

/-- How many transitions can still follow. -/
def phasesLeft (s : State) : Nat :=
  match s.phase with
  | .idle => 0
  | .waitReadyPre => s.cnt + s.params.nPoll + 3
  | .commandIssued => s.params.nPoll + 3
  | .waitReadyPost => s.cnt + 2
  | .resultRead => 2
  | .failed => 1

/-- Every transition leaves fewer. -/
theorem phasesLeft_decreases {s : State} (h : s.phase ≠ .idle) : phasesLeft (phaseNext s) < phasesLeft s := by
  cases hp : s.phase
  · exact absurd hp h
  · rcases pollPhase_cases .commandIssued .busy .busy s with ⟨hc, e⟩ | ⟨hc, -, e⟩ | ⟨hc, -, e⟩ | ⟨hc, -, e⟩ <;>
      simp [phaseNext, phasesLeft, hp, e] <;> omega
  · rcases commandPhase_cases s with ⟨-, e⟩ | ⟨-, e⟩ <;> simp [phaseNext, phasesLeft, hp, e]
  · rcases pollPhase_cases .resultRead .readTimeout .readTimeout s with ⟨hc, e⟩ | ⟨hc, -, e⟩ | ⟨hc, -, e⟩ | ⟨hc, -, e⟩ <;>
      simp [phaseNext, phasesLeft, hp, e] <;> omega
  · rcases resultPhase_cases s with ⟨-, e⟩ | ⟨-, e⟩ <;> simp [phaseNext, phasesLeft, hp, e]
  · simp [phaseNext, phasesLeft, hp]

@[simp] theorem runPhases_of_idle {s : State} (h : s.phase = .idle) (k : Nat) : runPhases k s = s := by
  cases k <;> simp [runPhases, h]

theorem runPhases_of_busy {s : State} (h : s.phase ≠ .idle) (k : Nat) :
    runPhases (k + 1) s = runPhases k (phaseNext s) := by simp [runPhases, h]

/-- With enough transitions the engine is back in `Idle` (R101). -/
theorem runPhases_ends_idle (k : Nat) (s : State) (h : phasesLeft s ≤ k) : (runPhases k s).phase = .idle := by
  induction k generalizing s with
  | zero =>
    cases hp : s.phase <;> simp [phasesLeft, hp] at h
    simpa [runPhases] using hp
  | succ k ih =>
    by_cases hp : s.phase = .idle
    · simp [hp]
    · rw [runPhases_of_busy hp]
      exact ih _ (by have := phasesLeft_decreases hp; omega)

/-- A property every transition keeps holds after any number of them. -/
theorem runPhases_induct {P : State → Prop} (step : ∀ s, s.phase ≠ .idle → P s → P (phaseNext s)) (k : Nat) (s : State)
    (h : P s) : P (runPhases k s) := by
  induction k generalizing s with
  | zero => exact h
  | succ k ih =>
    by_cases hp : s.phase = .idle
    · simpa [hp] using h
    · rw [runPhases_of_busy hp]; exact ih _ (step s hp h)

theorem transaction_idle (f p b r : Word) (s : State) : (transaction f p b r s).phase = .idle := by
  apply runPhases_ends_idle
  simp [phasesLeft]; omega

/-! ## The poll loop of `WAIT_READY` -/

/-- A failed poll moves no input of the bus: the reads after it answer as if it had only been a read. -/
theorem pollAns_failedPoll (addr : Word) (j : Nat) (s : State) :
    pollAns addr j (failedPoll (afterRead addr s)) = pollAns addr (j + 1) s := by
  rw [← pollAns_shift]; exact pollAns_congr (s := failedPoll (afterRead addr s)) (t := afterRead addr s) addr rfl rfl rfl j

theorem afterReads_failedPoll (addr : Word) (k : Nat) (s : State) :
    (afterReads addr k (failedPoll (afterRead addr s))).bus = (afterReads addr (k + 1) s).bus ∧
    (afterReads addr k (failedPoll (afterRead addr s))).trace = (afterReads addr (k + 1) s).trace := by
  rw [← afterReads_shift]; exact afterReads_congr (s := failedPoll (afterRead addr s)) (t := afterRead addr s) addr rfl rfl rfl k

/-- What `k` failed polls in a row leave of a poll loop that stands at `CNT` (R92: a sleep between two polls, none
after the last). -/
def pollsDone (addr : Word) (k : Nat) (s : State) : State :=
  { afterReads addr k s with cnt := s.cnt - k, sleeps := s.sleeps + min k (s.cnt - 1) }

/-- One failed poll, then `k`, are `k + 1`. -/
theorem pollsDone_succ {addr : Word} {k : Nat} {s : State} (h : k + 1 ≤ s.cnt) :
    pollsDone addr k (failedPoll (afterRead addr s)) = pollsDone addr (k + 1) s := by
  obtain ⟨hb, ht⟩ := afterReads_failedPoll addr k s
  apply State.ext <;> simp [pollsDone, hb, ht]
  · omega
  · by_cases h0 : s.cnt - 1 = 0
    · simp [h0]
    · simp [h0]; omega

/-- The loop after `k` failed polls in a row (R91). -/
theorem waitLoop_polls {base : Word} {k n : Nat} {s : State} (hc : s.cnt = n) (hk : k ≤ n)
    (hf : failedPolls (regAddr base offRwctrl) k s) :
    waitLoop base n s = waitLoop base (n - k) (pollsDone (regAddr base offRwctrl) k s) := by
  induction k generalizing n s with
  | zero => simp [pollsDone, afterReads]
  | succ k ih =>
    obtain ⟨m, rfl⟩ : ∃ m, n = m + 1 := ⟨n - 1, by omega⟩
    have h0 := pollVerdict_again.mpr (hf 0 (by omega))
    simp only [pollAns, afterReads] at h0
    rw [waitLoop]
    simp only [h0]
    rw [ih (by simp [hc]) (by omega) (fun j hj => by
      rw [pollAns_failedPoll]; simpa using hf (j + 1) (by omega)), pollsDone_succ (by omega)]
    congr 1
    omega

/-- The answers after `k` failed polls are those of the next reads. -/
theorem readAns_pollsDone (addr : Word) (k : Nat) (s : State) : readAns addr (pollsDone addr k s) = pollAns addr k s :=
  readAns_congr addr rfl rfl rfl

/-- The poll that follows `k` failed ones, as an access. -/
theorem afterRead_pollsDone (addr : Word) (k : Nat) (s : State) : afterRead addr (pollsDone addr k s) =
    { afterReads addr (k + 1) s with cnt := s.cnt - k, sleeps := s.sleeps + min k (s.cnt - 1) } := rfl

/-! ## The two sides of a state

A transaction's registers and its bus side move apart: the answers see only the bus side, and an access moves only the
bus side. `rebus x y` has the registers of `x` and the bus side of `y`. -/

/-- The registers of `x` over the bus side of `y`. -/
def rebus (x y : State) : State := { x with bus := y.bus, trace := y.trace, cycles := y.cycles }

@[simp] theorem rebus_self (s : State) : rebus s s = s := rfl

theorem readAns_rebus {x y : State} (addr : Word) (hp : x.params = y.params) : readAns addr (rebus x y) = readAns addr y :=
  readAns_congr addr rfl hp rfl

theorem writeOk_rebus {x y : State} (addr w : Word) (hp : x.params = y.params) : writeOk addr w (rebus x y) = writeOk addr w y :=
  writeOk_congr addr w rfl hp rfl

theorem afterRead_rebus {x y : State} (addr : Word) (hp : x.params = y.params) :
    afterRead addr (rebus x y) = rebus x (afterRead addr y) := by
  have := readAns_rebus addr hp
  apply State.ext <;> simp_all [rebus]

theorem afterReads_rebus {x y : State} (addr : Word) (hp : x.params = y.params) (k : Nat) :
    afterReads addr k (rebus x y) = rebus x (afterReads addr k y) := by
  induction k with
  | zero => rfl
  | succ k ih => rw [afterReads, ih, afterRead_rebus _ (by simpa using hp)]; rfl

theorem pollAns_rebus {x y : State} (addr : Word) (hp : x.params = y.params) (k : Nat) :
    pollAns addr k (rebus x y) = pollAns addr k y := by
  rw [pollAns, afterReads_rebus addr hp, readAns_rebus _ (by simpa using hp)]; rfl

theorem afterCommandWrite_rebus {x y : State} (addr w : Word) (hp : x.params = y.params) :
    afterCommandWrite addr w (rebus x y) = rebus x (afterCommandWrite addr w y) := by
  have h1 := writeOk_rebus (x := x) (y := y) addr w hp
  have h2 := writeReached_congr (s := rebus x y) (t := y) addr w rfl hp rfl
  apply State.ext <;> simp_all [rebus, afterCommandWrite_cycles]

/-! ## The steps of a transaction over the two sides -/

/-- The two poll phases, with what each does on ready and on time-out (R96, R98). -/
structure PollPhase (ph : Phase) (onReady : Phase) (tag : Diag) (st : Status) : Prop where
  busy : ph ≠ .idle
  next : ∀ t : State, t.phase = ph → phaseNext t = pollPhase onReady tag st t

theorem preCheck : PollPhase .waitReadyPre .commandIssued .busy .busy := ⟨by simp, fun t h => by simp [phaseNext, h]⟩

theorem postCheck : PollPhase .waitReadyPost .resultRead .readTimeout .readTimeout :=
  ⟨by simp, fun t h => by simp [phaseNext, h]⟩

section
variable {ph onReady : Phase} {tag : Diag} {st : Status} (P : PollPhase ph onReady tag st) {x y : State}
include P

/-- `k` failed polls in a row in a poll phase: `CNT` goes down by `k`, with a sleep between two polls (R92). -/
theorem PollPhase.polls (hx : x.phase = ph) (hp : x.params = y.params) {k m : Nat} (hk : k ≤ x.cnt)
    (hf : failedPolls (regAddr x.base offRwctrl) k y) :
    runPhases (m + k) (rebus x y) = runPhases m
      (rebus { x with cnt := x.cnt - k, sleeps := x.sleeps + min k (x.cnt - 1) }
        (afterReads (regAddr x.base offRwctrl) k y)) := by
  induction k generalizing x y with
  | zero => rfl
  | succ k ih =>
    have h0 := pollVerdict_again.mpr (hf 0 (by omega))
    simp only [pollAns, afterReads, ← hp] at h0
    have e : phaseNext (rebus x y) = rebus { x with cnt := x.cnt - 1, sleeps := if x.cnt - 1 = 0 then x.sleeps else x.sleeps + 1 }
        (afterRead (regAddr x.base offRwctrl) y) := by
      rw [P.next (rebus x y) hx, pollPhase, if_neg (by show ¬ x.cnt = 0; omega)]
      simp only [readAns_rebus _ hp, show (rebus x y).base = x.base from rfl, show (rebus x y).params = x.params from rfl,
        h0, afterRead_rebus _ hp]
      rfl
    rw [← Nat.add_assoc, runPhases_of_busy (by rw [show (rebus x y).phase = x.phase from rfl, hx]; exact P.busy), e,
      ih (x := { x with cnt := x.cnt - 1, sleeps := if x.cnt - 1 = 0 then x.sleeps else x.sleeps + 1 })
        (y := afterRead (regAddr x.base offRwctrl) y) hx (by simpa using hp) (by simp only; omega) (fun j hj => by
        rw [pollAns_shift]; simpa using hf (j + 1) (by omega))]
    rw [afterReads_shift]
    congr 2
    apply State.ext <;> simp
    · omega
    · by_cases h1 : x.cnt - 1 = 0
      · simp [h1]
      · simp [h1]; omega

/-- A poll that observes ready. -/
theorem PollPhase.ready (hx : x.phase = ph) (hp : x.params = y.params) (hc : x.cnt ≠ 0)
    (hr : ReadyPoll (readAns (regAddr x.base offRwctrl) y)) (m : Nat) :
    runPhases (m + 1) (rebus x y) = runPhases m
      (rebus { x with phase := onReady } (afterRead (regAddr x.base offRwctrl) y)) := by
  rw [runPhases_of_busy (by rw [show (rebus x y).phase = x.phase from rfl, hx]; exact P.busy), P.next (rebus x y) hx, pollPhase,
    if_neg (show ¬ (rebus x y).cnt = 0 from hc)]
  simp only [readAns_rebus _ hp, show (rebus x y).base = x.base from rfl, show (rebus x y).params = x.params from rfl,
    pollVerdict_ready.mpr hr, afterRead_rebus _ hp]
  rfl

/-- A poll that aborts, and the way back to `Idle`. -/
theorem PollPhase.abort (hx : x.phase = ph) (hp : x.params = y.params) (hc : x.cnt ≠ 0)
    (ha : AbortingPoll y.params (readAns (regAddr x.base offRwctrl) y)) (m : Nat) :
    runPhases (m + 2) (rebus x y) =
      leaveFailed (rebus (failTransaction .busError x) (afterRead (regAddr x.base offRwctrl) y)) := by
  rw [← hp] at ha
  rw [runPhases_of_busy (by rw [show (rebus x y).phase = x.phase from rfl, hx]; exact P.busy), P.next (rebus x y) hx, pollPhase,
    if_neg (show ¬ (rebus x y).cnt = 0 from hc)]
  simp only [readAns_rebus _ hp, show (rebus x y).base = x.base from rfl, show (rebus x y).params = x.params from rfl,
    pollVerdict_abort.mpr ha, afterRead_rebus _ hp]
  rw [runPhases_of_busy (by simp)]
  exact runPhases_of_idle (by rfl) m

/-- The time-out, and the way back to `Idle`. -/
theorem PollPhase.timeout (hx : x.phase = ph) (hc : x.cnt = 0) (m : Nat) :
    runPhases (m + 2) (rebus x y) = leaveFailed (rebus (failTransaction st (emitDiag tag x)) y) := by
  rw [runPhases_of_busy (by rw [show (rebus x y).phase = x.phase from rfl, hx]; exact P.busy), P.next (rebus x y) hx, pollPhase,
    if_pos (show (rebus x y).cnt = 0 from hc)]
  rw [runPhases_of_busy (by simp)]
  exact runPhases_of_idle (by rfl) m

end

section
variable {x y : State}

/-- The command write succeeds (R97). -/
theorem command_ok (hx : x.phase = .commandIssued) (hp : x.params = y.params)
    (hw : writeOk (regAddr x.base offRwctrl) (latchedCmd x) y = true) (m : Nat) :
    runPhases (m + 1) (rebus x y) = runPhases m
      (rebus { x with phase := .waitReadyPost, cnt := x.params.nPoll, cntValued := true }
        (afterCommandWrite (regAddr x.base offRwctrl) (latchedCmd x) y)) := by
  have hw' : writeOk (regAddr (rebus x y).base offRwctrl) (latchedCmd (rebus x y)) (rebus x y) = true := by
    rw [writeOk_rebus _ _ hp]; exact hw
  have hx' : (rebus x y).phase = .commandIssued := hx
  rw [runPhases_of_busy (by simp [hx'])]
  simp only [phaseNext, hx', commandPhase, hw', if_true]
  rw [afterCommandWrite_rebus _ _ hp]
  rfl

/-- The command write fails, and the way back to `Idle`. -/
theorem command_fails (hx : x.phase = .commandIssued) (hp : x.params = y.params)
    (hw : writeOk (regAddr x.base offRwctrl) (latchedCmd x) y = false) (m : Nat) :
    runPhases (m + 2) (rebus x y) = leaveFailed (rebus (failTransaction .busError x)
      (afterCommandWrite (regAddr x.base offRwctrl) (latchedCmd x) y)) := by
  have hw' : writeOk (regAddr (rebus x y).base offRwctrl) (latchedCmd (rebus x y)) (rebus x y) = false := by
    rw [writeOk_rebus _ _ hp]; exact hw
  have hx' : (rebus x y).phase = .commandIssued := hx
  rw [runPhases_of_busy (by simp [hx'])]
  simp only [phaseNext, hx', commandPhase, hw', Bool.false_eq_true, if_false]
  rw [afterCommandWrite_rebus _ _ hp, runPhases_of_busy (by simp)]
  exact runPhases_of_idle (by rfl) m

/-- The result read succeeds and ends the operation (R99). -/
theorem result_ok (hx : x.phase = .resultRead) (hp : x.params = y.params)
    (ha : (readAns (regAddr x.base offRoData) y).ok = true) (m : Nat) :
    let v := narrowResult (readAns (regAddr x.base offRoData) y).word
    runPhases (m + 1) (rebus x y) = { finishOp (.value v) .ok (setResult v (rebus x (afterRead (regAddr x.base offRoData) y)))
      with phase := .idle } := by
  have ha' : (readAns (regAddr (rebus x y).base offRoData) (rebus x y)).ok = true := by rw [readAns_rebus _ hp]; exact ha
  have hx' : (rebus x y).phase = .resultRead := hx
  rw [runPhases_of_busy (by simp [hx'])]
  simp only [phaseNext, hx', resultPhase, ha', if_true]
  rw [readAns_rebus _ hp, afterRead_rebus _ hp]
  exact runPhases_of_idle (by rfl) m

/-- The result read fails, and the way back to `Idle`. -/
theorem result_fails (hx : x.phase = .resultRead) (hp : x.params = y.params)
    (ha : (readAns (regAddr x.base offRoData) y).ok = false) (m : Nat) :
    runPhases (m + 2) (rebus x y) =
      leaveFailed (rebus (failTransaction .busError x) (afterRead (regAddr x.base offRoData) y)) := by
  have ha' : (readAns (regAddr (rebus x y).base offRoData) (rebus x y)).ok = false := by rw [readAns_rebus _ hp]; exact ha
  have hx' : (rebus x y).phase = .resultRead := hx
  rw [runPhases_of_busy (by simp [hx'])]
  simp only [phaseNext, hx', resultPhase, ha', Bool.false_eq_true, if_false]
  rw [afterRead_rebus _ hp, runPhases_of_busy (by simp)]
  exact runPhases_of_idle (by rfl) m

end

/-- The command composed from the masked latches is the command of the operands (R90: composition masks). -/
theorem latchedCmd_of_latches {x : State} {f p r : Word} (hf : x.fdiv = narrowDiv f) (hp : x.paddr = narrowAddr p)
    (hr : x.rnum = narrowAddr r) : latchedCmd x = readCmd x.params f p r := by
  unfold latchedCmd readCmd
  rw [hf, hp, hr]
  split <;> (apply wordFields_injective; simp [wordFields_composeWord, narrowDiv, narrowAddr])

end Sys2Proof.Machine
end

