-- ==== Sys2Proof/Laws/Read.lean ====
section
/-! SUPPORT. What a whole `MDIO_READ` can do: the run of its phases over the bus side, and its seven ends. -/

namespace Sys2Proof.Machine

/-- The registers of a transaction of operands `f`, `p`, `b`, `r` in a phase, over the state it started from. -/
def midRead (f p b r : Word) (ph : Phase) (cnt sleeps : Nat) (s : State) : State :=
  { s with
    phase := ph
    base := b
    fdiv := narrowDiv f
    paddr := narrowAddr p
    rnum := narrowAddr r
    latchesValued := true
    cnt := cnt
    cntValued := true
    sleeps := sleeps }

theorem acceptRead_eq (f p b r : Word) (s : State) :
    acceptRead f p b r s = rebus (midRead f p b r .waitReadyPre s.params.nPoll s.sleeps s) s := rfl

variable {f p b r : Word} {s y : State}

/-- A failed transaction's end. -/
theorem leaveFailed_midRead (ph : Phase) (cnt sleeps : Nat) (st : Status) (hs : rebus s y = y) :
    leaveFailed (rebus (failTransaction st (midRead f p b r ph cnt sleeps s)) y) = readEnd f p b r cnt sleeps 0 st y := by
  rw [← hs]; rfl

theorem leaveFailed_midRead_diag (ph : Phase) (cnt sleeps : Nat) (st : Status) (d : Diag) (hs : rebus s y = y) :
    leaveFailed (rebus (failTransaction st (emitDiag d (midRead f p b r ph cnt sleeps s))) y) =
      { readEnd f p b r cnt sleeps 0 st y with diag := s.diag ++ [d] } := by
  rw [← hs]; rfl

theorem params_of_rebus {x y : State} (h : rebus x y = y) : x.params = y.params := by rw [← h]; rfl

theorem rebus_afterRead {x y : State} (addr : Word) (h : rebus x y = y) : rebus x (afterRead addr y) = afterRead addr y := by
  have hp := params_of_rebus h
  rw [← afterRead_rebus addr hp, h]

theorem rebus_afterReads {x y : State} (addr : Word) (k : Nat) (h : rebus x y = y) :
    rebus x (afterReads addr k y) = afterReads addr k y := by
  have hp := params_of_rebus h
  rw [← afterReads_rebus addr hp, h]

theorem rebus_afterCommandWrite {x y : State} (addr w : Word) (h : rebus x y = y) :
    rebus x (afterCommandWrite addr w y) = afterCommandWrite addr w y := by
  have hp := params_of_rebus h
  rw [← afterCommandWrite_rebus addr w hp, h]

/-- A poll phase from `CNT = n` after `k` failed polls. -/
theorem PollPhase.midRead_polls {ph onReady : Phase} {tag : Diag} {st : Status} (P : PollPhase ph onReady tag st)
    {n sl k m : Nat} (hp : s.params = y.params) (hk : k ≤ n) (hf : failedPolls (regAddr b offRwctrl) k y) :
    runPhases (m + k) (rebus (midRead f p b r ph n sl s) y) = runPhases m
      (rebus (midRead f p b r ph (n - k) (sl + min k (n - 1)) s) (afterReads (regAddr b offRwctrl) k y)) :=
  P.polls (x := midRead f p b r ph n sl s) rfl hp hk hf

/-- A poll phase from `CNT = n`, `k < n` failed polls and then a ready one. -/
theorem PollPhase.polls_ready {ph onReady : Phase} {tag : Diag} {st : Status} (P : PollPhase ph onReady tag st)
    {n sl k m : Nat} (hs : rebus s y = y) (hk : k < n) (hf : failedPolls (regAddr b offRwctrl) k y)
    (hr : ReadyPoll (pollAns (regAddr b offRwctrl) k y)) :
    runPhases (m + k + 1) (rebus (midRead f p b r ph n sl s) y) = runPhases m
      (rebus (midRead f p b r onReady (n - k) (sl + k) s) (afterReads (regAddr b offRwctrl) (k + 1) y)) := by
  have hp : s.params = y.params := params_of_rebus hs
  rw [Nat.add_right_comm, P.midRead_polls hp (Nat.le_of_lt hk) hf,
    Nat.min_eq_left (show k ≤ n - 1 by omega)]
  exact P.ready (x := midRead f p b r ph (n - k) (sl + k) s) rfl (hp.trans (afterReads_params _ _ _).symm)
    (show n - k ≠ 0 by omega) hr m

/-- A poll phase from `CNT = n`, `k < n` failed polls and then an aborting one. -/
theorem PollPhase.polls_abort {ph onReady : Phase} {tag : Diag} {st : Status} (P : PollPhase ph onReady tag st)
    {n sl k m : Nat} (hs : rebus s y = y) (hk : k < n) (hf : failedPolls (regAddr b offRwctrl) k y)
    (hr : AbortingPoll s.params (pollAns (regAddr b offRwctrl) k y)) :
    runPhases (m + k + 2) (rebus (midRead f p b r ph n sl s) y) =
      readEnd f p b r (n - k) (sl + k) 0 .busError (afterReads (regAddr b offRwctrl) (k + 1) y) := by
  have hp : s.params = y.params := params_of_rebus hs
  rw [Nat.add_right_comm, P.midRead_polls hp (Nat.le_of_lt hk) hf,
    Nat.min_eq_left (show k ≤ n - 1 by omega)]
  refine (P.abort (x := midRead f p b r ph (n - k) (sl + k) s) rfl (hp.trans (afterReads_params _ _ _).symm)
    (show n - k ≠ 0 by omega) (by rw [afterReads_params, ← hp]; exact hr) m).trans ?_
  exact leaveFailed_midRead ph (n - k) (sl + k) .busError (rebus_afterReads (regAddr b offRwctrl) (k + 1) hs)

/-- A poll phase from `CNT = n` and `n` failed polls. -/
theorem PollPhase.polls_timeout {ph onReady : Phase} {tag : Diag} {st : Status} (P : PollPhase ph onReady tag st)
    {n sl m : Nat} (hs : rebus s y = y) (hf : failedPolls (regAddr b offRwctrl) n y) :
    runPhases (m + n + 2) (rebus (midRead f p b r ph n sl s) y) =
      { readEnd f p b r 0 (sl + (n - 1)) 0 st (afterReads (regAddr b offRwctrl) n y) with diag := s.diag ++ [tag] } := by
  have hp : s.params = y.params := params_of_rebus hs
  rw [Nat.add_right_comm, P.midRead_polls hp (Nat.le_refl n) hf,
    Nat.min_eq_right (show n - 1 ≤ n by omega), Nat.sub_self]
  exact (P.timeout (x := midRead f p b r ph 0 (sl + (n - 1)) s) rfl rfl m).trans
    (leaveFailed_midRead_diag ph 0 (sl + (n - 1)) st tag (rebus_afterReads (regAddr b offRwctrl) n hs))

theorem latchedCmd_midRead (ph : Phase) (cnt sleeps : Nat) :
    latchedCmd (midRead f p b r ph cnt sleeps s) = readCmd s.params f p r := latchedCmd_of_latches rfl rfl rfl

/-- The command write of a transaction. -/
theorem midRead_command_ok {c sl m : Nat} (hs : rebus s y = y)
    (hw : writeOk (regAddr b offRwctrl) (readCmd s.params f p r) y = true) :
    runPhases (m + 1) (rebus (midRead f p b r .commandIssued c sl s) y) = runPhases m
      (rebus (midRead f p b r .waitReadyPost s.params.nPoll sl s)
        (afterCommandWrite (regAddr b offRwctrl) (readCmd s.params f p r) y)) := by
  rw [← latchedCmd_midRead (b := b) .commandIssued c sl] at hw ⊢
  exact command_ok (x := midRead f p b r .commandIssued c sl s) rfl (show s.params = y.params from params_of_rebus hs) hw m

theorem midRead_command_fails {c sl m : Nat} (hs : rebus s y = y)
    (hw : writeOk (regAddr b offRwctrl) (readCmd s.params f p r) y = false) :
    runPhases (m + 2) (rebus (midRead f p b r .commandIssued c sl s) y) =
      readEnd f p b r c sl 0 .busError (afterCommandWrite (regAddr b offRwctrl) (readCmd s.params f p r) y) := by
  have e := latchedCmd_midRead (f := f) (p := p) (b := b) (r := r) (s := s) .commandIssued c sl
  rw [← e] at hw
  refine (command_fails (x := midRead f p b r .commandIssued c sl s) rfl (show s.params = y.params from params_of_rebus hs) hw m).trans ?_
  rw [e]
  exact leaveFailed_midRead .commandIssued c sl .busError (rebus_afterCommandWrite (regAddr b offRwctrl) _ hs)

/-- The result read of a transaction. -/
theorem midRead_result_ok {c sl m : Nat} (hs : rebus s y = y) (ha : (readAns (regAddr b offRoData) y).ok = true) :
    runPhases (m + 1) (rebus (midRead f p b r .resultRead c sl s) y) =
      readEnd f p b r c sl (narrowResult (readAns (regAddr b offRoData) y).word) .ok (afterRead (regAddr b offRoData) y) := by
  refine (result_ok (x := midRead f p b r .resultRead c sl s) rfl (show s.params = y.params from params_of_rebus hs) ha m).trans ?_
  conv_rhs => rw [← rebus_afterRead (regAddr b offRoData) hs]
  rfl

theorem midRead_result_fails {c sl m : Nat} (hs : rebus s y = y) (ha : (readAns (regAddr b offRoData) y).ok = false) :
    runPhases (m + 2) (rebus (midRead f p b r .resultRead c sl s) y) =
      readEnd f p b r c sl 0 .busError (afterRead (regAddr b offRoData) y) :=
  (result_fails (x := midRead f p b r .resultRead c sl s) rfl (show s.params = y.params from params_of_rebus hs) ha m).trans
    (leaveFailed_midRead .resultRead c sl .busError (rebus_afterRead (regAddr b offRoData) hs))

/-! ## The seven ends of a transaction -/

/-- `n` polls of `addr` come to one of three ends (R91). -/
theorem polls_cases (addr : Word) (n : Nat) (s : State) :
    (∃ k < n, failedPolls addr k s ∧ ReadyPoll (pollAns addr k s)) ∨
    (∃ k < n, failedPolls addr k s ∧ AbortingPoll s.params (pollAns addr k s)) ∨ failedPolls addr n s := by
  induction n with
  | zero => exact .inr (.inr (by simp [failedPolls]))
  | succ n ih =>
    rcases ih with ⟨k, hk, h⟩ | ⟨k, hk, h⟩ | h
    · exact .inl ⟨k, by omega, h⟩
    · exact .inr (.inl ⟨k, by omega, h⟩)
    · rcases poll_cases s.params (pollAns addr n s) with hp | hp | hp
      · exact .inl ⟨n, by omega, h, hp⟩
      · exact .inr (.inl ⟨n, by omega, h, hp⟩)
      · refine .inr (.inr fun j hj => ?_)
        rcases Nat.lt_succ_iff_lt_or_eq.mp hj with hj | rfl
        · exact h j hj
        · exact hp

/-- The state after `k + 1` polls, the last of which observed ready. -/
def polled (b : Word) (k : Nat) (s : State) : State := afterReads (regAddr b offRwctrl) (k + 1) s

/-- The state after those polls and the command write. -/
def commanded (f p b r : Word) (k : Nat) (s : State) : State :=
  afterCommandWrite (regAddr b offRwctrl) (readCmd s.params f p r) (polled b k s)

/-- Ready at poll `k` of at most `n`. -/
structure ReadyAt (b : Word) (n k : Nat) (s : State) : Prop where
  lt     : k < n
  failed : failedPolls (regAddr b offRwctrl) k s
  ready  : ReadyPoll (pollAns (regAddr b offRwctrl) k s)

/-- Bus error at poll `k` of at most `n`. -/
structure AbortAt (b : Word) (n k : Nat) (s : State) : Prop where
  lt     : k < n
  failed : failedPolls (regAddr b offRwctrl) k s
  abort  : AbortingPoll s.params (pollAns (regAddr b offRwctrl) k s)

/-- Every end of an `MDIO_READ` accepted in `s`, with the state it leaves. -/
inductive ReadOutcome (f p b r : Word) (s : State) : State → Prop where
  | busy (h : failedPolls (regAddr b offRwctrl) s.params.nPoll s) :
      ReadOutcome f p b r s { readEnd f p b r 0 (s.sleeps + (s.params.nPoll - 1)) 0 .busy
        (afterReads (regAddr b offRwctrl) s.params.nPoll s) with diag := s.diag ++ [.busy] }
  | preAbort (k : Nat) (h : AbortAt b s.params.nPoll k s) :
      ReadOutcome f p b r s (readEnd f p b r (s.params.nPoll - k) (s.sleeps + k) 0 .busError (polled b k s))
  | commandFails (k : Nat) (h : ReadyAt b s.params.nPoll k s)
      (hw : writeOk (regAddr b offRwctrl) (readCmd s.params f p r) (polled b k s) = false) :
      ReadOutcome f p b r s (readEnd f p b r (s.params.nPoll - k) (s.sleeps + k) 0 .busError (commanded f p b r k s))
  | readTimeout (k : Nat) (h : ReadyAt b s.params.nPoll k s)
      (hw : writeOk (regAddr b offRwctrl) (readCmd s.params f p r) (polled b k s) = true)
      (hf : failedPolls (regAddr b offRwctrl) s.params.nPoll (commanded f p b r k s)) :
      ReadOutcome f p b r s { readEnd f p b r 0 (s.sleeps + k + (s.params.nPoll - 1)) 0 .readTimeout
        (afterReads (regAddr b offRwctrl) s.params.nPoll (commanded f p b r k s)) with diag := s.diag ++ [.readTimeout] }
  | postAbort (k j : Nat) (h : ReadyAt b s.params.nPoll k s)
      (hw : writeOk (regAddr b offRwctrl) (readCmd s.params f p r) (polled b k s) = true)
      (h2 : AbortAt b s.params.nPoll j (commanded f p b r k s)) :
      ReadOutcome f p b r s (readEnd f p b r (s.params.nPoll - j) (s.sleeps + k + j) 0 .busError
        (polled b j (commanded f p b r k s)))
  | resultFails (k j : Nat) (h : ReadyAt b s.params.nPoll k s)
      (hw : writeOk (regAddr b offRwctrl) (readCmd s.params f p r) (polled b k s) = true)
      (h2 : ReadyAt b s.params.nPoll j (commanded f p b r k s))
      (ha : (readAns (regAddr b offRoData) (polled b j (commanded f p b r k s))).ok = false) :
      ReadOutcome f p b r s (readEnd f p b r (s.params.nPoll - j) (s.sleeps + k + j) 0 .busError
        (afterRead (regAddr b offRoData) (polled b j (commanded f p b r k s))))
  | done (k j : Nat) (h : ReadyAt b s.params.nPoll k s)
      (hw : writeOk (regAddr b offRwctrl) (readCmd s.params f p r) (polled b k s) = true)
      (h2 : ReadyAt b s.params.nPoll j (commanded f p b r k s))
      (ha : (readAns (regAddr b offRoData) (polled b j (commanded f p b r k s))).ok = true) :
      ReadOutcome f p b r s (readEnd f p b r (s.params.nPoll - j) (s.sleeps + k + j)
        (narrowResult (readAns (regAddr b offRoData) (polled b j (commanded f p b r k s))).word) .ok
        (afterRead (regAddr b offRoData) (polled b j (commanded f p b r k s))))

theorem polled_params (b : Word) (k : Nat) (s : State) : (polled b k s).params = s.params := afterReads_params _ _ _

theorem commanded_params (f p b r : Word) (k : Nat) (s : State) : (commanded f p b r k s).params = s.params := by
  unfold commanded; rw [afterCommandWrite_params, polled_params]

/-- A transaction has one of these ends. -/
theorem transaction_outcome (f p b r : Word) (s : State) : ReadOutcome f p b r s (transaction f p b r s) := by
  have start : transaction f p b r s =
      runPhases (2 * s.params.nPoll + 3) (rebus (midRead f p b r .waitReadyPre s.params.nPoll s.sleeps s) s) := rfl
  rcases polls_cases (regAddr b offRwctrl) s.params.nPoll s with ⟨k, hk, hf, hr⟩ | ⟨k, hk, hf, ha⟩ | hf
  · have hs1 : rebus s (polled b k s) = polled b k s := rebus_afterReads _ _ rfl
    have hs2 : rebus s (commanded f p b r k s) = commanded f p b r k s := rebus_afterCommandWrite _ _ hs1
    have hp2 := commanded_params f p b r k s
    cases hw : writeOk (regAddr b offRwctrl) (readCmd s.params f p r) (polled b k s)
    · rw [start, show 2 * s.params.nPoll + 3 = (2 * s.params.nPoll - k) + 2 + k + 1 by omega,
        (preCheck.polls_ready rfl hk hf hr).trans (midRead_command_fails hs1 hw)]
      exact .commandFails k ⟨hk, hf, hr⟩ hw
    · have pre : ∀ m, runPhases (m + 1 + k + 1) (rebus (midRead f p b r .waitReadyPre s.params.nPoll s.sleeps s) s) =
          runPhases m (rebus (midRead f p b r .waitReadyPost s.params.nPoll (s.sleeps + k) s) (commanded f p b r k s)) :=
        fun m => (preCheck.polls_ready rfl hk hf hr).trans (midRead_command_ok hs1 hw)
      rcases polls_cases (regAddr b offRwctrl) s.params.nPoll (commanded f p b r k s) with
        ⟨j, hj, hf2, hr2⟩ | ⟨j, hj, hf2, ha⟩ | hf2
      · have hs3 : rebus s (polled b j (commanded f p b r k s)) = polled b j (commanded f p b r k s) :=
          rebus_afterReads _ _ hs2
        cases ha : (readAns (regAddr b offRoData) (polled b j (commanded f p b r k s))).ok
        · rw [start, show 2 * s.params.nPoll + 3 = (2 * s.params.nPoll - k - j - 2) + 2 + j + 1 + 1 + k + 1 by omega, pre,
            (postCheck.polls_ready hs2 hj hf2 hr2).trans (midRead_result_fails hs3 ha)]
          exact .resultFails k j ⟨hk, hf, hr⟩ hw ⟨hj, hf2, hr2⟩ ha
        · rw [start, show 2 * s.params.nPoll + 3 = (2 * s.params.nPoll - k - j - 1) + 1 + j + 1 + 1 + k + 1 by omega, pre,
            (postCheck.polls_ready hs2 hj hf2 hr2).trans (midRead_result_ok hs3 ha)]
          exact .done k j ⟨hk, hf, hr⟩ hw ⟨hj, hf2, hr2⟩ ha
      · rw [start, show 2 * s.params.nPoll + 3 = (2 * s.params.nPoll - 1 - k - j) + j + 2 + 1 + k + 1 by omega, pre,
          postCheck.polls_abort hs2 hj hf2 (hp2 ▸ ha)]
        exact .postAbort k j ⟨hk, hf, hr⟩ hw ⟨hj, hf2, ha⟩
      · rw [start, show 2 * s.params.nPoll + 3 = (s.params.nPoll - 1 - k) + s.params.nPoll + 2 + 1 + k + 1 by omega, pre,
          postCheck.polls_timeout hs2 hf2]
        exact .readTimeout k ⟨hk, hf, hr⟩ hw hf2
  · rw [start, show 2 * s.params.nPoll + 3 = (2 * s.params.nPoll + 1 - k) + k + 2 by omega,
      preCheck.polls_abort rfl hk hf ha]
    exact .preAbort k ⟨hk, hf, ha⟩
  · rw [start, show 2 * s.params.nPoll + 3 = (s.params.nPoll + 1) + s.params.nPoll + 2 by omega,
      preCheck.polls_timeout rfl hf]
    exact .busy hf

/-! ## The bus events of a transaction -/

/-- The events of the first `k` polls. -/
def pollEvents (b : Word) (k : Nat) (s : State) : List BusEvent :=
  (List.range k).map fun j =>
    .rd (regAddr b offRwctrl) (pollAns (regAddr b offRwctrl) j s).word (pollAns (regAddr b offRwctrl) j s).ok

/-- Every event of the polls is a read of `MDIO_RWCTRL`. -/
theorem pollEvents_mem {b : Word} {k : Nat} {s : State} {e : BusEvent} (h : e ∈ pollEvents b k s) :
    ∃ v ok, e = .rd (regAddr b offRwctrl) v ok := by
  obtain ⟨j, -, rfl⟩ := List.mem_map.mp h
  exact ⟨_, _, rfl⟩

theorem pollEvents_length (b : Word) (k : Nat) (s : State) : (pollEvents b k s).length = k := by simp [pollEvents]

/-- The last of `k + 1` polls is poll `k`. -/
theorem pollEvents_succ (b : Word) (k : Nat) (s : State) : pollEvents b (k + 1) s = pollEvents b k s ++
    [.rd (regAddr b offRwctrl) (pollAns (regAddr b offRwctrl) k s).word (pollAns (regAddr b offRwctrl) k s).ok] := by
  simp [pollEvents, List.range_succ]

/-- The events of a transaction: polls; then, if the last of them was ready, the command write; then, if it succeeded,
polls; then, if the last of them was ready, the result read. -/
inductive ReadEvents (b w : Word) (n : Nat) : List BusEvent → Status → Prop where
  | polls (k : Nat) (s : State) (st : Status) (hk : k ≤ n) (hst : st ≠ .ok) : ReadEvents b w n (pollEvents b k s) st
  | write (k : Nat) (s : State) (h : ReadyAt b n k s) :
      ReadEvents b w n (pollEvents b (k + 1) s ++ [.wr (regAddr b offRwctrl) w false]) .busError
  | polls2 (k j : Nat) (s y : State) (st : Status) (h : ReadyAt b n k s) (hj : j ≤ n) (hst : st ≠ .ok) :
      ReadEvents b w n (pollEvents b (k + 1) s ++ [.wr (regAddr b offRwctrl) w true] ++ pollEvents b j y) st
  | result (k j : Nat) (s y : State) (v : Word) (ok : Bool) (h : ReadyAt b n k s) (h2 : ReadyAt b n j y) :
      ReadEvents b w n (pollEvents b (k + 1) s ++ [.wr (regAddr b offRwctrl) w true] ++ pollEvents b (j + 1) y ++
        [.rd (regAddr b offRoData) v ok]) (if ok then .ok else .busError)

theorem polled_trace (b : Word) (k : Nat) (s : State) : (polled b k s).trace = s.trace ++ pollEvents b (k + 1) s :=
  afterReads_trace _ _ _

theorem commanded_trace (f p b r : Word) (k : Nat) (s : State) : (commanded f p b r k s).trace = s.trace ++
    (pollEvents b (k + 1) s ++ [.wr (regAddr b offRwctrl) (readCmd s.params f p r)
      (writeOk (regAddr b offRwctrl) (readCmd s.params f p r) (polled b k s))]) := by
  rw [commanded, afterCommandWrite_trace, polled_trace, List.append_assoc]

/-- What a transaction appends to `TRACE`. -/
theorem ReadOutcome.events {f p b r : Word} {s t : State} (h : ReadOutcome f p b r s t) :
    ∃ evs, t.trace = s.trace ++ evs ∧ ReadEvents b (readCmd s.params f p r) s.params.nPoll evs t.status := by
  cases h with
  | busy h => exact ⟨_, afterReads_trace _ _ _, .polls _ _ _ (Nat.le_refl _) (by simp [readEnd])⟩
  | preAbort k h => exact ⟨_, polled_trace b k s, .polls _ _ _ h.lt (by simp [readEnd])⟩
  | commandFails k h hw => exact ⟨_, commanded_trace f p b r k s, by rw [hw]; exact .write k s h⟩
  | readTimeout k h hw hf =>
    refine ⟨_, (afterReads_trace _ _ _).trans ?_, .polls2 k s.params.nPoll s (commanded f p b r k s) _ h (Nat.le_refl _) (by simp [readEnd])⟩
    rw [commanded_trace, hw, List.append_assoc]; rfl
  | postAbort k j h hw h2 =>
    refine ⟨_, (polled_trace b j _).trans ?_, .polls2 k (j + 1) s (commanded f p b r k s) _ h h2.lt (by simp [readEnd])⟩
    rw [commanded_trace, hw, List.append_assoc]
  | resultFails k j h hw h2 ha =>
    refine ⟨_, ?_, .result k j s (commanded f p b r k s)
      (readAns (regAddr b offRoData) (polled b j (commanded f p b r k s))).word false h h2⟩
    show (afterRead _ _).trace = _
    rw [afterRead_trace, polled_trace, commanded_trace, hw, ha]
    simp only [List.append_assoc]
  | done k j h hw h2 ha =>
    refine ⟨_, ?_, .result k j s (commanded f p b r k s)
      (readAns (regAddr b offRoData) (polled b j (commanded f p b r k s))).word true h h2⟩
    show (afterRead _ _).trace = _
    rw [afterRead_trace, polled_trace, commanded_trace, hw, ha]
    simp only [List.append_assoc]

/-! ## The three ends of `WAIT_READY`'s loop -/

/-- The registers of `WAIT_READY` in its loop. -/
def midWait (cnt sleeps : Nat) (s : State) : State := { s with cnt := cnt, cntValued := true, sleeps := sleeps }

/-- What `WAIT_READY` ends with over the state its reads left: the count, the sleeps, the count returned, the status. -/
def waitEnd (cnt sleeps ret : Nat) (st : Status) (s : State) : State :=
  { midWait cnt sleeps s with status := st, returned := some ⟨.count ret, st⟩ }

theorem waitLoop_failed {b : Word} {k : Nat} {s : State} (hk : k ≤ s.params.nPoll)
    (hf : failedPolls (regAddr b offRwctrl) k s) :
    waitLoop b s.params.nPoll (loadCount s) = waitLoop b (s.params.nPoll - k)
      (rebus (midWait (s.params.nPoll - k) (s.sleeps + min k (s.params.nPoll - 1)) s)
        (afterReads (regAddr b offRwctrl) k s)) := by
  refine (waitLoop_polls (s := loadCount s) rfl hk fun j hj => by
    rw [pollAns_congr (s := loadCount s) (t := s) (regAddr b offRwctrl) rfl rfl rfl j]; exact hf j hj).trans ?_
  congr 1
  have := afterReads_rebus (x := loadCount s) (y := s) (regAddr b offRwctrl) rfl k
  rw [show rebus (loadCount s) s = loadCount s from rfl] at this
  rw [pollsDone, this]
  rfl

/-- `WAIT_READY` observes ready at poll `k`. -/
theorem waitLoop_ready {b : Word} {k : Nat} {s : State} (h : ReadyAt b s.params.nPoll k s) :
    waitLoop b s.params.nPoll (loadCount s) =
      waitEnd (s.params.nPoll - k) (s.sleeps + k) (s.params.nPoll - k) .ok (polled b k s) := by
  have hlt := h.lt
  rw [waitLoop_failed (Nat.le_of_lt h.lt) h.failed, Nat.min_eq_left (show k ≤ s.params.nPoll - 1 by omega)]
  obtain ⟨m, hm⟩ : ∃ m, s.params.nPoll - k = m + 1 := ⟨s.params.nPoll - k - 1, by omega⟩
  have hs : rebus s (polled b k s) = polled b k s := rebus_afterReads _ _ rfl
  rw [hm, waitLoop]
  simp only [readAns_rebus (x := midWait (m + 1) (s.sleeps + k) s) (y := afterReads (regAddr b offRwctrl) k s)
    (regAddr b offRwctrl) (by simp [midWait]), show readAns (regAddr b offRwctrl) (afterReads (regAddr b offRwctrl) k s) =
    pollAns (regAddr b offRwctrl) k s from rfl, pollVerdict_ready.mpr h.ready]
  rw [afterRead_rebus _ (by simp [midWait]), ← hs]
  rfl

/-- `WAIT_READY` meets a bus error at poll `k`. -/
theorem waitLoop_abort {b : Word} {k : Nat} {s : State} (h : AbortAt b s.params.nPoll k s) :
    waitLoop b s.params.nPoll (loadCount s) =
      waitEnd (s.params.nPoll - k) (s.sleeps + k) 0 .busError (polled b k s) := by
  have hlt := h.lt
  rw [waitLoop_failed (Nat.le_of_lt h.lt) h.failed, Nat.min_eq_left (show k ≤ s.params.nPoll - 1 by omega)]
  obtain ⟨m, hm⟩ : ∃ m, s.params.nPoll - k = m + 1 := ⟨s.params.nPoll - k - 1, by omega⟩
  have hs : rebus s (polled b k s) = polled b k s := rebus_afterReads _ _ rfl
  have hp : (rebus (midWait (m + 1) (s.sleeps + k) s) (afterReads (regAddr b offRwctrl) k s)).params = s.params := rfl
  rw [hm, waitLoop]
  simp only [readAns_rebus (x := midWait (m + 1) (s.sleeps + k) s) (y := afterReads (regAddr b offRwctrl) k s)
    (regAddr b offRwctrl) (by simp [midWait]), show readAns (regAddr b offRwctrl) (afterReads (regAddr b offRwctrl) k s) =
    pollAns (regAddr b offRwctrl) k s from rfl, hp, pollVerdict_abort.mpr h.abort]
  rw [afterRead_rebus _ (by simp [midWait]), ← hs]
  rfl

/-- `WAIT_READY` times out. -/
theorem waitLoop_timeout {b : Word} {s : State} (h : failedPolls (regAddr b offRwctrl) s.params.nPoll s) :
    waitLoop b s.params.nPoll (loadCount s) =
      waitEnd 0 (s.sleeps + (s.params.nPoll - 1)) 0 .timeout (afterReads (regAddr b offRwctrl) s.params.nPoll s) := by
  have hs : rebus s (afterReads (regAddr b offRwctrl) s.params.nPoll s) = afterReads (regAddr b offRwctrl) s.params.nPoll s :=
    rebus_afterReads _ _ rfl
  rw [waitLoop_failed (Nat.le_refl _) h, Nat.min_eq_right (by omega), Nat.sub_self, waitLoop, ← hs]
  rfl

end Sys2Proof.Machine
end

