-- ==== Sys2Proof/Laws/Detect.lean ====
section
/-! SUPPORT. What a transaction leaves alone, what each part of `DETECT` can do, and how a property goes through all of
`DETECT`. -/

namespace Sys2Proof.Machine

/-! ## Frames of a transaction -/

/-- What every transaction and every part of `DETECT` keeps or only extends. -/
structure BusFrame (s t : State) : Prop where
  trace  : s.trace <+: t.trace
  diag   : s.diag <+: t.diag
  cycles : s.cycles <+: t.cycles
  params : t.params = s.params
  inbox  : t.inbox = s.inbox

theorem BusFrame.refl (s : State) : BusFrame s s :=
  ⟨List.prefix_refl _, List.prefix_refl _, List.prefix_refl _, rfl, rfl⟩

theorem BusFrame.trans {s t u : State} (h : BusFrame s t) (h' : BusFrame t u) : BusFrame s u :=
  ⟨h.trace.trans h'.trace, h.diag.trans h'.diag, h.cycles.trans h'.cycles, h'.params.trans h.params,
    h'.inbox.trans h.inbox⟩

theorem PhaseFrame.busFrame {s t : State} (h : PhaseFrame s t) : BusFrame s t :=
  ⟨by obtain ⟨evs, e, -⟩ := h.trace; exact ⟨evs, e.symm⟩, h.diag, h.cycles, h.params, h.inbox⟩

theorem afterRead_busFrame (addr : Word) (s : State) : BusFrame s (afterRead addr s) := by
  constructor <;> simp

/-- A transaction extends the streams and touches neither the record, the staging area nor what is presented. -/
theorem transaction_frame (f p b r : Word) (s : State) :
    BusFrame s (transaction f p b r s) ∧ (transaction f p b r s).out = s.out ∧
      (transaction f p b r s).stage = s.stage := by
  refine runPhases_induct (P := fun t => BusFrame s t ∧ t.out = s.out ∧ t.stage = s.stage) ?_ _ _ ?_
  · rintro t - ⟨h, ho, hs⟩
    have hp := phaseNext_frame t
    exact ⟨h.trans hp.busFrame, hp.out.trans ho, hp.stage.trans hs⟩
  · exact ⟨⟨List.prefix_refl _, List.prefix_refl _, List.prefix_refl _, rfl, rfl⟩, rfl, rfl⟩

/-- The diagnostic a status stands for (R30, D8). -/
def statusDiag : Status → List Diag
  | .busy => [.busy]
  | .readTimeout => [.readTimeout]
  | _ => []

/-- A transaction returns its result and its status, and emits the diagnostic its status stands for. -/
theorem ReadOutcome.ends {f p b r : Word} {s t : State} (h : ReadOutcome f p b r s t) :
    t.returned = some ⟨.value t.result, t.status⟩ ∧ t.resultValued = true ∧ (t.status ≠ .ok → t.result = 0) ∧
      t.status ≠ .none ∧ t.diag = s.diag ++ statusDiag t.status := by
  cases h <;> simp [readEnd, statusDiag, polled, commanded]

/-! ## The parts of `DETECT` -/

/-- Step 4: with `good` at its end the identifier is staged and no diagnostic was emitted; else nothing is staged. -/
theorem detectIds_spec (fdiv : BitVec 3) (u base : Word) (s : State) :
    BusFrame s (detectIds fdiv u base s).2 ∧ (detectIds fdiv u base s).2.out = s.out ∧
    (detectIds fdiv u base s).2.phase = .idle ∧
    (((detectIds fdiv u base s).1 = false ∧ (detectIds fdiv u base s).2.stage = s.stage) ∨
      ((detectIds fdiv u base s).1 = true ∧ (∃ id, (detectIds fdiv u base s).2.stage = s.stage ++ [.phyId id]) ∧
        (detectIds fdiv u base s).2.diag = s.diag)) := by
  obtain ⟨f1, o1, s1⟩ := transaction_frame (fdiv.setWidth 32) u base 0x02 s
  have e1 := (transaction_outcome (fdiv.setWidth 32) u base 0x02 s).ends
  have i1 := transaction_idle (fdiv.setWidth 32) u base 0x02 s
  unfold detectIds
  dsimp only
  generalize transaction (fdiv.setWidth 32) u base 0x02 s = t1 at f1 o1 s1 e1 i1 ⊢
  obtain ⟨f2, o2, s2⟩ := transaction_frame (fdiv.setWidth 32) u base 0x03 t1
  have e2 := (transaction_outcome (fdiv.setWidth 32) u base 0x03 t1).ends
  have i2 := transaction_idle (fdiv.setWidth 32) u base 0x03 t1
  generalize transaction (fdiv.setWidth 32) u base 0x03 t1 = t2 at f2 o2 s2 e2 i2 ⊢
  have f12 := f1.trans f2
  by_cases g1 : t1.status = .ok
  · by_cases g2 : t2.status = .ok
    · simp only [g1, g2, proceed, beq_self_eq_true, Bool.true_or, Bool.and_self, if_true]
      refine ⟨⟨f12.trace, f12.diag, f12.cycles, f12.params, f12.inbox⟩, by simp [o1, o2], by simp [i2],
        .inr ⟨trivial, ⟨phyIdOf t1.result t2.result, by simp [s1, s2]⟩, ?_⟩⟩
      have := e2.2.2.2.2; have := e1.2.2.2.2
      simp_all [statusDiag]
    · have hb : (t2.status == Status.ok) = false := by simpa using g2
      simp [g1, hb, proceed, f12, o1, o2, s1, s2, i2]
  · have hb : (t1.status == Status.ok) = false := by simpa using g1
    by_cases hc : (t1.params.onMdioFail == .continueSteps) = true
    · simp [hb, proceed, hc, f12, o1, o2, s1, s2, i2]
    · simp [hb, proceed, hc, f1, o1, s1, i1]

/-- Step 5. -/
theorem detectTarget_spec (base : Word) (good : Bool) (s : State) :
    BusFrame s (detectTarget base good s).2 ∧ (detectTarget base good s).2.out = s.out ∧
    (detectTarget base good s).2.phase = s.phase ∧ (detectTarget base good s).2.diag = s.diag ∧
    (((detectTarget base good s).1 = true → good = true ∧ ∃ d, (detectTarget base good s).2.stage = s.stage ++ [.dMdioPhyaddr d]) ∧
      ∃ l, (detectTarget base good s).2.stage = s.stage ++ l ∧ (l = [] ∨ ∃ d, l = [.dMdioPhyaddr d])) := by
  unfold detectTarget
  dsimp only
  have f := afterRead_busFrame (regAddr base offDPhyaddr) s
  by_cases hp : proceed s.params good = true
  · simp only [hp, if_true]
    cases ha : (readAns (regAddr base offDPhyaddr) s).ok
    · simp [f]
    · refine ⟨⟨f.trace, f.diag, f.cycles, f.params, f.inbox⟩, by simp, by simp, by simp, fun h => ⟨h, ⟨_, rfl⟩⟩, ⟨_, rfl, .inr ⟨_, rfl⟩⟩⟩
  · simp only [hp, Bool.false_eq_true, if_false]
    refine ⟨.refl s, by simp, by simp, by simp, fun h => ?_, ⟨[], by simp⟩⟩
    simp [proceed, h] at hp

/-- The keys a run of the MDIO steps leaves: none, or all three with no diagnostic on the way (R114, R126). -/
def MdioKeys (s t : State) : Prop :=
  t.out = [] ∨ (∃ u id d, t.out = [.uMdioPhyaddr u, .phyId id, .dMdioPhyaddr d]) ∧ t.stage = t.out ∧ t.diag = s.diag

/-- A staging area as the MDIO steps leave it. -/
def StagedKeys (l : List OutEntry) : Prop := recordOrdered l ∧ ∀ e ∈ l, e.isMdio = true

/-- Steps 2 to 5 and the commit, from an empty record and an empty staging area. -/
theorem detectMdio_spec (base : Word) (s : State) (hi : s.phase = .idle) (ho : s.out = []) (hs : s.stage = []) :
    BusFrame s (detectMdio base s) ∧ (detectMdio base s).phase = .idle ∧ MdioKeys s (detectMdio base s) ∧
      StagedKeys (detectMdio base s).stage := by
  unfold detectMdio
  dsimp only
  have f1 := afterRead_busFrame (regAddr base offRwctrl) s
  cases ha : (readAns (regAddr base offRwctrl) s).ok
  · simp only [Bool.false_eq_true, if_false]
    exact ⟨f1, by simpa using hi, .inl (by simpa using ho), by simp [StagedKeys, recordOrdered, hs]⟩
  simp only [if_true]
  unfold detectPhy
  dsimp only
  generalize readDivider (readAns (regAddr base offRwctrl) s).word = fdiv
  generalize hs1 : afterRead (regAddr base offRwctrl) s = s1 at f1 ⊢
  have hi1 : s1.phase = .idle := by rw [← hs1]; exact hi
  have ho1 : s1.out = [] := by rw [← hs1]; exact ho
  have hst1 : s1.stage = [] := by rw [← hs1]; exact hs
  have hd1 : s1.diag = s.diag := by rw [← hs1]; rfl
  have f2 := f1.trans (afterRead_busFrame (regAddr base offUPhyaddr) s1)
  cases hu : (readAns (regAddr base offUPhyaddr) s1).ok
  · simp only [Bool.false_eq_true, if_false]
    generalize hs2 : afterRead (regAddr base offUPhyaddr) s1 = s2 at f2 ⊢
    obtain ⟨f3, o3, i3, d3, hg, l, hl, hk⟩ := detectTarget_spec base false s2
    generalize detectTarget base false s2 = r5 at f3 o3 i3 d3 hg hl ⊢
    have hst2 : s2.stage = [] := by rw [← hs2]; exact hst1
    have hr : r5.1 = false := by
      cases h : r5.1
      · rfl
      · exact absurd (hg h).1 (by simp)
    simp only [commitStage, hr, Bool.false_eq_true, if_false]
    refine ⟨f2.trans f3, by rw [i3, ← hs2]; exact hi1, .inl (by rw [o3, ← hs2]; exact ho1), ?_⟩
    rw [hl, hst2]
    rcases hk with rfl | ⟨d, rfl⟩ <;> simp [StagedKeys, recordOrdered, OutEntry.rank, OutEntry.isMdio]
  · simp only [if_true]
    generalize (readAns (regAddr base offUPhyaddr) s1).word = u
    obtain ⟨f3, o3, i3, h3⟩ := detectIds_spec fdiv u base (stageEntry (.uMdioPhyaddr u) (afterRead (regAddr base offUPhyaddr) s1))
    have f13 : BusFrame s (detectIds fdiv u base (stageEntry (.uMdioPhyaddr u) (afterRead (regAddr base offUPhyaddr) s1))).2 :=
      f2.trans ⟨f3.trace, f3.diag, f3.cycles, f3.params, f3.inbox⟩
    generalize detectIds fdiv u base (stageEntry (.uMdioPhyaddr u) (afterRead (regAddr base offUPhyaddr) s1)) = r4 at o3 i3 h3 f13 ⊢
    obtain ⟨f5, o5, i5, d5, hg, l, hl, hk⟩ := detectTarget_spec base r4.1 r4.2
    generalize detectTarget base r4.1 r4.2 = r5 at f5 o5 i5 d5 hg hl ⊢
    have ho5 : r5.2.out = [] := by rw [o5, o3]; simpa using ho1
    have hst : StagedKeys r5.2.stage := by
      rcases h3 with ⟨-, e⟩ | ⟨-, ⟨id, e⟩, -⟩ <;> rcases hk with rfl | ⟨d, rfl⟩ <;> rw [hl, e] <;>
        simp [StagedKeys, recordOrdered, OutEntry.rank, OutEntry.isMdio, hst1]
    unfold commitStage
    cases hr : r5.1
    · simp only [Bool.false_eq_true, if_false]
      exact ⟨f13.trans f5, i5.trans i3, .inl ho5, hst⟩
    · simp only [if_true]
      have f := f13.trans f5
      refine ⟨⟨f.trace, f.diag, f.cycles, f.params, f.inbox⟩, i5.trans i3, .inr ?_, hst⟩
      obtain ⟨hr4, d, hd⟩ := hg hr
      rcases h3 with ⟨h, -⟩ | ⟨-, ⟨id, e⟩, hdiag⟩
      · rw [h] at hr4; cases hr4
      · refine ⟨⟨u, id, d, ?_⟩, by simp [ho5], ?_⟩
        · simp [ho5, hd, e, hst1]
        · simp only [d5, hdiag]; simpa using hd1

/-- Steps 1 to 5. -/
theorem detectController_spec (gen : Word) (s : State) (hi : s.phase = .idle) (ho : s.out = []) (hs : s.stage = []) :
    BusFrame s (detectController gen s) ∧ (detectController gen s).phase = .idle ∧ MdioKeys s (detectController gen s) ∧
      StagedKeys (detectController gen s).stage := by
  unfold detectController
  split
  · exact ⟨.refl s, hi, .inl ho, by simp [StagedKeys, recordOrdered, hs]⟩
  · exact detectMdio_spec _ s hi ho hs

/-! ## A property through all of `DETECT` -/

/-- A property of states that the accesses, the transactions and the record-keeping of steps 2 to 5 keep holds after
them. -/
theorem detectMdio_induct {P : State → Prop} (base : Word) (s : State)
    (read : ∀ off s, off = offRwctrl ∨ off = offUPhyaddr ∨ off = offDPhyaddr → P s → P (afterRead (regAddr base off) s))
    (trans : ∀ f p r s, P s → P (transaction f p base r s))
    (stage : ∀ e s, P s → P (stageEntry e s)) (commit : ∀ g s, P s → P (commitStage g s)) (h : P s) :
    P (detectMdio base s) := by
  have ids : ∀ fdiv u s, P s → P (detectIds fdiv u base s).2 := by
    intro fdiv u s h
    have h1 := trans (fdiv.setWidth 32) u 0x02 s h
    have h2 := trans (fdiv.setWidth 32) u 0x03 _ h1
    unfold detectIds
    simp only
    split
    · simp only; split
      · exact stage _ _ h2
      · exact h2
    · exact h1
  have target : ∀ good s, P s → P (detectTarget base good s).2 := by
    intro good s h
    have h1 := read offDPhyaddr s (by simp) h
    unfold detectTarget
    simp only
    split
    · split
      · exact stage _ _ h1
      · exact h1
    · exact h
  have h1 := read offRwctrl s (by simp) h
  unfold detectMdio
  simp only
  split
  · unfold detectPhy
    have h2 := read offUPhyaddr _ (by simp) h1
    apply commit
    apply target
    split
    · exact ids _ _ _ (stage _ _ h2)
    · exact h2
  · exact h1

/-! ## The strap step and the whole of `DETECT` -/

theorem afterStrapRead_busFrame (gen : Word) (s : State) : BusFrame s (afterStrapRead gen s) := by
  unfold afterStrapRead; split
  · exact .refl s
  · exact afterRead_busFrame _ s

/-- The strap query writes `STATUS`, what it returns, and the bus side. -/
theorem strapOp_eq (gen : Word) (s : State) : strapOp gen s =
    { rebus s (afterStrapRead gen s) with
      status := (strapQuery gen s).2, returned := some ⟨.mode (strapQuery gen s).1, (strapQuery gen s).2⟩ } := by
  unfold strapOp afterStrapRead finishOp; split <;> rfl

theorem strapQuery_status (gen : Word) (s : State) : (strapQuery gen s).2 ≠ .none := by
  unfold strapQuery; split
  · simp
  · dsimp only; split <;> simp

/-- `DETECT` as an operation: the MDIO keys, then the strap query's state with `phy-mode` appended when it is known. -/
theorem detectOp_eq (gen : Word) (s : State) : detectOp gen s =
    detectEnd (detectController gen (freshRecord s)).out
      (strapQuery gen (detectController gen (freshRecord s))).1 (strapOp gen (detectController gen (freshRecord s))) := by
  unfold detectOp detectStrap detectEnd
  generalize detectController gen (freshRecord s) = t
  have ho : (strapOp gen t).out = t.out := by rw [strapOp_eq]; rfl
  dsimp only
  split <;> simp_all [finishOp]

end Sys2Proof.Machine
end

