-- ==== Sys2Proof/Laws/PerInstr.lean ====
section
/-! SUPPORT. Facts about every instruction as syntax, one lemma per constructor. -/

namespace Sys2Proof.Laws.EncodeShape

/-- What the encoder writes for an instruction is a well-formed presented term (R79, R70). -/
def Statement (i : Sys2Proof.Instr) : Prop := (Sys2Proof.encode i).wf = true

theorem composeCtrl (a b c d e f g : Sys2Proof.Word) : Statement (.composeCtrl a b c d e f g) := rfl

theorem decodeCtrl (a : Sys2Proof.Word) : Statement (.decodeCtrl a) := rfl

theorem waitReady (a : Sys2Proof.Word) : Statement (.waitReady a) := rfl

theorem startRead (a b c d : Sys2Proof.Word) : Statement (.startRead a b c d) := rfl

theorem readResult (a : Sys2Proof.Word) : Statement (.readResult a) := rfl

theorem mdioRead (a b c d : Sys2Proof.Word) : Statement (.mdioRead a b c d) := rfl

theorem selectMap (a : Sys2Proof.Word) : Statement (.selectMap a) := rfl

theorem decodeStrap (a b : Sys2Proof.Word) : Statement (.decodeStrap a b) := rfl

theorem readStrap (a : Sys2Proof.Word) : Statement (.readStrap a) := rfl

theorem detect (a : Sys2Proof.Word) : Statement (.detect a) := rfl

theorem mdioCmdRead (a : BitVec 5) (b : BitVec 3) (c : BitVec 5) : Statement (.mdioCmdRead a b c) := by
  simp [Statement, Sys2Proof.encode, Sys2Proof.Presented.wf, Sys2Proof.isReadCommand_iff, Sys2Proof.wordFields_fieldsWord]

theorem mdioCmdWrite (a : BitVec 16) (b c : BitVec 1) (d : BitVec 5) (e : BitVec 3) (f : BitVec 5) :
    Statement (.mdioCmdWrite a b c d e f) := by
  simp [Statement, Sys2Proof.encode, Sys2Proof.Presented.wf, Sys2Proof.isWriteCommand_iff, Sys2Proof.wordFields_fieldsWord]

end Sys2Proof.Laws.EncodeShape
end

