-- ==== Sys2Proof/Laws/Step.lean ====
section
/-! SUPPORT. What each operation computes from `Idle`, what every instruction leaves alone, and the ways one step can
answer a next state. -/

namespace Sys2Proof.Machine

/-! ## Every operation run from `Idle` -/

/-- What the operations of R78 compute from `Idle`. -/
def opEffect (i : Instr) (s : State) : State :=
  match i with
  | .composeCtrl d f r rw ex fd inn => finishOp (.word (composeWord d f r rw ex fd inn)) .ok s
  | .decodeCtrl w => finishOp (.fields (wordFields w)) .ok s
  | .waitReady base => waitLoop base s.params.nPoll (loadCount s)
  | .startRead base f p r =>
    let ok := writeOk (regAddr base offRwctrl) (readCmd s.params f p r) s
    finishOp (if ok then .none else .value 0) (if ok then .ok else .busError)
      (afterCommandWrite (regAddr base offRwctrl) (readCmd s.params f p r) s)
  | .readResult base =>
    if (readAns (regAddr base offRoData) s).ok
    then finishOp (.value (narrowResult (readAns (regAddr base offRoData) s).word)) .ok
      (setResult (narrowResult (readAns (regAddr base offRoData) s).word) (afterRead (regAddr base offRoData) s))
    else finishOp (.value 0) .busError (setResult 0 (afterRead (regAddr base offRoData) s))
  | .mdioRead f p b r => transaction f p b r s
  | .selectMap g => finishOp (.map (genRecord s.params g).mdioBase (genRecord s.params g).strap) .ok s
  | .decodeStrap g c => finishOp (.mode (strapMode s.params g c)) .ok s
  | .readStrap g => strapOp g s
  | .detect g => detectOp g s
  | .mdioCmdRead _ _ _ | .mdioCmdWrite _ _ _ _ _ _ => s

theorem exec_operation {i : Instr} (h : isOperation i = true) (s : State) : exec i s = whenIdle s (opEffect i s) := by
  cases i <;> first | rfl | (cases h)

/-- A next state of an instruction: an operation's effect, or a command word at the controller. -/
theorem exec_next {i : Instr} {s t : State} (h : exec i s = .next t) :
    (isOperation i = true ∧ s.phase = .idle ∧ t = opEffect i s) ∨
    (isOperation i = false ∧ ∃ cy b, t = { s with cycles := s.cycles ++ cy, bus := b }) := by
  by_cases hi : isOperation i = true
  · rw [exec_operation hi] at h
    obtain ⟨h1, h2⟩ := whenIdle_next.mp h
    exact .inl ⟨hi, h1, h2.symm⟩
  · refine .inr ⟨by simpa using hi, ?_⟩
    cases i <;> first | (exact absurd rfl hi) | skip
    · cases h; exact ⟨_, _, rfl⟩
    · simp only [exec, execMdioCmdWrite] at h
      split at h <;> cases h
      exact ⟨[], _, by simp; rfl⟩

/-- The poll loop moves only the bus side, `CNT`, the sleeps, and what an operation ends with. -/
theorem waitLoop_shape (base : Word) (n : Nat) (s : State) : ∃ y c sl st r,
    waitLoop base n s = { rebus s y with cnt := c, sleeps := sl, status := st, returned := some ⟨.count r, st⟩ } ∧
      BusFrame s y ∧ y.cycles = s.cycles ∧ st ≠ .none ∧ (s.cnt = n → c ≤ n) := by
  induction n generalizing s with
  | zero => exact ⟨s, s.cnt, s.sleeps, .timeout, 0, rfl, .refl s, rfl, by simp, fun h => h ▸ Nat.le_refl _⟩
  | succ k ih =>
    have f := afterRead_busFrame (regAddr base offRwctrl) s
    rw [waitLoop]
    split
    · exact ⟨afterRead (regAddr base offRwctrl) s, s.cnt, s.sleeps, .ok, s.cnt, rfl, f, rfl, by simp, fun h => h ▸ Nat.le_refl _⟩
    · exact ⟨afterRead (regAddr base offRwctrl) s, s.cnt, s.sleeps, .busError, 0, rfl, f, rfl, by simp, fun h => h ▸ Nat.le_refl _⟩
    · obtain ⟨y, c, sl, st, r, e, fy, hcy, hst, hc⟩ := ih (failedPoll (afterRead (regAddr base offRwctrl) s))
      refine ⟨y, c, sl, st, r, by rw [e]; rfl, f.trans ⟨fy.trace, fy.diag, fy.cycles, fy.params, fy.inbox⟩, hcy, hst, fun h => ?_⟩
      have := hc (by simp [h]); omega

theorem afterCommandWrite_busFrame (addr w : Word) (s : State) : BusFrame s (afterCommandWrite addr w s) := by
  constructor <;> simp [afterCommandWrite_cycles]
  split <;> simp

/-- An operation extends the streams, ends in `Idle` with a status and a result, and keeps what is presented. -/
theorem opEffect_frame {i : Instr} (hi : isOperation i = true) {s : State} (h : s.phase = .idle) :
    BusFrame s (opEffect i s) ∧ (opEffect i s).phase = .idle ∧ (opEffect i s).status ≠ .none ∧
      ∃ v, (opEffect i s).returned = some ⟨v, (opEffect i s).status⟩ := by
  have fin : ∀ v st t, st ≠ Status.none → BusFrame s t → t.phase = .idle → BusFrame s (finishOp v st t) ∧
      (finishOp v st t).phase = .idle ∧ (finishOp v st t).status ≠ .none ∧
      ∃ v', (finishOp v st t).returned = some ⟨v', (finishOp v st t).status⟩ :=
    fun v st t hst f hp => ⟨⟨f.trace, f.diag, f.cycles, f.params, f.inbox⟩, hp, hst, v, rfl⟩
  cases i <;> try (cases hi; done)
  case composeCtrl => exact fin _ _ _ (by simp) (.refl s) h
  case decodeCtrl => exact fin _ _ _ (by simp) (.refl s) h
  case selectMap => exact fin _ _ _ (by simp) (.refl s) h
  case decodeStrap => exact fin _ _ _ (by simp) (.refl s) h
  case readStrap g =>
    exact fin _ _ _ (strapQuery_status g s) (afterStrapRead_busFrame g s) (by unfold afterStrapRead; split <;> simpa using h)
  case startRead =>
    exact fin _ _ _ (by split <;> simp) (afterCommandWrite_busFrame _ _ s) (by simpa using h)
  case readResult b =>
    have f := afterRead_busFrame (regAddr b offRoData) s
    simp only [opEffect]
    split
    · exact fin _ _ _ (by simp) ⟨f.trace, f.diag, f.cycles, f.params, f.inbox⟩ (by simpa using h)
    · exact fin _ _ _ (by simp) ⟨f.trace, f.diag, f.cycles, f.params, f.inbox⟩ (by simpa using h)
  case waitReady b =>
    obtain ⟨y, c, sl, st, r, e, f, -, hst, -⟩ := waitLoop_shape b s.params.nPoll (loadCount s)
    simp only [opEffect, e]
    exact ⟨⟨f.trace, List.prefix_refl _, f.cycles, rfl, rfl⟩, h, hst, _, rfl⟩
  case mdioRead f p b r =>
    have e := (transaction_outcome f p b r s).ends
    exact ⟨(transaction_frame f p b r s).1, transaction_idle f p b r s, e.2.2.2.1, _, e.1⟩
  case detect g =>
    obtain ⟨f, hi, -, -⟩ := detectController_spec g (freshRecord s) h rfl rfl
    simp only [opEffect, detectOp_eq]
    generalize detectController g (freshRecord s) = t at f hi
    have f' : BusFrame s t := ⟨f.trace, f.diag, f.cycles, f.params, f.inbox⟩
    have f2 := f'.trans (afterStrapRead_busFrame g t)
    rw [strapOp_eq]
    exact ⟨⟨f2.trace, f'.diag, f2.cycles, f'.params, f'.inbox⟩, hi, by simp [detectEnd], _, rfl⟩

/-- An instruction leaves `PHASE` as it was. -/
theorem exec_phase {i : Instr} {s t : State} (h : exec i s = .next t) : t.phase = s.phase := by
  rcases exec_next h with ⟨hi, hp, rfl⟩ | ⟨-, cy, b, rfl⟩
  · exact (opEffect_frame hi hp).2.1.trans hp.symm
  · rfl

theorem exec_busFrame {i : Instr} {s t : State} (h : exec i s = .next t) : BusFrame s t := by
  rcases exec_next h with ⟨hi, hp, rfl⟩ | ⟨-, cy, b, rfl⟩
  · exact (opEffect_frame hi hp).1
  · exact ⟨List.prefix_refl _, List.prefix_refl _, List.prefix_append _ _, rfl, rfl⟩

/-! ## One step -/

/-- A read-class word outside the rows is taken as a read command or refused, and nothing else. -/
theorem takeReadClass_cases (w : Word) (s : State) : takeReadClass w s = .next (takeReadCommand w s) ∨
    takeReadClass w s = .refused .finishOrReservedWritten := by
  unfold takeReadClass; dsimp only; split
  · exact .inl rfl
  · split <;> simp

/-- A presented read command adds its cycle and moves the primitive only. -/
theorem takeReadCommand_busFrame (w : Word) (s : State) : BusFrame s (takeReadCommand w s) :=
  ⟨List.prefix_refl _, List.prefix_refl _, List.prefix_append _ _, rfl, rfl⟩

/-- The ways to a next state. -/
theorem step_next {s t : State} (h : step s = .next t) :
    (s.phase ≠ .idle ∧ valuelessRead s = none ∧ t = phaseNext s) ∨
    (s.phase = .idle ∧ s.inbox = [] ∧ t = s) ∨
    (s.phase = .idle ∧ ∃ p rest, s.inbox = p :: rest ∧
      ((∃ i, decode p = .instr i ∧ exec i { s with inbox := rest } = .next t) ∨
        (decode p = .illegal ∧ t = illegalDescriptor { s with inbox := rest }) ∨
        ∃ w, decode p = .readClass w ∧ t = takeReadCommand w { s with inbox := rest })) := by
  unfold step at h
  by_cases hp : s.phase = .idle
  · rw [if_pos hp] at h
    unfold fetch at h
    cases hi : s.inbox with
    | nil => simp [hi] at h; exact .inr (.inl ⟨hp, rfl, h.symm⟩)
    | cons p rest =>
      simp only [hi] at h
      refine .inr (.inr ⟨hp, p, rest, rfl, ?_⟩)
      cases hd : decode p <;> simp only [hd] at h <;> first | (cases h; done) | skip
      · exact .inl ⟨_, rfl, h⟩
      · exact .inr (.inl ⟨rfl, by cases h; rfl⟩)
      · rename_i w
        rcases takeReadClass_cases w { s with inbox := rest } with e | e <;> rw [e] at h <;> cases h
        exact .inr (.inr ⟨w, rfl, rfl⟩)
  · rw [if_neg hp] at h
    unfold phaseStep at h
    split at h <;> cases h
    exact .inl ⟨hp, ‹_›, rfl⟩

/-! ## Runs of single steps -/

/-- A transition keeps the values the transaction's registers have. -/
theorem phaseNext_valued {s : State} (hc : s.cntValued = true) : (phaseNext s).cntValued = true := by
  have poll : ∀ onReady tag st, (pollPhase onReady tag st s).cntValued = true := by
    intro onReady tag st
    rcases pollPhase_cases onReady tag st s with ⟨-, h⟩ | ⟨-, -, h⟩ | ⟨-, -, h⟩ | ⟨-, -, h⟩ <;> simp [h, hc]
  unfold phaseNext
  split
  · exact hc
  · exact poll _ _ _
  · rcases commandPhase_cases s with ⟨-, h⟩ | ⟨-, h⟩ <;> simp [h, hc]
  · exact poll _ _ _
  · rcases resultPhase_cases s with ⟨-, h⟩ | ⟨-, h⟩ <;> simp [h, hc]
  · simpa using hc

/-- A valueless read is of `CNT` in a poll phase, or of a latch; in a poll phase, of a latch only when `CNT` is not 0. -/
theorem valuelessRead_some {s : State} {r : EngineReg} (h : valuelessRead s = some r) :
    (r = .cnt ∧ s.cntValued = false ∧ (s.phase = .waitReadyPre ∨ s.phase = .waitReadyPost)) ∨
    (r = .base ∧ s.latchesValued = false ∧
      ((s.phase = .waitReadyPre ∨ s.phase = .waitReadyPost) → s.cntValued = true ∧ s.cnt ≠ 0)) := by
  unfold valuelessRead at h
  cases hp : s.phase <;> simp only [hp] at h <;> repeat' split at h
  all_goals simp_all

/-- With the transaction's registers valued, a step in a phase is its transition. -/
theorem step_of_busy {s : State} (hp : s.phase ≠ .idle) (hc : s.cntValued = true) (hl : s.latchesValued = true) :
    step s = .next (phaseNext s) := by
  have : valuelessRead s = none := by cases h : s.phase <;> simp [valuelessRead, h, hc, hl]
  rw [step, if_neg hp, phaseStep, this]

/-- A run of transitions is a run of single steps. -/
theorem run_runPhases (k : Nat) {s : State} (hc : s.cntValued = true) (hl : s.latchesValued = true) :
    ∃ j ≤ k, Host.Core.run core j s = .next (runPhases k s) := by
  induction k generalizing s with
  | zero => exact ⟨0, Nat.le_refl 0, rfl⟩
  | succ k ih =>
    by_cases hp : s.phase = .idle
    · exact ⟨0, Nat.zero_le _, by simp [hp, Host.Core.run]⟩
    · obtain ⟨j, hj, e⟩ := ih (phaseNext_valued hc) ((phaseNext_frame s).latch.trans hl)
      refine ⟨j + 1, by omega, ?_⟩
      have hs : core.step s = .next (phaseNext s) := step_of_busy hp hc hl
      rw [runPhases_of_busy hp, ← e]
      simp only [Host.Core.run, hs]

end Sys2Proof.Machine
end

