-- ==== Sys2Proof/Tests/Slice0.lean ====
section
/-! SUPPORT. The model's own tests. Expected values come from the spec: the encoding tables of 30_encoding.md, the vectors
of 95_test_vectors.md (named K, T, W, D, S, P there), and hand calculation from the rules. Then one witness for every
statement of Certificates/Slice0/Obligations.lean that has hypotheses: concrete states and operands that meet them. -/

namespace Sys2Proof.Tests

open Sys2Proof Sys2Proof.Machine

/-! ## Helpers -/

/-- The spec's parameters with a small poll bound and the strap fields at bit 0. -/
def params (n : Nat) : Params := { nPoll := n, strapLsbF := 0, strapLsbG := 0, strapLsbH := 0 }

/-- An answer of a successful read, or of a successful write. -/
def got (v : Word) : Answer := ⟨v, true, true⟩

/-- A failed access. -/
def failed : Answer := ⟨0, false, false⟩

/-- The machine in `Idle` with poll bound `n` and the answers `l` to come. -/
def idle (n : Nat) (l : List Answer) : State := { State.reset with params := params n, bus := .oracle l 0 }

/-- A transaction of operands 3, 5, 0x10090000, 2 in phase `ph` with `CNT = c`. -/
def busy (ph : Phase) (c n : Nat) (l : List Answer) : State :=
  { idle n l with
    phase := ph, cnt := c, cntValued := true, base := 0x10090000, fdiv := 3, paddr := 5, rnum := 2, latchesValued := true }

/-- The reference device of the vectors: base 0x10090000, divider 3. -/
def device (fin : BitVec 1) (lat : Option Nat) (fails : List Nat) : RefDevice := RefParams.initial {
  base := 0x10090000
  strapAddr := none
  lat := []
  latDefault := lat
  phyReg := [((5, 2), 0x0042), ((5, 3), 0x0012)]
  phyDefault := 0
  uVal := 5
  dVal := 3
  strapWord := 0
  fails := fails
  fin0 := fin
  fdv0 := 3
  data0 := 0 }

/-- The machine in `Idle` over that device. -/
def wired (n : Nat) (d : RefDevice) : State := { idle n [] with bus := .reference d }

/-- The outcome is a next state of which `q` holds. -/
def nextSat (o : Host.Outcome State Fault Refusal) (q : State → Bool) : Bool :=
  match o with
  | .next t => q t
  | _ => false

/-- A next state, where there is one. -/
def after (o : Host.Outcome State Fault Refusal) : State :=
  match o with
  | .next t => t
  | _ => State.reset

/-! ## Well-formedness: an ill-formed term for each check -/

theorem test_wf_empty_descriptor : Presented.wf (.descriptor []) = false := by decide
theorem test_wf_op_zero : Presented.wf (.descriptor [0x0]) = false := by decide
theorem test_wf_op_above : Presented.wf (.descriptor [0xB, 0]) = false := by decide
theorem test_wf_header_reserved_bit : Presented.wf (.descriptor [0x12, 0]) = false := by decide
theorem test_wf_short : Presented.wf (.descriptor [0x4, 0x10090000, 3, 5]) = false := by decide
theorem test_wf_overlong : Presented.wf (.descriptor [0x2, 0, 0]) = false := by decide
theorem test_wf_command_outside_classes : Presented.wf (.command 0x00008000) = false := by decide
theorem test_wf_good : Presented.wf (.descriptor [0x4, 0x10090000, 3, 5, 2]) = true ∧
    Presented.wf (.command 0x562) = true ∧ Presented.wf (.command 0x2000) = true := by decide

/-! ## Decoding: words written out from the encoding tables -/

/-- R79: op 0x1, seven argument words; the operands are K6's. -/
theorem test_decode_compose_ctrl : decode (.descriptor [0x1, 0x12345, 2, 3, 2, 0x25, 9, 0x3F]) =
    .instr (.composeCtrl 0x12345 2 3 2 0x25 9 0x3F) := by decide

/-- R79: op 0x2, one argument word. -/
theorem test_decode_decode_ctrl : decode (.descriptor [0x2, 0xDEADBEEF]) = .instr (.decodeCtrl 0xDEADBEEF) := by decide

/-- R79: op 0x3, one argument word. -/
theorem test_decode_wait_ready : decode (.descriptor [0x3, 0x10090000]) = .instr (.waitReady 0x10090000) := by decide

/-- R79: op 0x4, base, freq_div, phy_addr, reg_num. -/
theorem test_decode_start_read : decode (.descriptor [0x4, 0x10090000, 3, 5, 2]) =
    .instr (.startRead 0x10090000 3 5 2) := by decide

/-- R79: op 0x5, one argument word. -/
theorem test_decode_read_result : decode (.descriptor [0x5, 0x10040000]) = .instr (.readResult 0x10040000) := by decide

/-- R79: op 0x6, freq_div, phy_addr, base, reg_num. -/
theorem test_decode_mdio_read : decode (.descriptor [0x6, 3, 5, 0x10090000, 2]) =
    .instr (.mdioRead 3 5 0x10090000 2) := by decide

/-- R79: op 0x7, one argument word. -/
theorem test_decode_select_map : decode (.descriptor [0x7, 6]) = .instr (.selectMap 6) := by decide

/-- R79: op 0x8, gen then code. -/
theorem test_decode_decode_strap : decode (.descriptor [0x8, 7, 4]) = .instr (.decodeStrap 7 4) := by decide

/-- R79: op 0x9, one argument word. -/
theorem test_decode_read_strap : decode (.descriptor [0x9, 5]) = .instr (.readStrap 5) := by decide

/-- R79: op 0xA, one argument word. -/
theorem test_decode_detect : decode (.descriptor [0xA, 0]) = .instr (.detect 0) := by decide

/-- R68: phy_exaddr 5 at 12:8, frq_dv 3 at 7:5, phy_inaddr 2 at 4:0, bits 31:13 zero. -/
theorem test_decode_mdio_cmd_read : decode (.command 0b00000000000000000000010101100010) =
    .instr (.mdioCmdRead 5 3 2) := by decide

/-- R68: cpu_data_in 0xDEAD at 31:16, finish 1, reserved 0, rw 1, phy_exaddr 0x1E, frq_dv 7, phy_inaddr 0x0F (K12). -/
theorem test_decode_mdio_cmd_write : decode (.command 0b11011110101011011011111011101111) =
    .instr (.mdioCmdWrite 0xDEAD 1 0 0x1E 7 0x0F) := by decide

/-- R81: an illegal op, a header bit above 3, a short descriptor. -/
theorem test_decode_rejects : decode (.descriptor [0xB, 0]) = .illegal ∧ decode (.descriptor [0x100A, 0]) = .illegal ∧
    decode (.descriptor [0x6, 3, 5, 0x10090000]) = .short ∧ decode (.descriptor [0x5, 0, 0]) = .overlong ∧
    decode (.command 0x00004562) = .readClass 0x00004562 := by decide

/-- The opcode table's numbering: word 0 in bits 31:0, word 1 in bits 63:32. -/
theorem test_table_word : decodeTableWord 64 (0x10090000 * 2 ^ 32 + 0x3) = some (.waitReady 0x10090000) ∧
    decodeTableWord 32 0x00000562 = some (.mdioCmdRead 5 3 2) ∧ decodeTableWord 32 0x6 = some (.mdioRead 0 0 0 0) := by
  decide

/-- A presented table word runs at the very next step from reset: `SELECT_MAP A`. -/
theorem test_fetch_word : nextSat (step (State.reset.withFetchWord 64 7))
    (fun t => t.returned == some ⟨.map (some 0x10090000) none, .ok⟩) = true := by decide

/-! ## One step of each instruction, against the spec's vectors -/

/-- K6: each field truncated alone. -/
theorem test_compose_ctrl_truncates : nextSat (exec (.composeCtrl 0x12345 2 3 2 0x25 9 0x3F) (idle 3 []))
    (fun t => t.returned == some ⟨.word 0x2345453F, .ok⟩) = true := by decide

/-- K12. -/
theorem test_decode_ctrl_fields : nextSat (exec (.decodeCtrl 0xDEADBEEF) (idle 3 []))
    (fun t => t.returned == some ⟨.fields ⟨0xDEAD, 1, 0, 1, 0x1E, 7, 0x0F⟩, .ok⟩) = true := by decide

/-- T6: only bit 15 counts; the second poll is ready. -/
theorem test_wait_ready_bit_fifteen : nextSat (exec (.waitReady 0x10090000) (idle 1000 [got 0xFFFF7FFF, got 0xFFFFFFFF]))
    (fun t => t.returned == some ⟨.count 999, .ok⟩ && t.sleeps == 1 && t.trace.length == 2) = true := by decide

/-- T12: the poll address wraps to 0x100. -/
theorem test_wait_ready_wraps : nextSat (exec (.waitReady 0xFFFFF000) (idle 1000 [got 0x8000]))
    (fun t => t.trace == [.rd 0x00000100 0x8000 true] && t.cnt == 1000) = true := by decide

/-- W3: the operands truncated to 3, 5, 31. -/
theorem test_start_read_truncates : nextSat (exec (.startRead 0x10050000 0xB 0x25 0x3F) (idle 3 [got 0]))
    (fun t => t.trace == [.wr 0x10051100 0x0000057F true] && t.status == .ok) = true := by decide

/-- W5: the write fails. -/
theorem test_start_read_fails : nextSat (exec (.startRead 0x10090000 3 5 2) (idle 3 [failed]))
    (fun t => t.trace == [.wr 0x10091100 0x00000562 false] && t.returned == some ⟨.value 0, .busError⟩ && t.cycles == []) =
      true := by decide

/-- D1. -/
theorem test_read_result_low_half : nextSat (exec (.readResult 0x10090000) (idle 3 [got 0xABCD1234]))
    (fun t => t.returned == some ⟨.value 0x1234, .ok⟩ && t.result == 0x1234) = true := by decide

/-- D5. -/
theorem test_read_result_fails : nextSat (exec (.readResult 0x10090000) (idle 3 [failed]))
    (fun t => t.returned == some ⟨.value 0, .busError⟩) = true := by decide

/-- T13: the trace and the result. -/
theorem test_mdio_read_trace : nextSat (exec (.mdioRead 3 5 0x10090000 2) (wired 4 (device 1 (some 2) [])))
    (fun t => t.returned == some ⟨.value 0x0042, .ok⟩ && t.diag == [] && t.trace == [.rd 0x10091100 0x8060 true,
      .wr 0x10091100 0x562 true, .rd 0x10091100 0x60 true, .rd 0x10091100 0x60 true, .rd 0x10091100 0x8060 true,
      .rd 0x10091104 0x42 true]) = true := by decide

/-- T15: busy, with no write. -/
theorem test_mdio_read_busy : nextSat (exec (.mdioRead 3 5 0x10090000 2) (wired 3 (device 0 (some 0) [])))
    (fun t => t.returned == some ⟨.value 0, .busy⟩ && t.diag == [.busy] && t.trace.length == 3 && t.sleeps == 2) = true := by
  decide

/-- R104: generation C. -/
theorem test_select_map_c : nextSat (exec (.selectMap 2) (idle 3 []))
    (fun t => t.returned == some ⟨.map (some 0x10050000) none, .ok⟩) = true := by decide

/-- R105: a code above 7. -/
theorem test_select_map_other : nextSat (exec (.selectMap 0xFFFFFFFF) (idle 3 []))
    (fun t => t.returned == some ⟨.map none none, .ok⟩) = true := by decide

/-- S5: H, code 4. -/
theorem test_decode_strap_h : nextSat (exec (.decodeStrap 7 4) (idle 3 []))
    (fun t => t.returned == some ⟨.mode .rmii, .ok⟩) = true := by decide

/-- R107: F with a code its one bit cannot hold, unmasked. -/
theorem test_decode_strap_f_unmasked : nextSat (exec (.decodeStrap 5 4) (idle 3 []))
    (fun t => t.returned == some ⟨.mode .unknown, .ok⟩) = true := by decide

/-- R108's example: G with lsb 0 reading 1. -/
theorem test_read_strap_g : nextSat (exec (.readStrap 6) (idle 3 [got 0xFFFFFFF9]))
    (fun t => t.returned == some ⟨.mode .rgmii, .ok⟩ && t.trace == [.rd 0x200300EC 0xFFFFFFF9 true]) = true := by decide

/-- R108: a failed strap read. -/
theorem test_read_strap_fails : nextSat (exec (.readStrap 5) (idle 3 [failed]))
    (fun t => t.returned == some ⟨.mode .unknown, .busError⟩) = true := by decide

/-- Scenario 4 (P3): the three keys. -/
theorem test_detect_scenario_four : nextSat (exec (.detect 0) (wired 2 (device 1 (some 0) [])))
    (fun t => t.out == [.uMdioPhyaddr 5, .phyId 0x00420012, .dMdioPhyaddr 3] && t.status == .ok) = true := by decide

/-- Scenario 3 (b) with a poll bound of 2: no key, two diagnostics. -/
theorem test_detect_scenario_three : nextSat (exec (.detect 0) (wired 2 (device 0 (some 0) [])))
    (fun t => t.out == [] && t.diag == [.busy, .busy] && t.trace.length == 7) = true := by decide

/-- R70, R133: the command starts cycle number 1 of PHY 5, register 2. -/
theorem test_mdio_cmd_read_starts : nextSat (exec (.mdioCmdRead 5 3 2) (wired 3 (device 1 (some 7) [])))
    (fun t => t.cycles == [⟨5, 2, 3⟩] && t.bus == .reference { device 1 (some 7) [] with fin := 0, n := 1, cnt := some 7, cmd := 0x562 })
      = true := by decide

/-- N9: refused where the controller is not described; R133: the reference device takes the divider only. -/
theorem test_mdio_cmd_write : exec (.mdioCmdWrite 0xDEAD 1 0 0x1E 7 0x0F) (idle 3 []) = .refused .mdioWriteUndescribed ∧
    nextSat (exec (.mdioCmdWrite 0xDEAD 1 0 0x1E 7 0x0F) (wired 3 (device 1 (some 0) [])))
      (fun t => t.bus == .reference { device 1 (some 0) [] with fdv := 7 } && t.cycles == []) = true := ⟨rfl, by decide⟩

/-! ## Witnesses: concrete states and operands that meet the hypotheses of each statement

Named `witness_<statement>`, with a suffix for a clause of its own. -/

/-- A ready answer and a not-ready one (finish bit clear). -/
def yes : Answer := got 0x8060
def no : Answer := got 0x60

/-- The base and the two addresses of generation A's controller the statements name. -/
def baseA : Word := 0x10090000

/-- A hypothetical record of scenario 3 (a): code 8 has a base and a strap map (D24). -/
def bothParams (n : Nat) : Params :=
  { params n with extraRecords := [(8, ⟨some 0x10090000, some ⟨0x200300EC, 3, 0, .T3⟩⟩)] }

def bothIdle (n : Nat) (l : List Answer) : State := { idle n l with params := bothParams n }

/-- A transaction in progress meets the invariant. -/
theorem busy_inv (ph : Phase) (h : ph ≠ .failed) (c n : Nat) (l : List Answer) (hc : c ≤ n) : StateInv (busy ph c n l) :=
  ⟨hc, fun _ => ⟨rfl, rfl⟩, fun e => absurd e h, List.Pairwise.nil, List.not_mem_nil, ⟨List.Pairwise.nil, fun _ h => nomatch h⟩,
    fun h => absurd rfl h⟩

theorem witness_step_keeps_the_invariant : ∃ s t, StateInv s ∧ step s = .next t ∧ s.phase = .waitReadyPost :=
  ⟨busy .waitReadyPost 2 2 [yes], _, busy_inv _ (by decide) _ _ _ (by decide), rfl, rfl⟩

theorem witness_invariant_states_never_fault : StateInv (busy .commandIssued 1 2 [got 0]) :=
  busy_inv _ (by decide) _ _ _ (by decide)

theorem witness_step_runs_the_decoded_instruction :
    let s : State := { idle 2 [] with inbox := [.descriptor [0x2, 0xDEADBEEF], .command 0x562] }
    s.phase = .idle ∧ s.inbox = .descriptor [0x2, 0xDEADBEEF] :: [.command 0x562] ∧
      decode (.descriptor [0x2, 0xDEADBEEF]) = .instr (.decodeCtrl 0xDEADBEEF) := by decide

theorem witness_step_runs_the_decoded_instruction_busy : ∃ t, (busy .resultRead 1 2 [got 0x42]).phase ≠ .idle ∧
    step (busy .resultRead 1 2 [got 0x42]) = .next t := ⟨_, by decide, rfl⟩

theorem witness_nothing_presented : State.reset.phase = .idle ∧ State.reset.inbox = [] := ⟨rfl, rfl⟩

theorem witness_operations_run_to_completion : isOperation (.mdioRead 3 5 0x10090000 2) = true ∧
    (idle 2 []).phase = .idle ∧ (busy .waitReadyPre 1 2 []).phase ≠ .idle := by decide

theorem witness_encode_of_decode : decode (.descriptor [0xA, 0]) = .instr (.detect 0) ∧
    decode (.command 0xFFFFFFFF) = .instr (.mdioCmdWrite 0xFFFF 1 1 31 7 31) := by decide

/-- The headers at the edges: op 0, op 0xB, op 0xF, and bit 4 and bit 31 set. -/
theorem witness_illegal_descriptors :
    (∀ header : Word, ({ idle 2 [] with inbox := [.descriptor (header :: [1])] } : State).inbox =
      .descriptor (header :: [1]) :: []) ∧
    (0x0#32 &&& 0xF#32).toNat = 0 ∧ 0xB ≤ (0xB#32 &&& 0xF#32).toNat ∧ 0xB ≤ (0xF#32 &&& 0xF#32).toNat ∧
    0x12#32 >>> 4 ≠ 0#32 ∧ 0x80000002#32 >>> 4 ≠ 0#32 := ⟨fun _ => rfl, by decide⟩

/-- `FIN0 = 1` with one poll, and `FIN0 = 0`. -/
theorem witness_reference_device_starts : (wired 1 (device 1 none [])).phase = .idle ∧
    (device 1 none []).fails = [] ∧ (device 1 none []).fin0 = 1 ∧ 0 < (wired 1 (device 1 none [])).params.nPoll ∧
    (device 0 none []).fin0 = 0 ∧ (wired 1 (device 0 none [])).bus = .reference (device 0 none []) := by decide

/-- A read-class word with payload only, one with `reserved`, and one with `finish`. -/
theorem witness_read_class :
    ({ idle 2 [] with inbox := [.command 0x00010562] } : State).inbox = .command 0x00010562 :: [] ∧
    (0x00010562 : Word).getLsbD 13 = false ∧ (0x00010562 : Word) &&& 0xFFFFE000#32 ≠ 0#32 ∧
    (0x00010562 : Word).getLsbD 15 = false ∧ (0x00010562 : Word).getLsbD 14 = false ∧
    (0x00004562 : Word).getLsbD 14 = true ∧ (0x00008562 : Word).getLsbD 15 = true := by decide

/-- R37, U13: the payload is no bar to a read command, a written `finish` or `reserved` is. -/
theorem test_read_class :
    nextSat (step { idle 2 [] with inbox := [.command 0xFFFF0562] }) (fun t => t.cycles == [⟨5, 2, 3⟩] && t.inbox == []) =
      true ∧
    step { idle 2 [] with inbox := [.command 0x00008562] } = .refused .finishOrReservedWritten := ⟨by decide, rfl⟩

theorem witness_empty_descriptor : ({ idle 2 [] with inbox := [.descriptor []] } : State).inbox = .descriptor [] :: [] ∧
    (idle 2 []).phase = .idle := ⟨rfl, rfl⟩

theorem witness_fresh_record : genRecord (params 2) 8 = ⟨none, none⟩ := by decide

theorem witness_short_descriptors :
    let s : State := { idle 2 [] with inbox := [.descriptor (0x4 :: [1, 2, 3])] }
    s.phase = .idle ∧ s.inbox = .descriptor (0x4 :: [1, 2, 3]) :: [] ∧ argCount 0x4 = some 4 ∧ [1, 2, (3 : Nat)].length < 4 := by
  decide

theorem witness_overlong_descriptors :
    let s : State := { idle 2 [] with inbox := [.descriptor (0x4 :: [1, 2, 3, 4, 5])] }
    s.phase = .idle ∧ s.inbox = .descriptor (0x4 :: [1, 2, 3, 4, 5]) :: [] ∧ argCount 0x4 = some 4 ∧
      4 < [1, 2, 3, 4, (5 : Nat)].length := by decide

/-- Log 16: `START_READ` with the base moved by 4 writes at the result register, which the device defines for reads only. -/
theorem test_reference_write_elsewhere : nextSat (exec (.startRead 0x10090004 3 5 2) (wired 3 (device 1 (some 0) [])))
    (fun t => t.trace == [.wr 0x10091104 0x562 false] && t.bus == .reference (device 1 (some 0) [])) = true := by decide

/-- The write succeeds, and fails. -/
theorem witness_start_read : writeOk (baseA + 0x1100) (readCmd (params 2) 3 5 2) (idle 2 [got 0]) = true ∧
    writeOk (baseA + 0x1100) (readCmd (params 2) 3 5 2) (idle 2 [failed]) = false := by decide

/-- A failing event and one that is none; each case of the device's step; a strap address and an address of nothing. -/
theorem witness_reference_device_reacts :
    3 ∈ (device 0 none [3]).fails ∧ 2 ∉ (device 0 none [3]).fails ∧
    (0x10091104 : Word) ≠ (device 0 none []).base + 0x1100 ∧ (device 1 none []).fin ≠ 0 ∧ (device 0 none []).n = 0 ∧
    (let d : RefDevice := { device 0 none [] with n := 1, cnt := some 1, strapAddr := some 0x200300EC }
     d.fin = 0 ∧ 1 ≤ d.n ∧ d.cnt = some (0 + 1) ∧ d.strapAddr = some 0x200300EC ∧ d.strapAddr ≠ some 0x200300F0 ∧
       (0x200300EC : Word) ≠ d.base + 0x1100 ∧ (0x200300EC : Word) ≠ d.base + 0x1104 ∧
       (0x200300EC : Word) ≠ d.base + 0x0108 ∧ (0x200300EC : Word) ≠ d.base + 0x2108) ∧
    (let d : RefDevice := { device 0 none [] with n := 1, cnt := some 0 }
     d.fin = 0 ∧ 1 ≤ d.n ∧ d.cnt = some 0) := by decide

/-- `PHASE = Idle`, the only hypothesis of the statements on the codec, `START_READ`, `READ_RESULT`, the selector, the
whole of `MDIO_READ` and of `DETECT`. -/
theorem witness_idle : State.reset.phase = .idle ∧ (idle 2 [yes, got 0]).phase = .idle := ⟨rfl, rfl⟩

theorem witness_read_command_places : (params 2).addrAssign = .exIsPhy ∧
    ({ params 2 with addrAssign := .exIsReg } : Params).addrAssign = .exIsReg := by decide

/-- Ready at the first and at the last allowed poll. -/
theorem witness_wait_ready_ready :
    (failedPolls (baseA + 0x1100) 0 (idle 1 [yes]) ∧ ReadyPoll (pollAns (baseA + 0x1100) 0 (idle 1 [yes]))) ∧
    failedPolls (baseA + 0x1100) 2 (idle 3 [no, no, yes]) ∧ ReadyPoll (pollAns (baseA + 0x1100) 2 (idle 3 [no, no, yes])) := by
  decide

/-- T7 and T8: a bus error at the first and at a later poll. -/
theorem witness_wait_ready_abort :
    AbortingPoll (params 1) (pollAns (baseA + 0x1100) 0 (idle 1 [failed])) ∧
    failedPolls (baseA + 0x1100) 1 (idle 2 [no, failed]) ∧
    AbortingPoll (params 2) (pollAns (baseA + 0x1100) 1 (idle 2 [no, failed])) := by decide

/-- T11 and T5: time-out after one poll, and after none. -/
theorem witness_wait_ready_timeout : failedPolls (baseA + 0x1100) 1 (idle 1 [no]) ∧
    failedPolls (baseA + 0x1100) 0 (idle 0 []) := by decide

theorem witness_other_poll_bits : (idle 2 []).phase = .idle ∧
    List.Forall₂ (fun a b : Answer => a.ok = b.ok ∧ a.word.getLsbD 15 = b.word.getLsbD 15)
      [got 0xFFFF7FFF, got 0xFFFFFFFF] [got 0, got 0x8000] :=
  ⟨rfl, .cons (by decide) (.cons (by decide) .nil)⟩

theorem witness_result_holds : State.reset.resultValued = false ∧ (idle 2 []).phase = .idle ∧
    (∃ t, exec (.readResult baseA) (idle 2 [got 0x42]) = .next t ∧ t.status = .ok) ∧
    (∃ t, exec (.readResult baseA) (idle 2 [failed]) = .next t ∧ t.status ≠ .ok) :=
  ⟨rfl, rfl, ⟨_, rfl, rfl⟩, ⟨_, rfl, by decide⟩⟩

/-- The four clauses of a poll phase's step, `CNT` at 0 and at 1. -/
theorem witness_pre_check_step :
    ((busy .waitReadyPre 0 2 []).cnt = 0) ∧
    ((busy .waitReadyPre 1 2 [yes]).cnt ≠ 0 ∧ ReadyPoll (readAns (baseA + 0x1100) (busy .waitReadyPre 1 2 [yes]))) ∧
    ((busy .waitReadyPre 1 2 [failed]).cnt ≠ 0 ∧
      AbortingPoll (params 2) (readAns (baseA + 0x1100) (busy .waitReadyPre 1 2 [failed]))) ∧
    ((busy .waitReadyPre 1 2 [no]).cnt ≠ 0 ∧ FailedPoll (params 2) (readAns (baseA + 0x1100) (busy .waitReadyPre 1 2 [no]))) ∧
    (busy .waitReadyPre 1 2 []).cntValued = true ∧ (busy .waitReadyPre 1 2 []).latchesValued = true := by decide

theorem witness_command_issued_step :
    writeOk (baseA + 0x1100) 0x562 (busy .commandIssued 1 2 [got 0]) = true ∧
    writeOk (baseA + 0x1100) 0x562 (busy .commandIssued 1 2 [failed]) = false ∧
    readCmd (params 2) 3 5 2 = 0x562 := by decide

theorem witness_post_check_step :
    ((busy .waitReadyPost 0 2 []).cnt = 0) ∧
    ((busy .waitReadyPost 1 2 [yes]).cnt ≠ 0 ∧ ReadyPoll (readAns (baseA + 0x1100) (busy .waitReadyPost 1 2 [yes]))) ∧
    ((busy .waitReadyPost 1 2 [failed]).cnt ≠ 0 ∧
      AbortingPoll (params 2) (readAns (baseA + 0x1100) (busy .waitReadyPost 1 2 [failed]))) ∧
    ((busy .waitReadyPost 1 2 [no]).cnt ≠ 0 ∧
      FailedPoll (params 2) (readAns (baseA + 0x1100) (busy .waitReadyPost 1 2 [no]))) := by decide

theorem witness_result_read_step :
    (readAns (baseA + 0x1104) (busy .resultRead 1 2 [got 0x42])).ok = true ∧
    (readAns (baseA + 0x1104) (busy .resultRead 1 2 [failed])).ok = false ∧ (busy .failed 1 2 []).phase = .failed := by decide

theorem witness_failed_is_entered : ∃ t, step (busy .waitReadyPre 0 2 []) = .next t ∧ t.phase = .failed := ⟨_, rfl, rfl⟩

theorem witness_valueless_latches :
    ({ idle 2 [] with phase := .waitReadyPre } : State).cntValued = false ∧
    (let s : State := { idle 2 [] with phase := .waitReadyPost, cnt := 1, cntValued := true }
     s.cntValued = true ∧ s.cnt ≠ 0 ∧ s.latchesValued = false) ∧
    (let s : State := { idle 2 [] with phase := .waitReadyPre, cntValued := true }
     s.cntValued = true ∧ s.cnt = 0 ∧ s.latchesValued = false) ∧
    ({ idle 2 [] with phase := .resultRead } : State).latchesValued = false := by decide

/-- A full transaction with a poll bound of 1, and one that is ready at the last of two polls both times. -/
theorem witness_mdio_read_returns :
    (let s := idle 1 [yes, got 0, yes, got 0x42]
     let s1 := afterReads (baseA + 0x1100) 1 s
     let s2 := afterCommandWrite (baseA + 0x1100) 0x562 s1
     let s3 := afterReads (baseA + 0x1100) 1 s2
     ReadyPoll (pollAns (baseA + 0x1100) 0 s) ∧ writeOk (baseA + 0x1100) 0x562 s1 = true ∧
       ReadyPoll (pollAns (baseA + 0x1100) 0 s2) ∧ (readAns (baseA + 0x1104) s3).ok = true) ∧
    (let s := idle 2 [no, yes, got 0, no, yes, got 0x42]
     let s1 := afterReads (baseA + 0x1100) 2 s
     let s2 := afterCommandWrite (baseA + 0x1100) 0x562 s1
     let s3 := afterReads (baseA + 0x1100) 2 s2
     failedPolls (baseA + 0x1100) 1 s ∧ ReadyPoll (pollAns (baseA + 0x1100) 1 s) ∧
       writeOk (baseA + 0x1100) 0x562 s1 = true ∧ failedPolls (baseA + 0x1100) 1 s2 ∧
       ReadyPoll (pollAns (baseA + 0x1100) 1 s2) ∧ (readAns (baseA + 0x1104) s3).ok = true) := by decide

/-- T15 and T17. -/
theorem witness_busy_transaction : failedPolls (baseA + 0x1100) 3 (idle 3 [no, no, no]) ∧
    failedPolls (baseA + 0x1100) 0 (idle 0 []) := by decide

/-- T18. -/
theorem witness_read_timeout :
    let s := idle 2 [yes, got 0, no, no]
    let s1 := afterReads (baseA + 0x1100) 1 s
    let s2 := afterCommandWrite (baseA + 0x1100) 0x562 s1
    failedPolls (baseA + 0x1100) 0 s ∧ ReadyPoll (pollAns (baseA + 0x1100) 0 s) ∧
      writeOk (baseA + 0x1100) 0x562 s1 = true ∧ failedPolls (baseA + 0x1100) 2 s2 := by decide

/-- T21, T23, a bus error in the post-check, T24. -/
theorem witness_bus_error :
    AbortingPoll (params 2) (pollAns (baseA + 0x1100) 0 (idle 2 [failed])) ∧
    (let s := idle 2 [yes, failed]
     ReadyPoll (pollAns (baseA + 0x1100) 0 s) ∧ writeOk (baseA + 0x1100) 0x562 (afterReads (baseA + 0x1100) 1 s) = false) ∧
    (let s := idle 2 [yes, got 0, no, failed]
     let s2 := afterCommandWrite (baseA + 0x1100) 0x562 (afterReads (baseA + 0x1100) 1 s)
     writeOk (baseA + 0x1100) 0x562 (afterReads (baseA + 0x1100) 1 s) = true ∧ failedPolls (baseA + 0x1100) 1 s2 ∧
       AbortingPoll (params 2) (pollAns (baseA + 0x1100) 1 s2)) ∧
    (let s := idle 2 [yes, got 0, yes, failed]
     let s2 := afterCommandWrite (baseA + 0x1100) 0x562 (afterReads (baseA + 0x1100) 1 s)
     ReadyPoll (pollAns (baseA + 0x1100) 0 s2) ∧ (readAns (baseA + 0x1104) (afterReads (baseA + 0x1100) 1 s2)).ok = false) := by
  decide

theorem witness_transaction_returns_to_idle : StateInv (busy .waitReadyPre 2 2 []) ∧ (busy .waitReadyPre 2 2 []).phase ≠ .idle :=
  ⟨busy_inv _ (by decide) _ _ _ (by decide), by decide⟩

theorem witness_mdio_read_refines : ∃ t, exec (.mdioRead 3 5 baseA 2) (idle 1 [yes, got 0, yes, got 0x42]) = .next t ∧
    t.status = .ok := ⟨_, rfl, rfl⟩

/-- Generation A has a base and no strap; code 8 of scenario 3 (a) has both, at another address than the result's. -/
theorem witness_commands_follow_ready : (genRecord (params 2) 0).mdioBase = some baseA ∧
    (genRecord (bothParams 2) 8).mdioBase = some baseA ∧
    (genRecord (bothParams 2) 8).strap = some ⟨0x200300EC, 3, 0, .T3⟩ ∧ (0x200300EC : Word) ≠ baseA + 0x1104 := by decide

/-- Each generation code, a code above 7 without a record, and one with. -/
theorem witness_select_map : (7 : Word).toNat = 7 ∧ 7 < (8 : Word).toNat ∧ (params 2).extraRecords.lookup 8 = none ∧
    (bothParams 2).extraRecords.lookup 9 = none ∧ 7 < (9 : Word).toNat ∧
    (bothParams 2).extraRecords.lookup 8 = some ⟨some baseA, some ⟨0x200300EC, 3, 0, .T3⟩⟩ := by decide

theorem witness_decode_strap : (5 : Word).toNat = 5 ∧ (4 : Word).toNat ≤ 4 ∧ 7 < (0xFFFFFFFF : Word).toNat ∧
    (genRecord (params 2) 0xFFFFFFFF).strap = none ∧
    (genRecord (bothParams 2) 8).strap = some ⟨0x200300EC, 3, 0, .T3⟩ := by decide

theorem witness_read_strap : (genRecord (params 2) 0).strap = none ∧
    (genRecord (params 2) 6).strap = some ⟨0x200300EC, 3, 0, .T3⟩ ∧
    (readAns 0x200300EC (idle 2 [failed])).ok = false ∧ (readAns 0x200300EC (idle 2 [got 0xC])).ok = true ∧
    (4 : Word).toNat = (0xC : Word).toNat / 2 ^ 0 % 2 ^ 3 := by decide

theorem witness_strap_bits : (genRecord (params 2) 6).strap = some ⟨0x200300EC, 3, 0, .T3⟩ ∧
    (∀ i, 0 ≤ i → i < 0 + 3 → (0xFFFFFFFC : Word).getLsbD i = (0x4 : Word).getLsbD i) := by
  exact ⟨by decide, fun i _ h => by have : i = 0 ∨ i = 1 ∨ i = 2 := (by omega); rcases this with rfl | rfl | rfl <;> rfl⟩

theorem witness_skipped_mdio : (genRecord (params 2) 5).mdioBase = none ∧ (genRecord (params 2) 0).mdioBase = some baseA ∧
    (readAns (baseA + 0x1100) (idle 2 [failed])).ok = false := by decide

theorem witness_failed_initiator_read :
    let s := idle 2 [yes, failed]
    (readAns (baseA + 0x1100) s).ok = true ∧
      (readAns (baseA + 0x0108) (afterRead (baseA + 0x1100) { s with out := [], stage := [] })).ok = false := by decide

/-- The state in which the first transaction of step 4 starts, with the answers `l` still to come after the control word and
the initiator's word 5. -/
def atStepFour (p : OnMdioFail) (l : List Answer) : State :=
  let s : State := { idle 1 (no :: got 5 :: l) with params := { params 1 with onMdioFail := p } }
  { afterRead (baseA + 0x0108) (afterRead (baseA + 0x1100) s) with stage := [.uMdioPhyaddr 5] }

/-- A first transaction that fails, under each parameter; the second follows under `CONTINUE`. -/
theorem witness_failed_first_transaction :
    (after (exec (.mdioRead 3 5 baseA 2) (atStepFour .skipRest [no]))).status ≠ .ok ∧
    (after (exec (.mdioRead 3 5 baseA 2) (atStepFour .continueSteps [no]))).status ≠ .ok := by decide

/-- A second transaction that fails, and a step-5 read that fails after two good ones. -/
theorem witness_failed_second_transaction :
    (let t1 := after (exec (.mdioRead 3 5 baseA 2) (atStepFour .skipRest [yes, got 0, yes, got 0x42, no]))
     t1.status = .ok ∧ (after (exec (.mdioRead 3 5 baseA 3) t1)).status ≠ .ok) ∧
    (let t1 := after (exec (.mdioRead 3 5 baseA 2)
        (atStepFour .continueSteps [yes, got 0, yes, got 0x42, yes, got 0, yes, got 0x12, failed]))
     let t2 := after (exec (.mdioRead 3 5 baseA 3) t1)
     t1.status = .ok ∧ t2.status = .ok ∧ (readAns (baseA + 0x2108) t2).ok = false) := by decide

/-- A diagnostic of `DETECT`: none without a base or when its first two reads fail, one when `SKIP_REST` ends it after
the first transaction, two under `CONTINUE`. -/
theorem witness_detect_diagnostics : (genRecord (params 2) 5).mdioBase = none ∧
    (readAns (baseA + 0x1100) (idle 1 [failed])).ok = false ∧
    (let s := idle 1 [yes, failed]
     (readAns (baseA + 0x0108) (afterRead (baseA + 0x1100) s)).ok = false) ∧
    (after (exec (.mdioRead 3 5 baseA 2) (atStepFour .skipRest [no]))).status ≠ .ok ∧
    (after (exec (.mdioRead 3 5 baseA 3) (after (exec (.mdioRead 3 5 baseA 2) (atStepFour .continueSteps [no, no]))))).diag =
      [.busy, .busy] := by decide

/-- Every access and both transactions succeed. -/
theorem witness_detect_records :
    let t1 := after (exec (.mdioRead 3 5 baseA 2)
      (atStepFour .continueSteps [yes, got 0, yes, got 0x42, yes, got 0, yes, got 0x12, got 3]))
    let t2 := after (exec (.mdioRead 3 5 baseA 3) t1)
    t1.status = .ok ∧ t2.status = .ok ∧ (readAns (baseA + 0x2108) t2).ok = true := by decide

/-- A transaction of `DETECT` emits a diagnostic. -/
theorem witness_mdio_keys : nextSat (exec (.detect 0) (wired 1 (device 0 (some 0) []))) (fun t => t.diag != []) = true := by
  decide

theorem witness_strap_step : (genRecord (params 2) 5).strap = some ⟨0x20030002, 1, 0, .T1⟩ ∧
    (genRecord (bothParams 2) 8).strap = some ⟨0x200300EC, 3, 0, .T3⟩ := by decide

/-- Steps with a next state: a transition that reads, one that writes, an operation, an illegal descriptor. -/
theorem witness_steps : (∃ t, step (busy .waitReadyPre 1 2 [yes]) = .next t) ∧
    (∃ t, step (busy .commandIssued 1 2 [got 0]) = .next t) ∧
    (∃ t, step { idle 2 [yes] with inbox := [.descriptor [0x3, 0x10090000]] } = .next t) ∧
    (∃ t, step { idle 2 [] with inbox := [.descriptor [0x0]] } = .next t) :=
  ⟨⟨_, rfl⟩, ⟨_, rfl⟩, ⟨_, rfl⟩, ⟨_, rfl⟩⟩

/-- Instructions with a next state, one for each clause of the register frame. -/
theorem witness_registers_frame : (∃ t, exec (.startRead baseA 3 5 2) (idle 2 [got 0]) = .next t) ∧
    (∃ t, exec (.readStrap 6) (idle 2 [got 0]) = .next t) ∧ (∃ t, exec (.decodeStrap 6 1) (idle 2 []) = .next t) ∧
    (∃ t, exec (.mdioCmdRead 5 3 2) (idle 2 []) = .next t) ∧
    (∃ t, exec (.mdioCmdWrite 0 0 0 0 0 0) (wired 2 (device 1 none [])) = .next t) :=
  ⟨⟨_, rfl⟩, ⟨_, rfl⟩, ⟨_, rfl⟩, ⟨_, rfl⟩, ⟨_, rfl⟩⟩

theorem witness_command_words : (idle 2 []).bus = .oracle [] 0 ∧
    (wired 2 (device 1 none [])).bus = .reference (device 1 none []) ∧ (params 2).addrAssign = .exIsPhy := by decide

/-- Cycle 1 in flight with latency 0, with latency `N_POLL - 1`, with latency `N_POLL` (T20), and with latency `INF`. -/
theorem witness_reference_device :
    (let d : RefDevice := { device 0 none [] with n := 1, cnt := some 0 }
     (wired 2 d).phase = .idle ∧ (wired 2 d).bus = .reference d ∧ d.fails = [] ∧ d.fin = 0 ∧ 1 ≤ d.n ∧ d.cnt = some 0 ∧
       0 < (wired 2 d).params.nPoll) ∧
    (let d : RefDevice := { device 0 none [] with n := 1, cnt := some 1 }
     d.cnt = some 1 ∧ 1 < (wired 2 d).params.nPoll) ∧
    (let d : RefDevice := { device 0 none [] with n := 1, cnt := some 2 }
     d.cnt = some 2 ∧ (wired 2 d).params.nPoll ≤ 2) ∧
    (let d : RefDevice := { device 0 none [] with n := 1, cnt := none }
     d.cnt = none ∧ d.fin = 0 ∧ 1 ≤ d.n) := by decide

end Sys2Proof.Tests
end

namespace Sys2Proof.Machine

/-! ## The state family: what each operation may write

`opEffect_frame` and `exec_busFrame` say what every operation keeps. The lemmas here say which registers an operation
leaves alone, `DETECT` and `MDIO_READ` apart (R23 to R32). -/

/-- An operation run from `Idle` answers its effect. -/
theorem exec_of_idle {i : Instr} (hop : isOperation i = true) {s : State} (hp : s.phase = .idle) :
    exec i s = .next (opEffect i s) := by rw [exec_operation hop, whenIdle_idle hp]

/-- What an operation other than `DETECT` and `MDIO_READ` leaves alone: the record, the diagnostics and the latches; all
but its own of the registers `RESULT` and `CNT`; and the started cycles, unless it is the one that writes a command. -/
structure OperationFrame (i : Instr) (s t : State) : Prop where
  out     : t.out = s.out
  stage   : t.stage = s.stage
  diag    : t.diag = s.diag
  params  : t.params = s.params
  latches : t.base = s.base ∧ t.fdiv = s.fdiv ∧ t.paddr = s.paddr ∧ t.rnum = s.rnum ∧ t.latchesValued = s.latchesValued
  result  : (∀ b, i ≠ .readResult b) → t.result = s.result ∧ t.resultValued = s.resultValued
  count   : (∀ b, i ≠ .waitReady b) → t.cnt = s.cnt ∧ t.cntValued = s.cntValued ∧ t.sleeps = s.sleeps
  cycles  : (∀ b f p r, i ≠ .startRead b f p r) → t.cycles = s.cycles

/-- The end of an operation writes `STATUS` and what is returned, and nothing else. -/
theorem finishOp_operationFrame (i : Instr) (v : Value) (st : Status) (s : State) :
    OperationFrame i s (finishOp v st s) := by
  constructor <;> simp

/-- Every operation but `DETECT` and `MDIO_READ` keeps to its frame. -/
theorem opEffect_operationFrame {i : Instr} (hd : ∀ g, i ≠ .detect g) (hm : ∀ f p b r, i ≠ .mdioRead f p b r) (s : State) :
    OperationFrame i s (opEffect i s) := by
  cases i with
  | composeCtrl => exact finishOp_operationFrame _ _ _ s
  | decodeCtrl => exact finishOp_operationFrame _ _ _ s
  | selectMap => exact finishOp_operationFrame _ _ _ s
  | decodeStrap => exact finishOp_operationFrame _ _ _ s
  | mdioCmdRead => constructor <;> simp [opEffect]
  | mdioCmdWrite => constructor <;> simp [opEffect]
  | waitReady b =>
    obtain ⟨y, c, sl, st, r, e, -, hcy, -⟩ := waitLoop_shape b s.params.nPoll (loadCount s)
    constructor <;> simp [opEffect, e, rebus, hcy]
  | startRead => constructor <;> simp [opEffect]
  | readResult b =>
    cases ha : (readAns (regAddr b offRoData) s).ok <;> constructor <;> simp [opEffect, ha]
  | readStrap g =>
    have hcy : (afterStrapRead g s).cycles = s.cycles := by unfold afterStrapRead; split <;> rfl
    constructor <;> simp [opEffect, strapOp_eq, rebus, hcy]
  | mdioRead f p b r => exact absurd rfl (hm f p b r)
  | detect g => exact absurd rfl (hd g)

/-- The operations that make no bus access (R87, R88, R105, R107). -/
def isPure (i : Instr) : Prop :=
  (∃ d f r rw ex fd inn, i = .composeCtrl d f r rw ex fd inn) ∨ (∃ w, i = .decodeCtrl w) ∨ (∃ g, i = .selectMap g) ∨
    (∃ g c, i = .decodeStrap g c)

/-- A pure operation ends at once, with status `OK`. -/
theorem opEffect_of_isPure {i : Instr} (h : isPure i) (s : State) : ∃ v, opEffect i s = finishOp v .ok s := by
  rcases h with ⟨_, _, _, _, _, _, _, rfl⟩ | ⟨_, rfl⟩ | ⟨_, rfl⟩ | ⟨_, _, rfl⟩ <;> exact ⟨_, rfl⟩

theorem isOperation_of_isPure {i : Instr} (h : isPure i) : isOperation i = true := by
  rcases h with ⟨_, _, _, _, _, _, _, rfl⟩ | ⟨_, rfl⟩ | ⟨_, rfl⟩ | ⟨_, _, rfl⟩ <;> rfl

/-- Only `DETECT` writes the record and the staging area. -/
theorem opEffect_record {i : Instr} (hd : ∀ g, i ≠ .detect g) (s : State) :
    (opEffect i s).out = s.out ∧ (opEffect i s).stage = s.stage := by
  by_cases hm : ∃ f p b r, i = .mdioRead f p b r
  · obtain ⟨f, p, b, r, rfl⟩ := hm
    exact (transaction_frame f p b r s).2
  · have fr := opEffect_operationFrame hd (fun f p b r e => hm ⟨f, p, b, r, e⟩) s
    exact ⟨fr.out, fr.stage⟩

/-! ## The bound on `CNT` (R23) -/

/-- A transition reloads `CNT` or counts it down. -/
theorem phaseNext_cnt_le {s : State} (h : s.cnt ≤ s.params.nPoll) : (phaseNext s).cnt ≤ s.params.nPoll := by
  have poll : ∀ onReady tag st, (pollPhase onReady tag st s).cnt ≤ s.params.nPoll := by
    intro onReady tag st
    rcases pollPhase_cases onReady tag st s with ⟨-, e⟩ | ⟨-, -, e⟩ | ⟨-, -, e⟩ | ⟨-, -, e⟩ <;> simp [e] <;> omega
  unfold phaseNext
  split
  · exact h
  · exact poll _ _ _
  · rcases commandPhase_cases s with ⟨-, e⟩ | ⟨-, e⟩ <;> simp [e, h]
  · exact poll _ _ _
  · rcases resultPhase_cases s with ⟨-, e⟩ | ⟨-, e⟩ <;> simp [e, h]
  · exact h

/-- A whole transaction leaves `CNT` at most `N_POLL`. -/
theorem transaction_cnt_le (f p b r : Word) (s : State) :
    (transaction f p b r s).cnt ≤ (transaction f p b r s).params.nPoll := by
  refine runPhases_induct (P := fun t => t.cnt ≤ t.params.nPoll) (fun t _ h => ?_) _ _ (Nat.le_refl _)
  rw [(phaseNext_frame t).params]
  exact phaseNext_cnt_le h

/-- Steps 1 to 5 of `DETECT` write `CNT` by their transactions only. -/
theorem detectController_cnt_le (gen : Word) {s : State} (h : s.cnt ≤ s.params.nPoll) :
    (detectController gen s).cnt ≤ (detectController gen s).params.nPoll := by
  unfold detectController
  split
  · exact h
  · exact detectMdio_induct (P := fun t => t.cnt ≤ t.params.nPoll) _ s (fun _ _ _ h => h)
      (fun f p r t _ => transaction_cnt_le f p _ r t) (fun _ _ h => h) (fun _ _ h => by simpa using h) h

/-- Every operation keeps the bound. -/
theorem opEffect_cnt_le (i : Instr) {s : State} (h : s.cnt ≤ s.params.nPoll) :
    (opEffect i s).cnt ≤ (opEffect i s).params.nPoll := by
  by_cases hd : ∃ g, i = .detect g
  · obtain ⟨g, rfl⟩ := hd
    have ht := detectController_cnt_le g (s := freshRecord s) h
    simp only [opEffect, detectOp_eq, strapOp_eq]
    exact ht
  by_cases hm : ∃ f p b r, i = .mdioRead f p b r
  · obtain ⟨f, p, b, r, rfl⟩ := hm
    exact transaction_cnt_le f p b r s
  by_cases hw : ∃ b, i = .waitReady b
  · obtain ⟨b, rfl⟩ := hw
    obtain ⟨y, c, sl, st, r, e, -, -, -, hc⟩ := waitLoop_shape b s.params.nPoll (loadCount s)
    simp only [opEffect, e]
    exact hc rfl
  · have fr := opEffect_operationFrame (fun g e => hd ⟨g, e⟩) (fun f p b r e => hm ⟨f, p, b, r, e⟩) s
    obtain ⟨hcnt, -, -⟩ := fr.count (fun b e => hw ⟨b, e⟩)
    rw [hcnt, fr.params]
    exact h

/-! ## The invariant -/

/-- Over an unchanged record the invariant is a matter of the registers alone. -/
theorem StateInv.of_registers {s t : State} (h : StateInv s) (ho : t.out = s.out) (hs : t.stage = s.stage)
    (hc : t.cnt ≤ t.params.nPoll) (hl : t.phase ≠ .idle → t.cntValued = true ∧ t.latchesValued = true)
    (hf : t.phase = .failed → t.result = 0 ∧ t.resultValued = true ∧ transactionFailure t.status)
    (he : t.returned ≠ none → t.status ≠ .none) : StateInv t :=
  ⟨hc, hl, hf, ho ▸ h.outOrdered, ho ▸ h.outKnown, hs ▸ h.stageOrdered, he⟩

/-- What is presented, the bus side and the started cycles are no concern of the invariant. -/
theorem StateInv.of_outside {s : State} (h : StateInv s) (inbox : List Presented) (cycles : List Cycle) (bus : Bus) :
    StateInv { s with inbox := inbox, cycles := cycles, bus := bus } :=
  h.of_registers rfl rfl h.cntBound h.latched h.failedShape h.ended

/-- A state in `Idle` in which an operation has ended. -/
theorem StateInv.of_idle {s t : State} (h : StateInv s) (ho : t.out = s.out) (hs : t.stage = s.stage)
    (hc : t.cnt ≤ t.params.nPoll) (hp : t.phase = .idle) (hst : t.status ≠ .none) : StateInv t :=
  h.of_registers ho hs hc (fun hb => absurd hp hb) (fun hf => nomatch hp.symm.trans hf) (fun _ => hst)

/-- The ends a transition from `s` to `t` can come to (R96 to R100). -/
inductive TransitionEnd (s t : State) : Prop where
  /-- The failure entry of R119. -/
  | fails (hres : t.result = 0) (hval : t.resultValued = true) (hst : transactionFailure t.status)
  /-- A move inside the transaction, which ends nothing. -/
  | goesOn (hp : t.phase ≠ .failed) (hret : t.returned = s.returned) (hst : t.status = s.status)
  /-- The result handed over (R99). -/
  | done (hp : t.phase ≠ .failed) (hst : t.status = .ok)
  /-- The return from `Failed` (R100). -/
  | leaves (hs : s.phase = .failed) (ht : t = leaveFailed s)

theorem TransitionEnd.of_failTransaction {s u : State} {st : Status} (h : transactionFailure st) :
    TransitionEnd s (failTransaction st u) := .fails rfl rfl h

theorem transactionFailure_busError : transactionFailure .busError := .inr (.inr rfl)

/-- A poll phase times out, goes on, or meets a bus error. -/
theorem pollPhase_end {onReady : Phase} (tag : Diag) {st : Status} {s : State} (hs : s.phase ≠ .failed)
    (hr : onReady ≠ .failed) (hst : transactionFailure st) : TransitionEnd s (pollPhase onReady tag st s) := by
  rcases pollPhase_cases onReady tag st s with ⟨-, e⟩ | ⟨-, -, e⟩ | ⟨-, -, e⟩ | ⟨-, -, e⟩ <;> rw [e]
  · exact .of_failTransaction hst
  · exact .goesOn hr rfl rfl
  · exact .of_failTransaction transactionFailure_busError
  · exact .goesOn hs rfl rfl

/-- Every transition of a transaction in progress comes to one of these ends. -/
theorem phaseNext_end {s : State} (hp : s.phase ≠ .idle) : TransitionEnd s (phaseNext s) := by
  cases h : s.phase with
  | idle => exact absurd h hp
  | waitReadyPre =>
    rw [preCheck.next s h]
    exact pollPhase_end .busy (by simp [h]) (by simp) (.inl rfl)
  | commandIssued =>
    rw [phaseNext, h]
    rcases commandPhase_cases s with ⟨-, e⟩ | ⟨-, e⟩ <;> dsimp only <;> rw [e]
    · exact .goesOn (by simp) (by simp) (by simp)
    · exact .of_failTransaction transactionFailure_busError
  | waitReadyPost =>
    rw [postCheck.next s h]
    exact pollPhase_end .readTimeout (by simp [h]) (by simp) (.inr (.inl rfl))
  | resultRead =>
    rw [phaseNext, h]
    rcases resultPhase_cases s with ⟨-, e⟩ | ⟨-, e⟩ <;> dsimp only <;> rw [e]
    · exact .done (by simp) rfl
    · exact .of_failTransaction transactionFailure_busError
  | failed => exact .leaves h (by rw [phaseNext, h])

/-- A failure is not the status before any operation has ended (R29, R100). -/
theorem transactionFailure.ne_none {st : Status} (h : transactionFailure st) : st ≠ .none := by
  rcases h with rfl | rfl | rfl <;> simp

/-- A transition of a transaction in progress keeps the invariant. -/
theorem phaseNext_keeps_inv {s : State} (h : StateInv s) (hp : s.phase ≠ .idle) : StateInv (phaseNext s) := by
  have fr := phaseNext_frame s
  obtain ⟨hcv, hlv⟩ := h.latched hp
  refine h.of_registers fr.out fr.stage (fr.params ▸ phaseNext_cnt_le h.cntBound)
    (fun _ => ⟨phaseNext_valued hcv, fr.latch.trans hlv⟩) ?_ ?_
  · intro hf
    cases phaseNext_end hp with
    | fails hres hval hst => exact ⟨hres, hval, hst⟩
    | goesOn hn => exact absurd hf hn
    | done hn => exact absurd hf hn
    | leaves _ ht => rw [ht] at hf; cases hf
  · intro hr
    cases phaseNext_end hp with
    | fails _ _ hst => exact hst.ne_none
    | goesOn _ hret hst => rw [hst]; exact h.ended (hret ▸ hr)
    | done _ hst => rw [hst]; simp
    | leaves hs ht =>
      obtain ⟨-, -, hst⟩ := h.failedShape hs
      rw [ht]
      exact hst.ne_none

/-! ## The record `DETECT` ends with -/

/-- The MDIO keys of a run, none or all three, followed by `phy-mode` when it is known, stand in R32's order. -/
theorem detectEnd_record {s t : State} (h : MdioKeys s t) (m : Mode) (u : State) :
    recordOrdered (detectEnd t.out m u).out ∧ OutEntry.phyMode .unknown ∉ (detectEnd t.out m u).out := by
  by_cases hm : m = .unknown
  · rcases h with e | ⟨⟨_, _, _, e⟩, -⟩ <;> simp [detectEnd, e, hm, recordOrdered, OutEntry.rank]
  · rcases h with e | ⟨⟨_, _, _, e⟩, -⟩ <;> simp [detectEnd, e, hm, recordOrdered, OutEntry.rank, Ne.symm hm]

/-- `DETECT` leaves an ordered record with a known mode, and MDIO keys in order in the staging area (R32, R83, R116). -/
theorem detectOp_record (gen : Word) {s : State} (hi : s.phase = .idle) :
    recordOrdered (detectOp gen s).out ∧ OutEntry.phyMode .unknown ∉ (detectOp gen s).out ∧
      StagedKeys (detectOp gen s).stage := by
  obtain ⟨-, -, hk, hst⟩ := detectController_spec gen (freshRecord s) hi rfl rfl
  rw [detectOp_eq]
  obtain ⟨ho, hn⟩ := detectEnd_record hk (strapQuery gen (detectController gen (freshRecord s))).1
    (strapOp gen (detectController gen (freshRecord s)))
  refine ⟨ho, hn, ?_⟩
  rw [strapOp_eq]
  exact hst

/-- An operation run from `Idle` keeps the invariant. -/
theorem opEffect_keeps_inv {i : Instr} (hi : isOperation i = true) {s : State} (hp : s.phase = .idle) (h : StateInv s) :
    StateInv (opEffect i s) := by
  obtain ⟨-, hp', hst, -⟩ := opEffect_frame hi hp
  have hc := opEffect_cnt_le i h.cntBound
  by_cases hd : ∃ g, i = .detect g
  · obtain ⟨g, rfl⟩ := hd
    obtain ⟨ho, hn, hs⟩ := detectOp_record g hp
    exact ⟨hc, fun hb => absurd hp' hb, (fun hf => nomatch hp'.symm.trans hf), ho, hn, hs, fun _ => hst⟩
  · obtain ⟨ho, hs⟩ := opEffect_record (fun g e => hd ⟨g, e⟩) s
    exact h.of_idle ho hs hc hp' hst

/-- An instruction keeps the invariant. -/
theorem exec_keeps_inv {i : Instr} {s t : State} (h : StateInv s) (he : exec i s = .next t) : StateInv t := by
  rcases exec_next he with ⟨hi, hp, rfl⟩ | ⟨-, cy, b, rfl⟩
  · exact opEffect_keeps_inv hi hp h
  · exact h.of_outside s.inbox _ b

/-- Settles O3: by the ways to a next state, a transition of the transaction in progress or what the oldest presented term
does. -/
theorem stepKeepsTheInvariant : Obligations.StepKeepsTheInvariant := by
  intro s t h hstep
  rcases step_next hstep with ⟨hp, -, rfl⟩ | ⟨-, -, rfl⟩ | ⟨hp, p, rest, -, hrun⟩
  · exact phaseNext_keeps_inv h hp
  · exact h
  · have h' : StateInv { s with inbox := rest } := h.of_outside rest s.cycles s.bus
    rcases hrun with ⟨i, -, he⟩ | ⟨-, rfl⟩ | ⟨w, -, rfl⟩
    · exact exec_keeps_inv h' he
    · exact h'.of_idle rfl rfl h'.cntBound hp (by simp [illegalDescriptor])
    · exact h'.of_outside rest _ _

/-- Settles O2: the registers of R47, with the zero of log 3 in `CNT` and the empty record of log 9. -/
theorem resetMeetsTheInvariant : Obligations.ResetMeetsTheInvariant :=
  ⟨Nat.zero_le _, fun hb => absurd rfl hb, fun hf => (by cases hf), .nil, List.not_mem_nil,
    ⟨.nil, fun _ he => absurd he List.not_mem_nil⟩, fun hr => absurd rfl hr⟩

/-! ## The words written on the bus -/

/-- The engine's composed word is of class `MDIO_CMD_READ` (R70, R90). -/
theorem isReadCommand_readCmd (p : Params) (freqDiv phyAddr regNum : Word) :
    isReadCommand (readCmd p freqDiv phyAddr regNum) = true := by
  rw [isReadCommand_iff]
  unfold readCmd
  split <;> simp [wordFields_composeWord]

/-- From `s` to `t` events were appended to `TRACE`, and every word written is a read command. -/
def AppendsReadCommands (s t : State) : Prop := ∃ evs, t.trace = s.trace ++ evs ∧ ∀ e ∈ evs, e.commandWord = true

namespace AppendsReadCommands

theorem of_trace_eq {s t : State} (h : t.trace = s.trace) : AppendsReadCommands s t := ⟨[], by simp [h], by simp⟩

theorem of_event {s t : State} {e : BusEvent} (h : t.trace = s.trace ++ [e]) (he : e.commandWord = true) :
    AppendsReadCommands s t := ⟨[e], h, by simpa using he⟩

theorem trans {s t u : State} (h : AppendsReadCommands s t) (h' : AppendsReadCommands t u) : AppendsReadCommands s u := by
  obtain ⟨evs, e, he⟩ := h
  obtain ⟨evs', e', he'⟩ := h'
  refine ⟨evs ++ evs', by rw [e', e, List.append_assoc], fun x hx => ?_⟩
  rcases List.mem_append.mp hx with hx | hx
  · exact he x hx
  · exact he' x hx

/-- A read writes no word. -/
theorem read (addr : Word) (s : State) : AppendsReadCommands s (afterRead addr s) :=
  of_event (afterRead_trace s addr) rfl

/-- The engine's command write. -/
theorem command (addr : Word) {w : Word} (hw : isReadCommand w = true) (s : State) :
    AppendsReadCommands s (afterCommandWrite addr w s) := of_event (afterCommandWrite_trace s addr w) hw

/-- A transition makes one read, or the command write of R97, or no access. -/
theorem of_phaseNext (s : State) : AppendsReadCommands s (phaseNext s) := by
  have poll : ∀ onReady tag st, AppendsReadCommands s (pollPhase onReady tag st s) := by
    intro onReady tag st
    rcases pollPhase_cases onReady tag st s with ⟨-, e⟩ | ⟨-, -, e⟩ | ⟨-, -, e⟩ | ⟨-, -, e⟩ <;> rw [e]
    · exact of_trace_eq rfl
    all_goals exact read (regAddr s.base offRwctrl) s
  unfold phaseNext
  split
  · exact of_trace_eq rfl
  · exact poll _ _ _
  · have hw : isReadCommand (latchedCmd s) = true := isReadCommand_readCmd _ _ _ _
    rcases commandPhase_cases s with ⟨-, e⟩ | ⟨-, e⟩ <;> rw [e] <;> exact command (regAddr s.base offRwctrl) hw s
  · exact poll _ _ _
  · rcases resultPhase_cases s with ⟨-, e⟩ | ⟨-, e⟩ <;> rw [e] <;> exact read (regAddr s.base offRoData) s
  · exact of_trace_eq rfl

theorem of_transaction (f p b r : Word) (s : State) : AppendsReadCommands s (transaction f p b r s) :=
  runPhases_induct (P := AppendsReadCommands s) (fun t _ h => h.trans (of_phaseNext t)) _ _ (of_trace_eq rfl)

theorem of_waitLoop (base : Word) (n : Nat) (s : State) : AppendsReadCommands s (waitLoop base n s) := by
  induction n generalizing s with
  | zero => exact of_trace_eq rfl
  | succ n ih =>
    have hr := read (regAddr base offRwctrl) s
    rw [waitLoop]
    split
    · exact hr
    · exact hr
    · exact hr.trans (ih (failedPoll (afterRead (regAddr base offRwctrl) s)))

theorem of_strapOp (gen : Word) (s : State) : AppendsReadCommands s (strapOp gen s) := by
  unfold strapOp afterStrapRead
  split
  · exact of_trace_eq rfl
  · exact read _ s

theorem of_detectController (gen : Word) (s : State) : AppendsReadCommands s (detectController gen s) := by
  unfold detectController
  split
  · exact of_trace_eq rfl
  · exact detectMdio_induct (P := AppendsReadCommands s) _ s (fun _ t _ h => h.trans (read _ t))
      (fun f p r t h => h.trans (of_transaction f p _ r t)) (fun _ _ h => h)
      (fun _ _ h => h.trans (of_trace_eq (commitStage_trace _ _))) (of_trace_eq rfl)

/-- An operation's own words are read commands. -/
theorem of_opEffect (i : Instr) (s : State) : AppendsReadCommands s (opEffect i s) := by
  cases i with
  | composeCtrl | decodeCtrl | selectMap | decodeStrap | mdioCmdRead | mdioCmdWrite => exact of_trace_eq rfl
  | waitReady b => exact of_waitLoop b s.params.nPoll (loadCount s)
  | startRead b f p r => exact command (regAddr b offRwctrl) (isReadCommand_readCmd s.params f p r) s
  | readResult b =>
    have hr := read (regAddr b offRoData) s
    unfold opEffect
    dsimp only
    split <;> exact hr
  | mdioRead f p b r => exact of_transaction f p b r s
  | readStrap g => exact of_strapOp g s
  | detect g =>
    have ht := (of_detectController g (freshRecord s)).trans (of_strapOp g _)
    rw [opEffect, detectOp_eq]
    exact ht

/-- So are an instruction's; a command word from outside is no event of the engine's. -/
theorem of_exec {i : Instr} {s t : State} (h : exec i s = .next t) : AppendsReadCommands s t := by
  rcases exec_next h with ⟨-, -, rfl⟩ | ⟨-, cy, b, rfl⟩
  · exact of_opEffect i s
  · exact of_trace_eq rfl

end AppendsReadCommands

/-- Settles O50: a transition writes the latched command, an operation the command of its operands, and nothing else is
written. -/
theorem engineWritesOnlyReadCommands : Obligations.EngineWritesOnlyReadCommands := by
  intro s t h
  show AppendsReadCommands s t
  rcases step_next h with ⟨-, -, rfl⟩ | ⟨-, -, rfl⟩ | ⟨-, p, rest, -, ⟨i, -, he⟩ | ⟨-, rfl⟩ | ⟨w, -, rfl⟩⟩
  · exact .of_phaseNext s
  · exact .of_trace_eq rfl
  · exact .trans (t := { s with inbox := rest }) (.of_trace_eq rfl) (.of_exec he)
  · exact .of_trace_eq rfl
  · exact .of_trace_eq rfl

/-! ## The streams -/

/-- Settles O49: transitions, instructions and command words from outside extend the streams and keep the parameters. -/
theorem streamsOnlyGrow : Obligations.StreamsOnlyGrow := by
  intro s t h
  have frame : BusFrame s t ∨ ∃ rest, BusFrame { s with inbox := rest } t := by
    rcases step_next h with ⟨-, -, rfl⟩ | ⟨-, -, rfl⟩ | ⟨-, p, rest, -, ⟨i, -, he⟩ | ⟨-, rfl⟩ | ⟨w, -, rfl⟩⟩
    · exact .inl (phaseNext_frame s).busFrame
    · exact .inl (.refl t)
    · exact .inr ⟨rest, exec_busFrame he⟩
    · exact .inr ⟨rest, List.prefix_refl _, List.prefix_refl _, List.prefix_refl _, rfl, rfl⟩
    · exact .inr ⟨rest, takeReadCommand_busFrame w _⟩
  rcases frame with f | ⟨rest, f⟩ <;> exact ⟨f.trace, f.diag, f.cycles, f.params⟩

/-! ## What is written where -/

/-- Settles O52: what presented command words leave alone is their shape, what operations leave alone their frame. -/
theorem registersAreWrittenOnlyByTheirOperations : Obligations.RegistersAreWrittenOnlyByTheirOperations := by
  intro i s t h
  have f := exec_busFrame h
  refine ⟨f.inbox, f.params, ?_⟩
  rcases exec_next h with ⟨hop, -, rfl⟩ | ⟨hop, cy, b, rfl⟩
  · refine ⟨fun hd => opEffect_record hd s, fun hd hm => ?_, fun hpure => ?_, fun hno => ?_⟩
    · have fr := opEffect_operationFrame hd hm s
      obtain ⟨hb, hf, hp, hr, hl⟩ := fr.latches
      exact ⟨hb, hf, hp, hr, hl, fr.result, fr.count, fun hs _ => fr.cycles hs⟩
    · obtain ⟨v, e⟩ := opEffect_of_isPure hpure s
      rw [e]
      exact ⟨rfl, rfl⟩
    · rw [hop] at hno; cases hno
  · refine ⟨fun _ => ⟨rfl, rfl⟩, fun _ _ => ⟨rfl, rfl, rfl, rfl, rfl, fun _ => ⟨rfl, rfl⟩, fun _ => ⟨rfl, rfl, rfl⟩, ?_⟩, ?_,
      fun _ => rfl⟩
    · intro _ hyes
      rw [hop] at hyes; cases hyes
    · intro hpure
      have hyes := isOperation_of_isPure hpure
      rw [hop] at hyes; cases hyes

/-! ## `RESULT` -/

/-- The operation at `base` that ended in `t` has put into `RESULT` what it returned: the low half of the word read last,
at `MDIO_RO_DATA`, when it ended `OK`, else 0 (R28, R94, R99). -/
structure HandsOverResult (base : Word) (t : State) : Prop where
  returned : t.returned = some ⟨.value t.result, t.status⟩
  valued   : t.resultValued = true
  failed   : t.status ≠ .ok → t.result = 0
  ok       : t.status = .ok → ∃ w : Word,
    t.trace.getLast? = some (.rd (regAddr base offRoData) w true) ∧ t.result = narrowResult w

theorem readResult_handsOverResult (b : Word) (s : State) : HandsOverResult b (opEffect (.readResult b) s) := by
  cases ha : (readAns (regAddr b offRoData) s).ok
  · constructor <;> simp [opEffect, ha]
  · constructor <;> simp [opEffect, ha]

/-- Of the seven ends of a transaction only the last is `OK`; its last event is the result read. -/
theorem ReadOutcome.handsOverResult {f p b r : Word} {s t : State} (h : ReadOutcome f p b r s t) : HandsOverResult b t := by
  obtain ⟨hret, hval, hfail, -, -⟩ := h.ends
  refine ⟨hret, hval, hfail, fun hok => ?_⟩
  cases h with
  | done k j h hw h2 ha =>
    exact ⟨(readAns (regAddr b offRoData) (polled b j (commanded f p b r k s))).word, by simp [readEnd, ha], rfl⟩
  | _ => cases hok

/-- The host reads what was handed over. -/
theorem HandsOverResult.hostRead {b : Word} {t : State} (h : HandsOverResult b t) :
    hostRead .result t = .ok t.result.toNat := hostRead_ok.mpr ⟨h.valued, rfl⟩

/-- Settles O22: both operations hand their result over at the base they name. -/
theorem resultHoldsTheReturnedValue : Obligations.ResultHoldsTheReturnedValue := by
  refine ⟨fun s h => by simp [hostRead, hasValue, h], fun s i hi hp => ?_⟩
  obtain ⟨b, hop, h, hb⟩ : ∃ b, isOperation i = true ∧ HandsOverResult b (opEffect i s) ∧
      ∀ b', (i = .readResult b' ∨ ∃ f p r, i = .mdioRead f p b' r) → b' = b := by
    rcases hi with ⟨b, rfl⟩ | ⟨f, p, b, r, rfl⟩
    · exact ⟨b, rfl, readResult_handsOverResult b s, by rintro b' (e | ⟨_, _, _, e⟩) <;> cases e; rfl⟩
    · exact ⟨b, rfl, (transaction_outcome f p b r s).handsOverResult, by rintro b' (e | ⟨_, _, _, e⟩) <;> cases e; rfl⟩
  refine ⟨opEffect i s, (opEffect i s).result, exec_of_idle hop hp, h.returned, rfl, h.hostRead, h.failed,
    fun hok b' hb' => ?_⟩
  obtain ⟨w, hlast, hw⟩ := h.ok hok
  rw [hb b' hb']
  exact ⟨w, hlast, hw.trans (BitVec.setWidth_eq_extractLsb' (by omega))⟩

/-! ## The diagnostics of `DETECT` (D8, R112, R113) -/

section
variable (fdiv : BitVec 3) (u base : Word) (s : State)

/-- The first of step 4's two transactions. -/
def firstRead : State := transaction (fdiv.setWidth 32) u base 0x02 s

/-- The second, over what the first left. -/
def secondRead : State := transaction (fdiv.setWidth 32) u base 0x03 (firstRead fdiv u base s)

variable {fdiv u base s}

theorem firstRead_params : (firstRead fdiv u base s).params = s.params := (transaction_frame _ _ _ _ s).1.params

/-- Step 4 emits the diagnostics of the first transaction, and of the second where it is issued. -/
theorem detectIds_diag : (detectIds fdiv u base s).2.diag =
    if proceed (firstRead fdiv u base s).params ((firstRead fdiv u base s).status == .ok) then
      (secondRead fdiv u base s).diag
    else (firstRead fdiv u base s).diag := by
  unfold detectIds secondRead firstRead
  dsimp only
  split
  · dsimp only
    split
    · rw [stageEntry_diag]
    · rfl
  · rfl

/-- The second is not issued after a failed first under `SKIP_REST`. -/
theorem detectIds_diag_of_skip (h1 : (firstRead fdiv u base s).status ≠ .ok) (hp : s.params.onMdioFail = .skipRest) :
    (detectIds fdiv u base s).2.diag = (firstRead fdiv u base s).diag := by
  rw [detectIds_diag, if_neg (by simp [proceed, firstRead_params, hp, h1])]

/-- It is issued after a good first, and under `CONTINUE`. -/
theorem detectIds_diag_of_proceed
    (h : (firstRead fdiv u base s).status = .ok ∨ s.params.onMdioFail = .continueSteps) :
    (detectIds fdiv u base s).2.diag = (secondRead fdiv u base s).diag := by
  rw [detectIds_diag, if_pos (by simpa [proceed, firstRead_params] using h)]

end

/-- Steps 3 to 5 emit the diagnostics of step 4, which runs when the initiator read succeeded. -/
theorem detectPhy_diag (base : Word) (fdiv : BitVec 3) (s : State) :
    (detectPhy base fdiv s).diag =
      if (readAns (regAddr base offUPhyaddr) s).ok then
        (detectIds fdiv (readAns (regAddr base offUPhyaddr) s).word base
          (stageEntry (.uMdioPhyaddr (readAns (regAddr base offUPhyaddr) s).word)
            (afterRead (regAddr base offUPhyaddr) s))).2.diag
      else s.diag := by
  have target : ∀ good t, (detectTarget base good t).2.diag = t.diag := fun good t => by
    obtain ⟨-, -, -, hd, -⟩ := detectTarget_spec base good t
    exact hd
  simp only [detectPhy, commitStage_diag, target]
  split <;> rfl

/-- Steps 2 to 5: with a failed step-2 read there is no diagnostic. -/
theorem detectMdio_diag (base : Word) (s : State) :
    (detectMdio base s).diag =
      if (readAns (regAddr base offRwctrl) s).ok then
        (detectPhy base (readDivider (readAns (regAddr base offRwctrl) s).word) (afterRead (regAddr base offRwctrl) s)).diag
      else s.diag := by
  simp only [detectMdio]
  split <;> rfl

/-- The strap query and the hand-over emit none. -/
theorem detectOp_diag (gen : Word) (s : State) :
    (detectOp gen s).diag = (detectController gen (freshRecord s)).diag := by
  rw [detectOp_eq, strapOp_eq]
  rfl

/-- The divider read back is bits 7:5 (R74). -/
theorem readDivider_eq (c : Word) : readDivider c = c.extractLsb' 5 3 := by rw [readDivider, wordFields_extract]

/-- A next state of `MDIO_READ` is its transaction's. -/
theorem exec_mdioRead_next {f p b r : Word} {s t : State} (h : exec (.mdioRead f p b r) s = .next t) :
    t = transaction f p b r s := by
  rw [exec_operation rfl] at h
  exact (whenIdle_next.mp h).2.symm

/-- Settles O51: a transaction's diagnostic is its status's, the other operations have none of their own, and `DETECT` has
those of the transactions it issues. -/
theorem diagnosticsNameTheirFailure : Obligations.DiagnosticsNameTheirFailure := by
  refine ⟨fun s f p b r hp => ?_, fun s t i hm hd h => ?_, fun s gen hp => ?_⟩
  · obtain ⟨-, -, -, -, hdiag⟩ := (transaction_outcome f p b r s).ends
    exact ⟨_, exec_of_idle rfl hp, hdiag⟩
  · rcases exec_next h with ⟨-, -, rfl⟩ | ⟨-, cy, b, rfl⟩
    · exact (opEffect_operationFrame hd hm s).diag
    · rfl
  · refine ⟨detectOp gen s, exec_of_idle rfl hp, fun hb => ?_, fun b hb => ?_⟩
    · simp only [detectOp_diag, detectController, freshRecord_params, hb]
      rfl
    · have hdiag : (detectOp gen s).diag = (detectMdio b (freshRecord s)).diag := by
        simp only [detectOp_diag, detectController, freshRecord_params, hb]
      rw [hdiag, detectMdio_diag]
      intro s1 c fdiv u s2
      have hc : readAns (regAddr b offRwctrl) (freshRecord s) = c := rfl
      have hu : readAns (regAddr b offUPhyaddr) (afterRead (regAddr b offRwctrl) (freshRecord s)) = u := rfl
      have hs2 : stageEntry (.uMdioPhyaddr u.word)
        (afterRead (regAddr b offUPhyaddr) (afterRead (regAddr b offRwctrl) (freshRecord s))) = s2 := rfl
      have hfdiv : (readDivider c.word).setWidth 32 = fdiv := by rw [readDivider_eq]
      simp only [hc, detectPhy_diag, hu, hs2]
      refine ⟨?_, fun hcok huok t1 ht1 => ?_⟩
      · rintro (h | h) <;> simp [h]
      · simp only [hcok, huok, if_true]
        have e1 : firstRead (readDivider c.word) u.word b s2 = t1 := by
          rw [exec_mdioRead_next ht1, firstRead, hfdiv]
        refine ⟨fun hst hskip => ?_, fun hgo t2 ht2 => ?_⟩
        · rw [detectIds_diag_of_skip (s := s2) (by rwa [e1]) hskip, e1]
        · rw [detectIds_diag_of_proceed (by rwa [e1]), secondRead, e1, hfdiv, exec_mdioRead_next ht2]

/-! ## Registers without a value (R47, U22) -/

/-- A step in a phase that would read a register without a value faults on it. -/
theorem step_of_valuelessRead {s : State} {r : EngineReg} (hp : s.phase ≠ .idle) (h : valuelessRead s = some r) :
    step s = .fault (.valuelessRegister r) := by
  rw [step, if_neg hp, phaseStep, h]

/-- A step in a phase that reads none is its transition. -/
theorem step_of_no_valuelessRead {s : State} (hp : s.phase ≠ .idle) (h : valuelessRead s = none) :
    step s = .next (phaseNext s) := by
  rw [step, if_neg hp, phaseStep, h]

/-- What the two poll phases would read without a value: `CNT`, and a latch only when `CNT` is not 0 (R126). -/
theorem valuelessRead_poll {s : State} (h : s.phase = .waitReadyPre ∨ s.phase = .waitReadyPost) :
    valuelessRead s = if s.cntValued = false then some .cnt
      else if s.cnt ≠ 0 ∧ s.latchesValued = false then some .base else none := by
  rcases h with h | h <;> rw [valuelessRead, h]

/-- What the two access phases would read without a value: a latch. -/
theorem valuelessRead_access {s : State} (h : s.phase = .commandIssued ∨ s.phase = .resultRead) :
    valuelessRead s = if s.latchesValued = false then some .base else none := by
  rcases h with h | h <;> rw [valuelessRead, h]

/-- A poll phase's step with a `CNT` of 0 times out, whether or not the latches have a value (R96, R98, R126). -/
theorem PollPhase.step_timeout {ph onReady : Phase} {tag : Diag} {st : Status} (P : PollPhase ph onReady tag st)
    {s : State} (hp : s.phase = ph) (hpoll : s.phase = .waitReadyPre ∨ s.phase = .waitReadyPost)
    (hv : s.cntValued = true) (hc : s.cnt = 0) : step s = .next (failTransaction st (emitDiag tag s)) := by
  rw [step_of_no_valuelessRead (hp ▸ P.busy) (by simp [valuelessRead_poll hpoll, hv, hc]), P.next s hp, pollPhase, if_pos hc]

/-- Settles O27: by what each phase's step would read. -/
theorem valuelessLatchesFault : Obligations.ValuelessLatchesFault := by
  intro s
  refine ⟨fun hp hv => ?_, fun hp hv hc hl => ?_, fun hp hl => ?_, fun hp hv hc => ?_, fun hp hv hc => ?_⟩
  · exact step_of_valuelessRead (by rcases hp with h | h <;> simp [h]) (by simp [valuelessRead_poll hp, hv])
  · exact step_of_valuelessRead (by rcases hp with h | h <;> simp [h]) (by simp [valuelessRead_poll hp, hv, hc, hl])
  · exact step_of_valuelessRead (by rcases hp with h | h <;> simp [h]) (by simp [valuelessRead_access hp, hl])
  · exact preCheck.step_timeout hp (.inl hp) hv hc
  · exact postCheck.step_timeout hp (.inr hp) hv hc

/-! ## Read-class words at the controller (R84) -/

/-- One bit of a word as a field. -/
theorem extractLsb'_one (w : Word) (k : Nat) : w.extractLsb' k 1 = BitVec.ofBool (w.getLsbD k) := by
  ext i hi
  obtain rfl : i = 0 := by omega
  simp

/-- The three flags of a command word are its bits 15, 14 and 13 (R68). -/
theorem wordFields_flags (w : Word) : (wordFields w).finish = BitVec.ofBool (w.getLsbD 15) ∧
    (wordFields w).reserved = BitVec.ofBool (w.getLsbD 14) ∧ (wordFields w).rw = BitVec.ofBool (w.getLsbD 13) := by
  rw [wordFields_extract]
  exact ⟨extractLsb'_one w 15, extractLsb'_one w 14, extractLsb'_one w 13⟩

/-- A word with `rw = 0` outside the form of `MDIO_CMD_READ` is decoded as read-class (R70, R84). -/
theorem decodeCommand_readClass {w : Word} (h13 : w.getLsbD 13 = false) (hrow : w &&& 0xFFFFE000#32 ≠ 0#32) :
    decodeCommand w = .readClass w := by
  have hr : isReadCommand w = false := by simpa [isReadCommand] using hrow
  have hw : isWriteCommand w ≠ true := by
    obtain ⟨-, -, hrw⟩ := wordFields_flags w
    rw [Ne, isWriteCommand_iff, hrw, h13]
    decide
  rcases decodeCommand_cases w with ⟨h, -⟩ | ⟨-, h, -⟩ | ⟨-, -, h⟩
  · exact absurd h hw
  · rw [hr] at h; cases h
  · exact h

/-- A step with a read-class word presented first is what the controller does with it. -/
theorem step_readClass {s : State} {w : Word} {rest : List Presented} (hp : s.phase = .idle)
    (hin : s.inbox = .command w :: rest) (h13 : w.getLsbD 13 = false) (hrow : w &&& 0xFFFFE000#32 ≠ 0#32) :
    step s = takeReadClass w { s with inbox := rest } := by
  have hf : fetch s = .taken (.readClass w) rest := by
    rw [fetch, hin, ← decodeCommand_readClass h13 hrow]
    rfl
  rw [step, if_pos hp, hf]

/-- With `finish` and `reserved` 0 the word is taken as a read command (R37). -/
theorem takeReadClass_of_flags_zero {w : Word} (h15 : w.getLsbD 15 = false) (h14 : w.getLsbD 14 = false) (s : State) :
    takeReadClass w s = .next (takeReadCommand w s) := by
  obtain ⟨hf, hr, -⟩ := wordFields_flags w
  have h : (wordFields w).finish = 0 ∧ (wordFields w).reserved = 0 := by rw [hf, hr, h15, h14]; exact ⟨rfl, rfl⟩
  rw [takeReadClass, if_pos h]

/-- With one of them 1 the undescribed controller's answer is refused (U13). -/
theorem takeReadClass_of_flag_one {w : Word} (h : w.getLsbD 15 = true ∨ w.getLsbD 14 = true) (s : State) {l : List Answer}
    {n : Nat} (hb : s.bus = .oracle l n) : takeReadClass w s = .refused .finishOrReservedWritten := by
  obtain ⟨hf, hr, -⟩ := wordFields_flags w
  rcases h with h | h <;> simp [takeReadClass, hf, hr, h, hb]

/-- The reference device takes every read-class word (R133). -/
theorem takeReadClass_reference (w : Word) (s : State) {d : RefDevice} (hb : s.bus = .reference d) :
    takeReadClass w s = .next (takeReadCommand w s) := by
  simp [takeReadClass, hb]

/-- The reference device's reaction to a word with `rw = 0` (R133). -/
theorem RefDevice.takeCommand_read (d : RefDevice) {w : Word} (h13 : w.getLsbD 13 = false) :
    d.takeCommand w =
      { d with fdv := w.extractLsb' 5 3, n := d.n + 1, fin := 0, cnt := d.latency (d.n + 1), cmd := w } := by
  obtain ⟨-, -, hrw⟩ := wordFields_flags w
  have h0 : (wordFields w).rw = 0 := by rw [hrw, h13]; rfl
  rw [RefDevice.takeCommand, if_pos h0, wordFields_extract]

/-- The cycle of a word names PHY and register by `ADDR_ASSIGN`, and the word's divider (R70, R73). -/
theorem cycleOf_fields (p : Params) (w : Word) : (cycleOf p w).divider = w.extractLsb' 5 3 ∧
    (p.addrAssign = .exIsPhy → (cycleOf p w).phy = w.extractLsb' 8 5 ∧ (cycleOf p w).reg = w.extractLsb' 0 5) ∧
    (p.addrAssign = .exIsReg → (cycleOf p w).phy = w.extractLsb' 0 5 ∧ (cycleOf p w).reg = w.extractLsb' 8 5) := by
  cases h : p.addrAssign <;> simp [cycleOf, wordFields_extract, h]

/-- Settles O56: the word is decoded as read-class, and the flags and the kind of bus decide what becomes of it. -/
theorem readClassWordsAtTheController : Obligations.ReadClassWordsAtTheController := by
  intro s w rest hp hin h13 hrow
  have hstep := step_readClass hp hin h13 hrow
  obtain ⟨hdiv, hphy, hreg⟩ := cycleOf_fields s.params w
  refine ⟨cycleOf s.params w, hdiv, hphy, hreg, fun l n hb => ⟨fun h15 h14 => ?_, fun h => ?_⟩, fun d hb => ?_⟩
  · rw [hstep, takeReadClass_of_flags_zero h15 h14, takeReadCommand, hb]
    rfl
  · rw [hstep, takeReadClass_of_flag_one h { s with inbox := rest } hb]
  · rw [hstep, takeReadClass_reference w { s with inbox := rest } hb, ← RefDevice.takeCommand_read d h13, takeReadCommand, hb]
    rfl

end Sys2Proof.Machine

namespace Sys2Proof.Machine

/-! ## The memory family: bus accesses and where they go (20_memory.md) -/

/-- The state after the engine's command write (R51, R58, R64). -/
theorem afterCommandWrite_eq (addr w : Word) (s : State) : afterCommandWrite addr w s = { s with
    trace := s.trace ++ [.wr addr w (writeOk addr w s)]
    bus := (s.bus.answer s.params (s.trace.length + 1) (.wr addr w)).2
    cycles := if writeReached addr w s then s.cycles ++ [cycleOf s.params w] else s.cycles } := by
  apply State.ext <;> simp [afterCommandWrite_cycles]

/-- Settles O17: an access is its event and the primitive moved on, and the primitive's answers are its definition's. -/
theorem accessAppendsOneEvent : Obligations.AccessAppendsOneEvent :=
  ⟨fun s addr w => ⟨⟨rfl, rfl⟩, rfl, afterCommandWrite_eq addr w s⟩, fun p ev acc a l n => Bus.answer_script a l n p ev acc,
    fun p ev acc n => Bus.answer_draw n p ev acc⟩

/-! ### The accesses of a transaction -/

/-- The event is a write at `addr`. -/
def BusEvent.writesAt (addr : Word) (e : BusEvent) : Bool := e.isWrite && e.addr == addr

/-- The event is a read of `addr`. -/
def BusEvent.readsAt (addr : Word) (e : BusEvent) : Bool := !e.isWrite && e.addr == addr

@[simp] theorem BusEvent.writesAt_rd (addr a v : Word) (ok : Bool) : (BusEvent.rd a v ok).writesAt addr = false := rfl
@[simp] theorem BusEvent.writesAt_wr (addr a v : Word) (ok : Bool) : (BusEvent.wr a v ok).writesAt addr = (a == addr) := rfl
@[simp] theorem BusEvent.readsAt_rd (addr a v : Word) (ok : Bool) : (BusEvent.rd a v ok).readsAt addr = (a == addr) := rfl
@[simp] theorem BusEvent.readsAt_wr (addr a v : Word) (ok : Bool) : (BusEvent.wr a v ok).readsAt addr = false := rfl

/-- The two registers a transaction accesses are two, whatever the base (R36, R50). -/
theorem regAddr_offRwctrl_ne_offRoData (b : Word) : regAddr b offRwctrl ≠ regAddr b offRoData := by
  simp [regAddr, offRwctrl, offRoData]

/-- What `q` says of every read of `MDIO_RWCTRL` it says of all the polls or of none. -/
theorem countP_pollEvents {q : BusEvent → Bool} {c : Bool} {b : Word} (hq : ∀ v ok, q (.rd (regAddr b offRwctrl) v ok) = c)
    (k : Nat) (s : State) : (pollEvents b k s).countP q = if c then k else 0 := by
  have hc : ∀ e ∈ pollEvents b k s, q e = c := fun e he => by
    obtain ⟨v, ok, rfl⟩ := pollEvents_mem he
    exact hq v ok
  cases c with
  | false => simpa [List.countP_eq_zero] using hc
  | true => simpa [pollEvents_length] using List.countP_eq_length.mpr hc

/-- The accesses a transaction of base `b` may make (R58, R59). -/
inductive ReadAccess (b : Word) : BusEvent → Prop where
  | poll (v : Word) (ok : Bool) : ReadAccess b (.rd (regAddr b offRwctrl) v ok)
  | command (w : Word) (ok : Bool) : ReadAccess b (.wr (regAddr b offRwctrl) w ok)
  | result (v : Word) (ok : Bool) : ReadAccess b (.rd (regAddr b offRoData) v ok)

theorem readAccess_of_mem_pollEvents {b : Word} {k : Nat} {s : State} : ∀ e ∈ pollEvents b k s, ReadAccess b e :=
  fun e he => by
    obtain ⟨v, ok, rfl⟩ := pollEvents_mem he
    exact .poll v ok

/-- A transaction makes no other access. -/
theorem ReadEvents.readAccess {b w : Word} {n : Nat} {evs : List BusEvent} {st : Status} (h : ReadEvents b w n evs st) :
    ∀ e ∈ evs, ReadAccess b e := by
  cases h with
  | polls k s st hk hst => exact readAccess_of_mem_pollEvents
  | write k s h =>
    simp only [List.forall_mem_append, List.forall_mem_singleton]
    exact ⟨readAccess_of_mem_pollEvents, .command w false⟩
  | polls2 k j s y st h hj hst =>
    simp only [List.forall_mem_append, List.forall_mem_singleton]
    exact ⟨⟨readAccess_of_mem_pollEvents, .command w true⟩, readAccess_of_mem_pollEvents⟩
  | result k j s y v ok h h2 =>
    simp only [List.forall_mem_append, List.forall_mem_singleton]
    exact ⟨⟨⟨readAccess_of_mem_pollEvents, .command w true⟩, readAccess_of_mem_pollEvents⟩, .result v ok⟩

/-- How many accesses of each kind a transaction makes: one command write and one result read at most, exactly one each
when it ends `OK`, and up to `n` polls before the command and after it (R58, R59, R151). -/
structure AccessCounts (b : Word) (n : Nat) (evs : List BusEvent) (st : Status) : Prop where
  commands : evs.countP (BusEvent.writesAt (regAddr b offRwctrl)) ≤ 1
  results  : evs.countP (BusEvent.readsAt (regAddr b offRoData)) ≤ 1
  polls    : evs.countP (BusEvent.readsAt (regAddr b offRwctrl)) ≤ 2 * n
  ok       : st = .ok → evs.countP (BusEvent.writesAt (regAddr b offRwctrl)) = 1 ∧
    evs.countP (BusEvent.readsAt (regAddr b offRoData)) = 1

theorem ReadEvents.accessCounts {b w : Word} {n : Nat} {evs : List BusEvent} {st : Status} (h : ReadEvents b w n evs st) :
    AccessCounts b n evs st := by
  have hne := regAddr_offRwctrl_ne_offRoData b
  have writes : ∀ k s, (pollEvents b k s).countP (BusEvent.writesAt (regAddr b offRwctrl)) = 0 :=
    countP_pollEvents (c := false) (by simp)
  have results : ∀ k s, (pollEvents b k s).countP (BusEvent.readsAt (regAddr b offRoData)) = 0 :=
    countP_pollEvents (c := false) (by simp [hne])
  have polls : ∀ k s, (pollEvents b k s).countP (BusEvent.readsAt (regAddr b offRwctrl)) = k :=
    countP_pollEvents (c := true) (by simp)
  cases h with
  | polls k s st hk hst =>
    constructor <;> simp [writes, results, polls, hst]
    omega
  | write k s h =>
    have hlt := h.lt
    constructor <;> simp [writes, results, polls]
    omega
  | polls2 k j s y st h hj hst =>
    have hlt := h.lt
    constructor <;> simp [writes, results, polls, hst]
    omega
  | result k j s y v ok h h2 =>
    have hlt := h.lt
    have hlt2 := h2.lt
    constructor <;> simp [writes, results, polls, hne.symm]
    omega

/-- Accesses of a transaction number those at `MDIO_RO_DATA` and those at `MDIO_RWCTRL`. -/
theorem length_of_readAccess {b : Word} {evs : List BusEvent} (h : ∀ e ∈ evs, ReadAccess b e) :
    evs.length = evs.countP (fun e => e.addr == regAddr b offRoData) + evs.countP (fun e => e.addr == regAddr b offRwctrl) := by
  have hne := regAddr_offRwctrl_ne_offRoData b
  rw [List.length_eq_countP_add_countP (fun e : BusEvent => e.addr == regAddr b offRoData)]
  congr 1
  refine List.countP_congr fun e he => ?_
  cases h e he <;> simp [BusEvent.addr, hne, hne.symm]

/-- Settles O35: by the events of a transaction's ends. -/
theorem mdioReadAccessCounts : Obligations.MdioReadAccessCounts := by
  intro s f p b r hp
  obtain ⟨evs, htr, hev⟩ := (transaction_outcome f p b r s).events
  obtain ⟨hcommands, hresults, hpolls, hok⟩ := hev.accessCounts
  have hacc := hev.readAccess
  refine ⟨_, evs, exec_of_idle rfl hp, htr, hcommands, fun e he hw => ?_, hresults, hpolls, length_of_readAccess hacc, hok⟩
  cases hacc e he with
  | poll => cases hw
  | command => rfl
  | result => cases hw

/-! ### The accesses of `DETECT` -/

/-- From `s` to `t` events were appended to `TRACE`, each of them one that `A` allows. -/
def AppendsOnly (A : BusEvent → Prop) (s t : State) : Prop := ∃ evs, t.trace = s.trace ++ evs ∧ ∀ e ∈ evs, A e

namespace AppendsOnly

variable {A B : BusEvent → Prop} {s t u : State}

theorem of_trace_eq (h : t.trace = s.trace) : AppendsOnly A s t := ⟨[], by simp [h], by simp⟩

theorem trans (h : AppendsOnly A s t) (h' : AppendsOnly A t u) : AppendsOnly A s u := by
  obtain ⟨evs, e, he⟩ := h
  obtain ⟨evs', e', he'⟩ := h'
  exact ⟨evs ++ evs', by rw [e', e, List.append_assoc], List.forall_mem_append.mpr ⟨he, he'⟩⟩

theorem mono (hAB : ∀ e, A e → B e) (h : AppendsOnly A s t) : AppendsOnly B s t := by
  obtain ⟨evs, e, he⟩ := h
  exact ⟨evs, e, fun x hx => hAB x (he x hx)⟩

/-- A read appends its event (R51). -/
theorem read (addr : Word) (s : State) (h : ∀ v ok, A (.rd addr v ok)) : AppendsOnly A s (afterRead addr s) :=
  ⟨_, afterRead_trace s addr, by simpa using h _ _⟩

/-- A transaction polls, writes the command and reads the result. -/
theorem transaction (f p b r : Word) (s : State) : AppendsOnly (ReadAccess b) s (transaction f p b r s) := by
  obtain ⟨evs, htr, hev⟩ := (transaction_outcome f p b r s).events
  exact ⟨evs, htr, hev.readAccess⟩

end AppendsOnly

/-- The accesses the MDIO steps of `DETECT` may make at the base `b`: at `MDIO_RWCTRL`, and reads of the three other
registers (R60). -/
def ControllerAccess (b : Word) (e : BusEvent) : Prop :=
  e.addr = b + 0x1100 ∨ (e.isWrite = false ∧ (e.addr = b + 0x1104 ∨ e.addr = b + 0x0108 ∨ e.addr = b + 0x2108))

/-- The accesses `DETECT` may make under a generation's record: those at its base, and reads of its strap (R49, R61). -/
def DetectAccess (g : GenRecord) (e : BusEvent) : Prop :=
  (∃ b, g.mdioBase = some b ∧ ControllerAccess b e) ∨ (∃ x, g.strap = some x ∧ e.isWrite = false ∧ e.addr = x.addr)

theorem ReadAccess.controllerAccess {b : Word} {e : BusEvent} (h : ReadAccess b e) : ControllerAccess b e := by
  cases h with
  | poll => exact .inl rfl
  | command => exact .inl rfl
  | result => exact .inr ⟨rfl, .inl rfl⟩

/-- Steps 2 to 5 keep to the base's registers. -/
theorem detectMdio_accesses (b : Word) (s : State) : AppendsOnly (ControllerAccess b) s (detectMdio b s) := by
  refine detectMdio_induct (P := AppendsOnly (ControllerAccess b) s) b s (fun off t hoff h => h.trans (.read _ t ?_))
    (fun f p r t h => h.trans ((AppendsOnly.transaction f p b r t).mono fun _ => ReadAccess.controllerAccess))
    (fun _ _ h => h) (fun g t h => h.trans (.of_trace_eq (commitStage_trace t g))) (.of_trace_eq rfl)
  intro v ok
  rcases hoff with rfl | rfl | rfl
  · exact .inl rfl
  · exact .inr ⟨rfl, .inr (.inl rfl)⟩
  · exact .inr ⟨rfl, .inr (.inr rfl)⟩

/-- Steps 1 to 5 keep to the generation's base, if it has one. -/
theorem detectController_accesses (gen : Word) (s : State) :
    AppendsOnly (DetectAccess (genRecord s.params gen)) s (detectController gen s) := by
  unfold detectController
  split
  · exact .of_trace_eq rfl
  · next b hb => exact (detectMdio_accesses b s).mono fun e he => .inl ⟨b, hb, he⟩

/-- The strap query reads the generation's strap, if it has one. -/
theorem strapOp_accesses (gen : Word) (s : State) :
    AppendsOnly (DetectAccess (genRecord s.params gen)) s (strapOp gen s) := by
  unfold strapOp afterStrapRead
  split
  · exact .of_trace_eq rfl
  · next x hx => exact .read x.addr s fun v ok => .inr ⟨x, hx, rfl, rfl⟩

/-- Settles O48: the MDIO steps and the strap query run under one record, since no step changes the parameters. -/
theorem detectTouchesOnlyItsRegisters : Obligations.DetectTouchesOnlyItsRegisters := by
  intro s gen hp
  obtain ⟨hframe, -, -, -⟩ := detectController_spec gen (freshRecord s) hp rfl rfl
  have hstrap := strapOp_accesses gen (detectController gen (freshRecord s))
  rw [hframe.params] at hstrap
  obtain ⟨evs, htr, hev⟩ := (detectController_accesses gen (freshRecord s)).trans hstrap
  refine ⟨detectOp gen s, evs, exec_of_idle rfl hp, ?_, hev⟩
  rw [detectOp_eq]
  exact htr

end Sys2Proof.Machine

namespace Sys2Proof

/-! ## The encoding family: which headers are legal (30_encoding.md R79, R81) -/

/-- A header is illegal by R81: op code 0x0, op code 0xB to 0xF, or a bit of 31:4 set. -/
def IllegalHeader (header : Word) : Prop :=
  (header &&& 0xF#32).toNat = 0 ∨ 0xB ≤ (header &&& 0xF#32).toNat ∨ header >>> 4 ≠ 0#32

/-- A header is legal when its op code is 0x1 to 0xA and bits 31:4 are zero. -/
theorem not_illegalHeader_iff (header : Word) : ¬ IllegalHeader header ↔
    1 ≤ (header &&& 0xF#32).toNat ∧ (header &&& 0xF#32).toNat < 0xB ∧ header >>> 4 = 0#32 := by
  simp only [IllegalHeader, not_or, not_le, not_not, Nat.one_le_iff_ne_zero, ne_eq]

/-- The ten rows of R79's table. -/
theorem argCount_rows {header : Word} {k : Nat} (h : argCount header = some k) :
    (header = 0x1 ∧ k = 7) ∨ (header = 0x2 ∧ k = 1) ∨ (header = 0x3 ∧ k = 1) ∨ (header = 0x4 ∧ k = 4) ∨
    (header = 0x5 ∧ k = 1) ∨ (header = 0x6 ∧ k = 4) ∨ (header = 0x7 ∧ k = 1) ∨ (header = 0x8 ∧ k = 2) ∨
    (header = 0x9 ∧ k = 1) ∨ (header = 0xA ∧ k = 1) := by
  obtain ⟨before, after, htable, -⟩ := List.lookup_eq_some_iff.mp h
  have hmem : (header, k) ∈ before ++ (header, k) :: after := List.mem_append_right _ List.mem_cons_self
  rw [← htable] at hmem
  simpa only [List.mem_cons, Prod.mk.injEq, List.not_mem_nil, or_false] using hmem

/-- A header of R79's table is legal. -/
theorem not_illegalHeader_of_argCount {header : Word} {k : Nat} (h : argCount header = some k) :
    ¬ IllegalHeader header := by
  rw [not_illegalHeader_iff]
  rcases argCount_rows h with ⟨rfl, -⟩ | ⟨rfl, -⟩ | ⟨rfl, -⟩ | ⟨rfl, -⟩ | ⟨rfl, -⟩ | ⟨rfl, -⟩ | ⟨rfl, -⟩ |
    ⟨rfl, -⟩ | ⟨rfl, -⟩ | ⟨rfl, -⟩ <;> decide

/-- R79's table has a row for every legal header. -/
theorem illegalHeader_of_argCount_none {header : Word} (h : argCount header = none) : IllegalHeader header := by
  by_contra hlegal
  obtain ⟨hpos, hlt, h0⟩ := (not_illegalHeader_iff header).mp hlegal
  rw [header_eq h0] at h
  generalize (header &&& 0xF#32).toNat = n at h hpos hlt
  interval_cases n <;> cases h

/-! ## The decoder of descriptors (R79, R81) -/

/-- An illegal header is illegal whatever follows it. -/
theorem decodeDescriptor_illegal {header : Word} (h : IllegalHeader header) (args : List Word) :
    decodeDescriptor (header :: args) = .illegal := by
  unfold decodeDescriptor
  dsimp only
  by_cases h0 : header >>> 4 = 0#32
  · rw [if_neg (not_not_intro h0)]
    rcases h with hop | hop | h1
    · rw [hop]
      rfl
    · obtain ⟨n, hn⟩ := Nat.exists_eq_add_of_le' hop
      rw [hn]
      rfl
    · exact absurd h0 h1
  · exact if_pos h0

/-- A legal header with another number of argument words than R79 gives: each row of the decoder compares with the
number that R79's table has for its op code. -/
theorem decodeDescriptor_wrongLength {header : Word} {k : Nat} {args : List Word} (h : argCount header = some k)
    (hl : args.length ≠ k) : decodeDescriptor (header :: args) = wrongLength k args := by
  obtain ⟨hpos, hlt, h0⟩ := (not_illegalHeader_iff header).mp (not_illegalHeader_of_argCount h)
  unfold decodeDescriptor
  dsimp only
  rw [if_neg (not_not_intro h0)]
  rw [header_eq h0] at h
  generalize (header &&& 0xF#32).toNat = n at h hpos hlt
  split
  case h_1 | h_3 | h_5 | h_7 | h_9 | h_11 | h_13 | h_15 | h_17 | h_19 =>
    cases h
    exact absurd rfl hl
  case h_2 | h_4 | h_6 | h_8 | h_10 | h_12 | h_14 | h_16 | h_18 | h_20 =>
    cases h
    rfl
  case h_21 => interval_cases n <;> contradiction

/-- A descriptor of the wrong length is no instruction. -/
theorem wrongLength_ne_instr (k : Nat) (args : List Word) (i : Instr) : wrongLength k args ≠ .instr i := by
  unfold wrongLength
  split <;> simp

/-- A descriptor that decodes to an instruction has a legal header and R79's length. -/
theorem descriptorWf_of_decode {ws : List Word} {i : Instr} (h : decodeDescriptor ws = .instr i) :
    descriptorWf ws = true := by
  cases ws with
  | nil => cases h
  | cons header args =>
    cases hk : argCount header with
    | none =>
      rw [decodeDescriptor_illegal (illegalHeader_of_argCount_none hk)] at h
      cases h
    | some k =>
      by_cases hl : args.length = k
      · simp [descriptorWf, hk, hl]
      · rw [decodeDescriptor_wrongLength hk hl] at h
        exact absurd h (wrongLength_ne_instr k args i)

/-! ## The decoder of command words (R70) -/

/-- A word of the class `MDIO_CMD_WRITE` decodes to it. -/
theorem decodeCommand_of_write {w : Word} (hw : isWriteCommand w = true) :
    decodeCommand w = .instr (.mdioCmdWrite (wordFields w).cpuDataIn (wordFields w).finish (wordFields w).reserved
      (wordFields w).phyExaddr (wordFields w).frqDv (wordFields w).phyInaddr) := by
  simpa [hw] using decodeCommand_cases w

/-- A word of the class `MDIO_CMD_READ` has `rw = 0` and decodes to it. -/
theorem decodeCommand_of_read {w : Word} (hr : isReadCommand w = true) :
    decodeCommand w = .instr (.mdioCmdRead (wordFields w).phyExaddr (wordFields w).frqDv (wordFields w).phyInaddr) := by
  obtain ⟨-, -, -, hrw⟩ := (isReadCommand_iff w).mp hr
  have hw : isWriteCommand w = false := by
    rw [← Bool.not_eq_true, isWriteCommand_iff, hrw]
    decide
  simpa [hw, hr] using decodeCommand_cases w

/-- A command word that decodes to an instruction is of one of the two classes. -/
theorem commandWf_of_decode {w : Word} {i : Instr} (h : decodeCommand w = .instr i) :
    (isReadCommand w || isWriteCommand w) = true := by
  rcases decodeCommand_cases w with ⟨hw, -⟩ | ⟨-, hr, -⟩ | ⟨-, -, hc⟩
  · rw [hw, Bool.or_true]
  · rw [hr, Bool.true_or]
  · rw [hc] at h
    cases h

/-- The read command with its three fields decodes to them (R68, R70). -/
theorem decodeCommand_fieldsWord_read (ex : BitVec 5) (fd : BitVec 3) (inn : BitVec 5) :
    decodeCommand (fieldsWord ⟨0, 0, 0, 0, ex, fd, inn⟩) = .instr (.mdioCmdRead ex fd inn) := by
  rw [decodeCommand_of_read, wordFields_fieldsWord]
  rw [isReadCommand_iff, wordFields_fieldsWord]
  exact ⟨rfl, rfl, rfl, rfl⟩

/-- The write command with its six fields decodes to them (R68, R70). -/
theorem decodeCommand_fieldsWord_write (d : BitVec 16) (f r : BitVec 1) (ex : BitVec 5) (fd : BitVec 3) (inn : BitVec 5) :
    decodeCommand (fieldsWord ⟨d, f, r, 1, ex, fd, inn⟩) = .instr (.mdioCmdWrite d f r ex fd inn) := by
  rw [decodeCommand_of_write, wordFields_fieldsWord]
  rw [isWriteCommand_iff, wordFields_fieldsWord]

/-- Settles O10: a descriptor is decoded by its row, and a command word by the fields it was made of. -/
theorem decodeOfEncodeIsTheInstruction : Obligations.DecodeOfEncodeIsTheInstruction := by
  intro i
  cases i with
  | mdioCmdRead ex fd inn => exact decodeCommand_fieldsWord_read ex fd inn
  | mdioCmdWrite d f r ex fd inn => exact decodeCommand_fieldsWord_write d f r ex fd inn
  | composeCtrl | decodeCtrl | waitReady | startRead | readResult | mdioRead | selectMap | decodeStrap | readStrap
  | detect => rfl

/-! ## Every well-formed term is some instruction's encoding -/

/-- A legal header with as many argument words as R79 gives is the descriptor of its row's operation. -/
theorem exists_encode_of_argCount {header : Word} {k : Nat} {args : List Word} (h : argCount header = some k)
    (hl : args.length = k) : ∃ i, encode i = .descriptor (header :: args) := by
  rcases argCount_rows h with ⟨rfl, rfl⟩ | ⟨rfl, rfl⟩ | ⟨rfl, rfl⟩ | ⟨rfl, rfl⟩ | ⟨rfl, rfl⟩ | ⟨rfl, rfl⟩ | ⟨rfl, rfl⟩ |
    ⟨rfl, rfl⟩ | ⟨rfl, rfl⟩ | ⟨rfl, rfl⟩
  · match args, hl with | [d, f, r, rw, ex, fd, inn], _ => exact ⟨.composeCtrl d f r rw ex fd inn, rfl⟩
  · match args, hl with | [w], _ => exact ⟨.decodeCtrl w, rfl⟩
  · match args, hl with | [base], _ => exact ⟨.waitReady base, rfl⟩
  · match args, hl with | [base, fd, phy, reg], _ => exact ⟨.startRead base fd phy reg, rfl⟩
  · match args, hl with | [base], _ => exact ⟨.readResult base, rfl⟩
  · match args, hl with | [fd, phy, base, reg], _ => exact ⟨.mdioRead fd phy base reg, rfl⟩
  · match args, hl with | [gen], _ => exact ⟨.selectMap gen, rfl⟩
  · match args, hl with | [gen, code], _ => exact ⟨.decodeStrap gen code, rfl⟩
  · match args, hl with | [gen], _ => exact ⟨.readStrap gen, rfl⟩
  · match args, hl with | [gen], _ => exact ⟨.detect gen, rfl⟩

/-- A word of the class `MDIO_CMD_READ` is the word of its three fields. -/
theorem encode_mdioCmdRead_wordFields {w : Word} (h : isReadCommand w = true) :
    encode (.mdioCmdRead (wordFields w).phyExaddr (wordFields w).frqDv (wordFields w).phyInaddr) = .command w := by
  obtain ⟨hd, hf, hr, hrw⟩ := (isReadCommand_iff w).mp h
  rw [encode, ← fieldsWord_wordFields w, wordFields_fieldsWord]
  simp only [fieldsWord, hd, hf, hr, hrw]

/-- A word of the class `MDIO_CMD_WRITE` is the word of its six fields. -/
theorem encode_mdioCmdWrite_wordFields {w : Word} (h : isWriteCommand w = true) :
    encode (.mdioCmdWrite (wordFields w).cpuDataIn (wordFields w).finish (wordFields w).reserved
      (wordFields w).phyExaddr (wordFields w).frqDv (wordFields w).phyInaddr) = .command w := by
  rw [encode, ← (isWriteCommand_iff w).mp h]
  exact congrArg Presented.command (fieldsWord_wordFields w)

/-- The encoder reaches every well-formed presented term. -/
theorem exists_encode_of_wf {p : Presented} (h : p.wf = true) : ∃ i, encode i = p := by
  cases p with
  | descriptor ws =>
    cases ws with
    | nil => cases h
    | cons header args =>
      cases hk : argCount header with
      | none => simp [Presented.wf, descriptorWf, hk] at h
      | some k => exact exists_encode_of_argCount hk (by simpa [Presented.wf, descriptorWf, hk] using h)
  | command w =>
    rcases (Bool.or_eq_true _ _).mp h with hr | hw
    · exact ⟨_, encode_mdioCmdRead_wordFields hr⟩
    · exact ⟨_, encode_mdioCmdWrite_wordFields hw⟩

/-- What decodes to an instruction is well formed. -/
theorem wf_of_decode {p : Presented} {i : Instr} (h : decode p = .instr i) : p.wf = true := by
  cases p with
  | descriptor ws => exact descriptorWf_of_decode h
  | command w => exact commandWf_of_decode h

/-- Settles O9: a well-formed term is an instruction's encoding, which decodes to that instruction. -/
theorem decoderAcceptsExactlyTheWellFormed : Obligations.DecoderAcceptsExactlyTheWellFormed := by
  intro p
  constructor
  · intro hwf
    obtain ⟨i, rfl⟩ := exists_encode_of_wf hwf
    exact ⟨i, decodeOfEncodeIsTheInstruction i⟩
  · rintro ⟨i, hi⟩
    exact wf_of_decode hi

/-- Settles O11: what decodes is the encoding of some instruction, and by O10 of the one it decodes to. -/
theorem encodeOfDecodeIsThePresentedTerm : Obligations.EncodeOfDecodeIsThePresentedTerm := by
  intro p i hi
  obtain ⟨j, rfl⟩ := exists_encode_of_wf (wf_of_decode hi)
  rw [decodeOfEncodeIsTheInstruction j] at hi
  cases hi
  rfl

/-- Settles O8: the words are fixed, and the decoder runs on each. -/
theorem specWordsDecode : Obligations.SpecWordsDecode := by
  unfold Obligations.SpecWordsDecode
  decide

end Sys2Proof

namespace Sys2Proof.Machine

/-! ## A step with a descriptor that is no instruction (R81, R123) -/

/-- The oldest presented term is the one taken up. -/
theorem fetch_cons {s : State} {p : Presented} {rest : List Presented} (hin : s.inbox = p :: rest) :
    fetch s = .taken (decode p) rest := by rw [fetch, hin]

/-- An illegal descriptor is taken whole and sets `STATUS` (R123). -/
theorem step_of_illegal {s : State} {p : Presented} {rest : List Presented} (hp : s.phase = .idle)
    (hin : s.inbox = p :: rest) (hd : decode p = .illegal) : step s = .next (illegalDescriptor { s with inbox := rest }) := by
  rw [step, if_pos hp, fetch_cons hin, hd]

/-- A descriptor with too few argument words is refused (R81). -/
theorem step_of_short {s : State} {p : Presented} {rest : List Presented} (hp : s.phase = .idle)
    (hin : s.inbox = p :: rest) (hd : decode p = .short) : step s = .refused .shortDescriptor := by
  rw [step, if_pos hp, fetch_cons hin, hd]

/-- A descriptor with too many argument words is refused (log 5). -/
theorem step_of_overlong {s : State} {p : Presented} {rest : List Presented} (hp : s.phase = .idle)
    (hin : s.inbox = p :: rest) (hd : decode p = .overlong) : step s = .refused .overlongDescriptor := by
  rw [step, if_pos hp, fetch_cons hin, hd]

/-- Too few argument words for a legal header. -/
theorem decode_short {header : Word} {k : Nat} {args : List Word} (hk : argCount header = some k) (hl : args.length < k) :
    decode (.descriptor (header :: args)) = .short := by
  rw [decode, decodeDescriptor_wrongLength hk hl.ne, wrongLength, if_pos hl]

/-- Too many argument words for a legal header. -/
theorem decode_overlong {header : Word} {k : Nat} {args : List Word} (hk : argCount header = some k) (hl : k < args.length) :
    decode (.descriptor (header :: args)) = .overlong := by
  rw [decode, decodeDescriptor_wrongLength hk hl.ne', wrongLength, if_neg hl.not_gt]

/-- Settles O12: the header is judged before the length (log 15), and the length by R79. -/
theorem illegalDescriptorsHaveNoOtherEffect : Obligations.IllegalDescriptorsHaveNoOtherEffect := by
  refine ⟨?illegal, ?short, ?empty, ?overlong⟩
  case illegal =>
    intro s header args rest hp hin hillegal
    exact step_of_illegal hp hin (decodeDescriptor_illegal hillegal args)
  case short =>
    intro s header args rest k hp hin hk hl
    exact step_of_short hp hin (decode_short hk hl)
  case empty =>
    intro s rest hp hin
    exact step_of_short hp hin rfl
  case overlong =>
    intro s header args rest k hp hin hk hl
    exact step_of_overlong hp hin (decode_overlong hk hl)

/-! ## Command words at the controller (R70, R133) -/

/-- The value of a read command's word: its three fields at their places (R68). -/
theorem toNat_fieldsWord_read (ex : BitVec 5) (fd : BitVec 3) (inn : BitVec 5) :
    (fieldsWord ⟨0, 0, 0, 0, ex, fd, inn⟩).toNat = ex.toNat * 2 ^ 8 + fd.toNat * 2 ^ 5 + inn.toNat := by
  rw [toNat_eq_fields, wordFields_fieldsWord]
  simp

/-- The reference device's reaction to the word of given fields (R133): every word sets the divider, and one with
`rw = 0` starts a cycle. -/
theorem RefDevice.takeCommand_fieldsWord (d : RefDevice) (f : CtrlFields) : d.takeCommand (fieldsWord f) =
    if f.rw = 0 then
      { d with fdv := f.frqDv, n := d.n + 1, fin := 0, cnt := d.latency (d.n + 1), cmd := fieldsWord f }
    else { d with fdv := f.frqDv } := by
  rw [RefDevice.takeCommand, wordFields_fieldsWord]

/-- The cycle of the word of given fields (R70, R73). -/
theorem cycleOf_fieldsWord (p : Params) (f : CtrlFields) : (cycleOf p (fieldsWord f)).divider = f.frqDv ∧
    (p.addrAssign = .exIsPhy → (cycleOf p (fieldsWord f)).phy = f.phyExaddr ∧ (cycleOf p (fieldsWord f)).reg = f.phyInaddr) ∧
    (p.addrAssign = .exIsReg → (cycleOf p (fieldsWord f)).phy = f.phyInaddr ∧ (cycleOf p (fieldsWord f)).reg = f.phyExaddr) := by
  cases h : p.addrAssign <;> simp [cycleOf, wordFields_fieldsWord, h]

/-- Settles O53: the started cycle is `cycleOf` of the word, and the bus takes the word. -/
theorem readCommandStartsACycle : Obligations.ReadCommandStartsACycle := by
  intro s ex fd inn
  obtain ⟨hdivider, hexIsPhy, hexIsReg⟩ := cycleOf_fieldsWord s.params ⟨0, 0, 0, 0, ex, fd, inn⟩
  refine ⟨_, _, _, rfl, toNat_fieldsWord_read ex fd inn, hdivider, hexIsPhy, hexIsReg, fun l n hb => ?_, fun d hb => ?_⟩
  · rw [hb, Bus.takeCommand]
  · rw [hb, Bus.takeCommand, RefDevice.takeCommand_fieldsWord, if_pos rfl]

/-- Settles O54: the kind of bus decides, and the reference device finds `rw = 1` in the word. -/
theorem writeCommandIsRefusedAtTheRealController : Obligations.WriteCommandIsRefusedAtTheRealController := by
  intro s d f r ex fd inn
  refine ⟨fun l n hb => ?_, fun dev hb => ?_⟩
  · rw [exec, execMdioCmdWrite, hb]
  · rw [exec, execMdioCmdWrite, hb]
    dsimp only
    rw [RefDevice.takeCommand_fieldsWord, if_neg (show (1 : BitVec 1) ≠ 0 by decide)]

end Sys2Proof.Machine

namespace Sys2Proof

/-! ## The control-word codec family (40_field_codec.md): the composed word -/

/-- The value of a composed word: the masked operands at their places (R68, R87). -/
theorem toNat_composeWord (d f r rw ex fd inn : Word) : (composeWord d f r rw ex fd inn).toNat =
    d.toNat % 2 ^ 16 * 2 ^ 16 + f.toNat % 2 * 2 ^ 15 + r.toNat % 2 * 2 ^ 14 + rw.toNat % 2 * 2 ^ 13
      + ex.toNat % 2 ^ 5 * 2 ^ 8 + fd.toNat % 2 ^ 3 * 2 ^ 5 + inn.toNat % 2 ^ 5 := by
  rw [toNat_eq_fields, wordFields_composeWord]
  simp only [BitVec.toNat_setWidth, pow_one]

/-- The bit ranges of a composed word that hold the two addresses and the divider (R68). -/
theorem extractLsb'_composeWord (d f r rw ex fd inn : Word) :
    (composeWord d f r rw ex fd inn).extractLsb' 8 5 = ex.setWidth 5 ∧
    (composeWord d f r rw ex fd inn).extractLsb' 5 3 = fd.setWidth 3 ∧
    (composeWord d f r rw ex fd inn).extractLsb' 0 5 = inn.setWidth 5 := by
  have hfields := wordFields_composeWord d f r rw ex fd inn
  rw [wordFields_extract, CtrlFields.mk.injEq] at hfields
  obtain ⟨-, -, -, -, hex, hdiv, hin⟩ := hfields
  exact ⟨hex, hdiv, hin⟩

end Sys2Proof

namespace Sys2Proof.Machine

/-! ## `COMPOSE_CTRL` and `DECODE_CTRL` run from `Idle` (R87, R88) -/

/-- `COMPOSE_CTRL` run from `Idle` ends at once and hands back the composed word. -/
theorem exec_composeCtrl {s : State} (hp : s.phase = .idle) (d f r rw ex fd inn : Word) :
    exec (.composeCtrl d f r rw ex fd inn) s = .next (finishOp (.word (composeWord d f r rw ex fd inn)) .ok s) :=
  exec_of_idle rfl hp

/-- `DECODE_CTRL` run from `Idle` ends at once and hands back the word's fields. -/
theorem exec_decodeCtrl {s : State} (hp : s.phase = .idle) (w : Word) :
    exec (.decodeCtrl w) s = .next (finishOp (.fields (wordFields w)) .ok s) :=
  exec_of_idle rfl hp

/-- Settles O13: the returned word is `composeWord`, whose value is the sum of the masked operands at their places. -/
theorem composeCtrlMasksEachField : Obligations.ComposeCtrlMasksEachField := by
  intro s d f r rw ex fd inn hp
  exact ⟨decodeOfEncodeIsTheInstruction (.composeCtrl d f r rw ex fd inn), composeWord d f r rw ex fd inn,
    exec_composeCtrl hp d f r rw ex fd inn, toNat_composeWord d f r rw ex fd inn⟩

/-- Settles O14: the returned fields are the word's bit ranges. -/
theorem decodeCtrlReadsEachField : Obligations.DecodeCtrlReadsEachField := by
  intro s w hp
  refine ⟨decodeOfEncodeIsTheInstruction (.decodeCtrl w), ?_⟩
  rw [exec_decodeCtrl hp, wordFields_extract]
  rfl

/-- Settles O15: the fields of a composed word are the masked operands, and a word is the word of its fields. -/
theorem codecRoundTrips : Obligations.CodecRoundTrips := by
  intro s hp
  constructor
  case left =>
    intro d f r rw ex fd inn
    refine ⟨composeWord d f r rw ex fd inn, _, _, exec_composeCtrl hp d f r rw ex fd inn, finishOp_returned s _ _,
      exec_decodeCtrl hp _, ?_⟩
    rw [finishOp_returned, wordFields_composeWord]
  case right =>
    intro w
    refine ⟨wordFields w, _, _, exec_decodeCtrl hp w, finishOp_returned s _ _, exec_composeCtrl hp _ _ _ _ _ _ _, ?_⟩
    rw [finishOp_returned, ← fieldsWord, fieldsWord_wordFields]

/-- The read command under `EX_IS_PHY` (R73, R90). -/
theorem readCmd_exIsPhy {p : Params} (h : p.addrAssign = .exIsPhy) (freqDiv phyAddr regNum : Word) :
    readCmd p freqDiv phyAddr regNum = composeWord 0 0 0 0 phyAddr freqDiv regNum := by rw [readCmd, h]

/-- The read command under `EX_IS_REG` (R73, R90). -/
theorem readCmd_exIsReg {p : Params} (h : p.addrAssign = .exIsReg) (freqDiv phyAddr regNum : Word) :
    readCmd p freqDiv phyAddr regNum = composeWord 0 0 0 0 regNum freqDiv phyAddr := by rw [readCmd, h]

/-- Settles O16: the word is of class `MDIO_CMD_READ`, and `ADDR_ASSIGN` names the operand that each address field of the
composed word holds. -/
theorem readCommandPlacesItsOperands : Obligations.ReadCommandPlacesItsOperands := by
  intro p freqDiv phyAddr regNum w
  have hclass : w &&& 0xFFFFE000#32 = 0#32 := beq_iff_eq.mp (isReadCommand_readCmd p freqDiv phyAddr regNum)
  cases ha : p.addrAssign with
  | exIsPhy =>
    obtain ⟨hex, hdiv, hin⟩ := extractLsb'_composeWord 0 0 0 0 phyAddr freqDiv regNum
    rw [← readCmd_exIsPhy ha] at hex hdiv hin
    exact ⟨hclass, hdiv, fun _ => ⟨hex, hin⟩, nofun⟩
  | exIsReg =>
    obtain ⟨hex, hdiv, hin⟩ := extractLsb'_composeWord 0 0 0 0 regNum freqDiv phyAddr
    rw [← readCmd_exIsReg ha] at hex hdiv hin
    exact ⟨hclass, hdiv, nofun, fun _ => ⟨hex, hin⟩⟩

end Sys2Proof.Machine

namespace Sys2Proof.Machine

/-! ## The transaction family: one step and one operation (41_transaction.md)

The result's low half in the words of the statements, a step by what the oldest presented term is, and every operation run
from `Idle` to its end (R103). -/

/-- The low 16 bits of a result word (R75). -/
theorem narrowResult_eq (w : Word) : narrowResult w = w.extractLsb' 0 16 := BitVec.setWidth_eq_extractLsb' (by omega)

/-- A step in `Idle` runs the instruction presented first (R79, R103). -/
theorem step_instr {s : State} {p : Presented} {rest : List Presented} {i : Instr} (hp : s.phase = .idle)
    (hin : s.inbox = p :: rest) (hd : decode p = .instr i) : step s = exec i { s with inbox := rest } := by
  have hf : fetch s = .taken (.instr i) rest := by rw [fetch, hin, ← hd]
  rw [step, if_pos hp, hf]

/-- A step in a phase takes nothing up that is presented (R21). -/
theorem step_inbox_of_busy {s t : State} (hp : s.phase ≠ .idle) (h : step s = .next t) : t.inbox = s.inbox := by
  rcases step_next h with ⟨-, -, rfl⟩ | ⟨hi, -⟩ | ⟨hi, -⟩
  · exact (phaseNext_frame s).inbox
  · exact absurd hi hp
  · exact absurd hi hp

/-- Settles O5: in `Idle` by what is fetched, in a phase by the frame of a transition. -/
theorem stepRunsTheDecodedInstruction : Obligations.StepRunsTheDecodedInstruction :=
  ⟨fun _ _ _ _ hp hin hd => step_instr hp hin hd, fun _ hp => ⟨if_neg hp, fun _ h => step_inbox_of_busy hp h⟩⟩

/-- Settles O7: an operation's effect ends in `Idle`, and acceptance needs `Idle`. -/
theorem operationsRunToCompletionFromIdle : Obligations.OperationsRunToCompletionFromIdle := by
  intro i s hop
  refine ⟨fun hp => ?_, fun hp => ?_⟩
  · obtain ⟨-, hidle, -⟩ := opEffect_frame hop hp
    exact ⟨opEffect i s, exec_of_idle hop hp, hidle⟩
  · rw [exec_operation hop, whenIdle_busy hp]

/-! ## The steps of a transaction (R96 to R100) -/

/-- What a failed poll writes: the sleep is between two polls, so there is none after the last (R91, D9). -/
theorem failedPoll_eq {s : State} (hc : s.cnt ≠ 0) :
    failedPoll s = { s with cnt := s.cnt - 1, sleeps := if s.cnt = 1 then s.sleeps else s.sleeps + 1 } := by
  have h : s.cnt - 1 = 0 ↔ s.cnt = 1 := by omega
  simp only [failedPoll, h]

section
variable {ph onReady : Phase} {tag : Diag} {st : Status} (P : PollPhase ph onReady tag st) {s : State}
  (hp : s.phase = ph) (hv : s.cntValued = true) (hl : s.latchesValued = true)
include P hp hv hl

/-- A step in a poll phase is its transition. -/
theorem PollPhase.step_next : step s = .next (pollPhase onReady tag st s) := by
  rw [step_of_busy (hp ▸ P.busy) hv hl, P.next s hp]

variable (hc : s.cnt ≠ 0)
include hc

/-- With `CNT` above 0 a poll that observes ready moves to the phase's own next. -/
theorem PollPhase.step_ready (h : ReadyPoll (readAns (regAddr s.base offRwctrl) s)) :
    step s = .next { afterRead (regAddr s.base offRwctrl) s with phase := onReady } := by
  rw [P.step_next hp hv hl, pollPhase, if_neg hc]
  simp only [pollVerdict_ready.mpr h]

/-- An aborting poll is a bus error. -/
theorem PollPhase.step_abort (h : AbortingPoll s.params (readAns (regAddr s.base offRwctrl) s)) :
    step s = .next (failTransaction .busError (afterRead (regAddr s.base offRwctrl) s)) := by
  rw [P.step_next hp hv hl, pollPhase, if_neg hc]
  simp only [pollVerdict_abort.mpr h]

/-- After a failed poll the phase goes on with the count less one. -/
theorem PollPhase.step_failedPoll (h : FailedPoll s.params (readAns (regAddr s.base offRwctrl) s)) :
    step s = .next { afterRead (regAddr s.base offRwctrl) s with
      cnt := s.cnt - 1, sleeps := if s.cnt = 1 then s.sleeps else s.sleeps + 1 } := by
  rw [P.step_next hp hv hl, pollPhase, if_neg hc]
  simp only [pollVerdict_again.mpr h]
  rw [failedPoll_eq (s := afterRead (regAddr s.base offRwctrl) s) hc]
  rfl

end

/-- Settles O23: the pre-check is a poll phase, with `CommandIssued` next. -/
theorem preCheckStep : Obligations.PreCheckStep := fun _ hp hv hl =>
  ⟨preCheck.step_timeout hp (.inl hp) hv, preCheck.step_ready hp hv hl, preCheck.step_abort hp hv hl,
    preCheck.step_failedPoll hp hv hl⟩

/-- Settles O25: the post-check is a poll phase, with `ResultRead` next. -/
theorem postCheckStep : Obligations.PostCheckStep := fun _ hp hv hl =>
  ⟨postCheck.step_timeout hp (.inr hp) hv, postCheck.step_ready hp hv hl, postCheck.step_abort hp hv hl,
    postCheck.step_failedPoll hp hv hl⟩

/-- With the latches valued the two access phases' steps are their transitions; they read no `CNT`. -/
theorem step_of_access {s : State} (hp : s.phase = .commandIssued ∨ s.phase = .resultRead)
    (hl : s.latchesValued = true) : step s = .next (phaseNext s) :=
  step_of_no_valuelessRead (by rcases hp with h | h <;> simp [h]) (by simp [valuelessRead_access hp, hl])

/-- The step of `CommandIssued` (R97). -/
theorem step_commandIssued {s : State} (hp : s.phase = .commandIssued) (hl : s.latchesValued = true) :
    step s = .next (commandPhase s) := by
  rw [step_of_access (.inl hp) hl, phaseNext, hp]

/-- The step of `ResultRead` (R99). -/
theorem step_resultRead {s : State} (hp : s.phase = .resultRead) (hl : s.latchesValued = true) :
    step s = .next (resultPhase s) := by
  rw [step_of_access (.inr hp) hl, phaseNext, hp]

/-- The step of `Failed` reads no register that could lack a value (R100). -/
theorem step_failed {s : State} (hp : s.phase = .failed) : step s = .next (leaveFailed s) := by
  rw [step_of_no_valuelessRead (by simp [hp]) (by rw [valuelessRead, hp]), phaseNext, hp]

/-- The command write keeps the parameters, so the count reloaded after it is the bound from before (R97). -/
theorem loadCount_afterCommandWrite (addr w : Word) (s : State) : loadCount (afterCommandWrite addr w s) =
    { afterCommandWrite addr w s with cnt := s.params.nPoll, cntValued := true } := by
  simp only [loadCount, afterCommandWrite_params]

/-- Settles O24: by the success flag of the write of the latched command. -/
theorem commandIssuedStep : Obligations.CommandIssuedStep := by
  intro s hp hl
  rw [step_commandIssued hp hl]
  rcases commandPhase_cases s with ⟨hw, e⟩ | ⟨hw, e⟩ <;> rw [e]
  · refine ⟨fun _ => ?_, fun h => (nomatch hw.symm.trans h)⟩
    rw [loadCount_afterCommandWrite]
    rfl
  · exact ⟨fun h => (nomatch hw.symm.trans h), fun _ => rfl⟩

/-- `Failed` is entered by a transition of one of the four phases before it (R100, R101). -/
theorem step_to_failed {s t : State} (h : step s = .next t) (ht : t.phase = .failed) :
    t = phaseNext s ∧ s.phase ≠ .idle ∧ s.phase ≠ .failed := by
  have stays : t.phase = s.phase → s.phase = .idle → False := fun e hi => by rw [e, hi] at ht; cases ht
  rcases step_next h with ⟨hp, -, rfl⟩ | ⟨hi, -, rfl⟩ | ⟨hi, p, rest, -, ⟨i, -, he⟩ | ⟨-, rfl⟩ | ⟨w, -, rfl⟩⟩
  · refine ⟨rfl, hp, fun hf => ?_⟩
    rw [phaseNext, hf] at ht
    cases ht
  · exact (stays rfl hi).elim
  · exact (stays (exec_phase (s := { s with inbox := rest }) he) hi).elim
  · exact (stays rfl hi).elim
  · exact (stays rfl hi).elim

/-- The entry to `Failed` leaves the zero result and a failure (R100, R119). -/
theorem phaseNext_failed {s : State} (hp : s.phase ≠ .idle) (hf : (phaseNext s).phase = .failed) :
    (phaseNext s).result = 0 ∧ transactionFailure (phaseNext s).status := by
  cases phaseNext_end hp with
  | fails hres _ hst => exact ⟨hres, hst⟩
  | goesOn hn => exact absurd hf hn
  | done hn => exact absurd hf hn
  | leaves _ ht => rw [ht] at hf; cases hf

/-- Settles O26: `ResultRead` by the success flag of its read, `Failed` by its one transition, and the entry to it by the
ways to a next state. -/
theorem resultReadAndFailedSteps : Obligations.ResultReadAndFailedSteps := by
  refine ⟨fun s hp hl => ?_, fun s hp => step_failed hp, fun s t h ht => ?_⟩
  · simp only [← narrowResult_eq]
    rw [step_resultRead hp hl]
    rcases resultPhase_cases s with ⟨ha, e⟩ | ⟨ha, e⟩ <;> rw [e]
    · exact ⟨fun _ => rfl, fun h => (nomatch ha.symm.trans h)⟩
    · exact ⟨fun h => (nomatch ha.symm.trans h), fun _ => rfl⟩
  · obtain ⟨rfl, hidle, hfailed⟩ := step_to_failed h ht
    obtain ⟨hres, hst⟩ := phaseNext_failed hidle ht
    refine ⟨hres, hst, ?_⟩
    cases hs : s.phase with
    | idle => exact absurd hs hidle
    | failed => exact absurd hs hfailed
    | _ => simp

/-! ## The run of a transaction (R101) -/

/-- From a state of the invariant a transaction has at most `2 * N_POLL + 3` transitions left. -/
theorem phasesLeft_le {s : State} (h : s.cnt ≤ s.params.nPoll) : phasesLeft s ≤ 2 * s.params.nPoll + 3 := by
  unfold phasesLeft
  split <;> omega

/-- Settles O33: the run of the transitions left, each a single step. -/
theorem everyTransactionReturnsToIdle : Obligations.EveryTransactionReturnsToIdle := by
  intro s h hp
  obtain ⟨hcv, hlv⟩ := h.latched hp
  obtain ⟨k, hk, hrun⟩ := run_runPhases (2 * s.params.nPoll + 3) hcv hlv
  exact ⟨k, _, hk, hrun, runPhases_ends_idle _ s (phasesLeft_le h.cntBound)⟩

/-- Settles O32: what `exec` answers is the run of the transitions from acceptance, each a single step. -/
theorem mdioReadIsTheRunOfItsTransitions : Obligations.MdioReadIsTheRunOfItsTransitions := by
  intro s f p b r hp accepted
  obtain ⟨k, hk, hrun⟩ := run_runPhases (s := acceptRead f p b r s) (2 * s.params.nPoll + 3) rfl rfl
  exact ⟨k, transaction f p b r s, hk, exec_of_idle rfl hp, hrun, transaction_idle f p b r s⟩

/-! ## `WAIT_READY` (R91, R92) -/

/-- `WAIT_READY` run from `Idle` is its loop. -/
theorem exec_waitReady {s : State} (hp : s.phase = .idle) (b : Word) :
    exec (.waitReady b) s = .next (waitLoop b s.params.nPoll (loadCount s)) := exec_of_idle rfl hp

/-- What `WAIT_READY` counts is 0 exactly when no poll of its loop observed ready (R92). -/
theorem waitLoop_count (b : Word) (s : State) : ∃ c sl r st y,
    waitLoop b s.params.nPoll (loadCount s) = waitEnd c sl r st y ∧
      (r = 0 ↔ ¬ ∃ k < s.params.nPoll, failedPolls (regAddr b offRwctrl) k s ∧ ReadyPoll (pollAns (regAddr b offRwctrl) k s)) := by
  by_cases h : ∃ k < s.params.nPoll, failedPolls (regAddr b offRwctrl) k s ∧ ReadyPoll (pollAns (regAddr b offRwctrl) k s)
  · obtain ⟨k, hk, hf, hr⟩ := h
    exact ⟨_, _, _, _, _, waitLoop_ready ⟨hk, hf, hr⟩,
      fun h0 => absurd h0 (by omega), fun hn => absurd ⟨k, hk, hf, hr⟩ hn⟩
  · rcases polls_cases (regAddr b offRwctrl) s.params.nPoll s with hr | ⟨k, hk, hf, ha⟩ | hf
    · exact absurd hr h
    · exact ⟨_, _, _, _, _, waitLoop_abort ⟨hk, hf, ha⟩, fun _ => h, fun _ => rfl⟩
    · exact ⟨_, _, _, _, _, waitLoop_timeout hf, fun _ => h, fun _ => rfl⟩

/-- Settles O18: by the three ends of the loop. -/
theorem waitReadyPollsUntilReadyOrTheBound : Obligations.WaitReadyPollsUntilReadyOrTheBound := by
  intro s b hp n addr
  rw [exec_waitReady hp]
  refine ⟨decodeOfEncodeIsTheInstruction (.waitReady b), fun k hk hf hr => ?_, fun k hk hf ha => ?_, fun hf => ?_, ?_⟩
  · rw [waitLoop_ready ⟨hk, hf, hr⟩]; rfl
  · rw [waitLoop_abort ⟨hk, hf, ha⟩]; rfl
  · rw [waitLoop_timeout hf]; rfl
  · obtain ⟨c, sl, r, st, y, e, hr⟩ := waitLoop_count b s
    exact ⟨_, r, rfl, by rw [e]; rfl, hr⟩

/-! ## Only bit 15 of a polled word counts (R91) -/

/-- Two answers to a poll that agree in what a poll examines. -/
def SamePoll (a b : Answer) : Prop := a.ok = b.ok ∧ a.word.getLsbD 15 = b.word.getLsbD 15

theorem SamePoll.refl (a : Answer) : SamePoll a a := ⟨rfl, rfl⟩

/-- The verdict examines nothing else. -/
theorem pollVerdict_congr (p : Params) {a b : Answer} (h : SamePoll a b) : pollVerdict p a = pollVerdict p b := by
  obtain ⟨hok, hbit⟩ := h
  unfold pollVerdict Answer.ready ready
  rw [hok, hbit]

/-- Two states of a poll loop over scripts of the unconstrained primitive that agree in what a poll examines: the same
`CNT`, sleeps and parameters, and as many events. -/
structure PollTwins (s t : State) : Prop where
  cnt    : s.cnt = t.cnt
  sleeps : s.sleeps = t.sleeps
  params : s.params = t.params
  events : s.trace.length = t.trace.length
  script : ∃ l l' m, s.bus = .oracle l m ∧ t.bus = .oracle l' m ∧ List.Forall₂ SamePoll l l'

namespace PollTwins

variable {s t : State}

/-- A read is answered alike, and leaves such states again: a scripted answer by the script, a draw because it is the same
draw. -/
theorem after_read (h : PollTwins s t) (addr : Word) :
    SamePoll (readAns addr s) (readAns addr t) ∧ PollTwins (afterRead addr s) (afterRead addr t) := by
  obtain ⟨hc, hsl, hp, hev, l, l', m, hs, ht, hl⟩ := h
  have twins : ∀ {k k' m'}, (afterRead addr s).bus = .oracle k m' → (afterRead addr t).bus = .oracle k' m' →
      List.Forall₂ SamePoll k k' → PollTwins (afterRead addr s) (afterRead addr t) := fun e e' hk =>
    ⟨hc, hsl, hp, by simp [hev], _, _, _, e, e', hk⟩
  cases hl with
  | nil =>
    have ha : readAns addr s = readAns addr t := readAns_congr addr (hs.trans ht.symm) hp hev
    exact ⟨ha ▸ .refl _, twins (by rw [afterRead_bus, hs, Bus.answer_draw]) (by rw [afterRead_bus, ht, Bus.answer_draw]) .nil⟩
  | cons hab hl =>
    refine ⟨?_, twins (by rw [afterRead_bus, hs, Bus.answer_script]) (by rw [afterRead_bus, ht, Bus.answer_script]) hl⟩
    simpa only [readAns, busAnswer, hs, ht, Bus.answer_script] using hab

theorem after_failedPoll (h : PollTwins s t) : PollTwins (failedPoll s) (failedPoll t) := by
  obtain ⟨hc, hsl, hp, hev, hb⟩ := h
  refine ⟨by simp [hc], ?_, hp, hev, hb⟩
  simp only [failedPoll, hc, hsl]

end PollTwins

/-- Two ends of a poll loop that agree in result, count, status, sleeps and number of events. -/
structure SameWaitEnd (s t : State) : Prop where
  returned : s.returned = t.returned
  status   : s.status = t.status
  cnt      : s.cnt = t.cnt
  sleeps   : s.sleeps = t.sleeps
  events   : s.trace.length = t.trace.length

theorem PollTwins.sameEnd_finishOp {s t : State} (h : PollTwins s t) (v : Value) (st : Status) :
    SameWaitEnd (finishOp v st s) (finishOp v st t) := ⟨rfl, rfl, h.cnt, h.sleeps, h.events⟩

/-- The poll loop comes to the same end from both. -/
theorem PollTwins.sameEnd_waitLoop (base : Word) (n : Nat) {s t : State} (h : PollTwins s t) :
    SameWaitEnd (waitLoop base n s) (waitLoop base n t) := by
  induction n generalizing s t with
  | zero => exact h.sameEnd_finishOp _ _
  | succ n ih =>
    obtain ⟨ha, hr⟩ := h.after_read (regAddr base offRwctrl)
    have hv : pollVerdict s.params (readAns (regAddr base offRwctrl) s) =
        pollVerdict t.params (readAns (regAddr base offRwctrl) t) := by rw [h.params, pollVerdict_congr _ ha]
    simp only [waitLoop, hv]
    split
    · rw [hr.cnt]; exact hr.sameEnd_finishOp _ _
    · exact hr.sameEnd_finishOp _ _
    · exact ih hr.after_failedPoll

/-- Settles O19: the two scripts make twins of the two states at the head of the loop. -/
theorem otherPollBitsHaveNoEffect : Obligations.OtherPollBitsHaveNoEffect := by
  intro s base l l' m hp hl
  have twins : PollTwins (loadCount { s with bus := .oracle l m }) (loadCount { s with bus := .oracle l' m }) :=
    ⟨rfl, rfl, rfl, rfl, l, l', m, rfl, rfl, hl⟩
  obtain ⟨hret, hst, hc, hsl, hev⟩ := twins.sameEnd_waitLoop base s.params.nPoll
  exact ⟨_, _, exec_waitReady (s := { s with bus := .oracle l m }) hp base,
    exec_waitReady (s := { s with bus := .oracle l' m }) hp base, hret, hst, hc, hsl, hev⟩

/-! ## `START_READ` and `READ_RESULT` (R93, R94) -/

/-- `START_READ` run from `Idle`, by the success flag of its write. -/
theorem exec_startRead {s : State} (hp : s.phase = .idle) (b f p r : Word) :
    exec (.startRead b f p r) s = .next
      (if writeOk (regAddr b offRwctrl) (readCmd s.params f p r) s
       then finishOp .none .ok (afterCommandWrite (regAddr b offRwctrl) (readCmd s.params f p r) s)
       else finishOp (.value 0) .busError (afterCommandWrite (regAddr b offRwctrl) (readCmd s.params f p r) s)) := by
  rw [exec_of_idle rfl hp, opEffect]
  cases writeOk (regAddr b offRwctrl) (readCmd s.params f p r) s <;> rfl

/-- `READ_RESULT` run from `Idle`, by the success flag of its read. -/
theorem exec_readResult {s : State} (hp : s.phase = .idle) (b : Word) :
    exec (.readResult b) s = .next
      (if (readAns (regAddr b offRoData) s).ok
       then finishOp (.value (narrowResult (readAns (regAddr b offRoData) s).word)) .ok
         (setResult (narrowResult (readAns (regAddr b offRoData) s).word) (afterRead (regAddr b offRoData) s))
       else finishOp (.value 0) .busError (setResult 0 (afterRead (regAddr b offRoData) s))) :=
  exec_of_idle rfl hp

/-- Settles O20: by the success flag of the write. -/
theorem startReadWritesTheCommand : Obligations.StartReadWritesTheCommand := by
  intro s b f p r hp addr w s1
  rw [exec_startRead hp]
  exact ⟨decodeOfEncodeIsTheInstruction (.startRead b f p r), fun hw => congrArg _ (if_pos hw),
    fun hw => congrArg _ (if_neg (ne_true_of_eq_false hw))⟩

/-- Settles O21: by the success flag of the read. -/
theorem readResultKeepsSixteenBits : Obligations.ReadResultKeepsSixteenBits := by
  intro s b hp addr a v st
  refine ⟨decodeOfEncodeIsTheInstruction (.readResult b), ?_⟩
  have ha : readAns (regAddr b offRoData) s = a := rfl
  simp only [exec_readResult hp, v, st, ha, narrowResult_eq]
  cases a.ok <;> rfl

/-! ## A successful `MDIO_READ` (R95 to R99, R101) -/

/-- The end of a transaction whose two checks observe ready and whose two accesses succeed. -/
theorem transaction_done {f p b r : Word} {s : State} {k j : Nat} (h : ReadyAt b s.params.nPoll k s)
    (hw : writeOk (regAddr b offRwctrl) (readCmd s.params f p r) (polled b k s) = true)
    (h2 : ReadyAt b s.params.nPoll j (commanded f p b r k s))
    (ha : (readAns (regAddr b offRoData) (polled b j (commanded f p b r k s))).ok = true) :
    transaction f p b r s = readEnd f p b r (s.params.nPoll - j) (s.sleeps + k + j)
      (narrowResult (readAns (regAddr b offRoData) (polled b j (commanded f p b r k s))).word) .ok
      (afterRead (regAddr b offRoData) (polled b j (commanded f p b r k s))) := by
  have hk := h.lt
  have hj := h2.lt
  have hs1 : rebus s (polled b k s) = polled b k s := rebus_afterReads _ _ rfl
  have hs2 : rebus s (commanded f p b r k s) = commanded f p b r k s := rebus_afterCommandWrite _ _ hs1
  have hs3 : rebus s (polled b j (commanded f p b r k s)) = polled b j (commanded f p b r k s) := rebus_afterReads _ _ hs2
  rw [transaction, acceptRead_eq,
    show 2 * s.params.nPoll + 3 = (2 * s.params.nPoll - k - j - 1) + 1 + j + 1 + 1 + k + 1 by omega]
  exact (preCheck.polls_ready rfl hk h.failed h.ready).trans <| (midRead_command_ok hs1 hw).trans <|
    (postCheck.polls_ready hs2 hj h2.failed h2.ready).trans (midRead_result_ok hs3 ha)

/-- Settles O28: the end of a successful transaction. -/
theorem mdioReadReturnsTheResult : Obligations.MdioReadReturnsTheResult := by
  intro s f p b r k j hp n addr w s1 s2 s3 a v hk hf hr hw hj hf2 hr2 ha
  rw [exec_of_idle rfl hp, opEffect, transaction_done ⟨hk, hf, hr⟩ hw ⟨hj, hf2, hr2⟩ ha, narrowResult_eq]
  rfl

section
variable {x y : State} (hx : x.phase = .idle) (hp : x.params = y.params)
include hx hp

/-- `WAIT_READY` over the two sides of a state, ready at poll `k`. -/
theorem exec_waitReady_rebus {b : Word} {k : Nat} (h : ReadyAt b x.params.nPoll k y) :
    exec (.waitReady b) (rebus x y) = .next
      (rebus (waitEnd (x.params.nPoll - k) (x.sleeps + k) (x.params.nPoll - k) .ok x) (polled b k y)) := by
  have h' : ReadyAt b (rebus x y).params.nPoll k (rebus x y) :=
    ⟨h.lt, fun j hj => by rw [pollAns_rebus _ hp, show (rebus x y).params = y.params from hp]; exact h.failed j hj,
      by rw [pollAns_rebus _ hp]; exact h.ready⟩
  rw [exec_waitReady (s := rebus x y) hx, waitLoop_ready h', polled, afterReads_rebus _ hp]
  rfl

/-- `START_READ` over the two sides, its write successful. -/
theorem exec_startRead_rebus {b f p r : Word}
    (hw : writeOk (regAddr b offRwctrl) (readCmd x.params f p r) y = true) :
    exec (.startRead b f p r) (rebus x y) = .next
      (rebus (finishOp .none .ok x) (afterCommandWrite (regAddr b offRwctrl) (readCmd x.params f p r) y)) := by
  have hw' : writeOk (regAddr b offRwctrl) (readCmd (rebus x y).params f p r) (rebus x y) = true :=
    (writeOk_rebus _ _ hp).trans hw
  rw [exec_startRead (s := rebus x y) hx, if_pos hw', afterCommandWrite_rebus _ _ hp]
  rfl

/-- `READ_RESULT` over the two sides, its read successful. -/
theorem exec_readResult_rebus {b : Word} (ha : (readAns (regAddr b offRoData) y).ok = true) :
    exec (.readResult b) (rebus x y) = .next
      (rebus (finishOp (.value (narrowResult (readAns (regAddr b offRoData) y).word)) .ok
        (setResult (narrowResult (readAns (regAddr b offRoData) y).word) x)) (afterRead (regAddr b offRoData) y)) := by
  rw [exec_readResult (s := rebus x y) hx, readAns_rebus _ hp, if_pos ha, afterRead_rebus _ hp]
  rfl

end

/-- A transaction that ends `OK` is a successful one. -/
theorem transaction_ok {f p b r : Word} {s : State} (hok : (transaction f p b r s).status = .ok) : ∃ k j,
    ReadyAt b s.params.nPoll k s ∧
      writeOk (regAddr b offRwctrl) (readCmd s.params f p r) (polled b k s) = true ∧
      ReadyAt b s.params.nPoll j (commanded f p b r k s) ∧
      (readAns (regAddr b offRoData) (polled b j (commanded f p b r k s))).ok = true := by
  have h := transaction_outcome f p b r s
  generalize transaction f p b r s = t at h hok
  cases h with
  | done k j h hw h2 ha => exact ⟨k, j, h, hw, h2, ha⟩
  | _ => cases hok

/-- Settles O34: the four operations make the accesses of a successful transaction in turn, each over the bus side the one
before it left. -/
theorem mdioReadRefinesTheFourOperations : Obligations.MdioReadRefinesTheFourOperations := by
  intro s f p b r t hp ht hok
  obtain rfl := exec_mdioRead_next ht
  obtain ⟨k, j, h, hw, h2, ha⟩ := transaction_ok hok
  have hp1 : s.params = (polled b k s).params := (polled_params b k s).symm
  have hp2 : s.params = (commanded f p b r k s).params := (commanded_params f p b r k s).symm
  have hp3 : s.params = (polled b j (commanded f p b r k s)).params := hp2.trans (polled_params b j _).symm
  have hwait := exec_waitReady_rebus (x := s) (y := s) hp rfl h
  have hstart := exec_startRead_rebus
    (x := waitEnd (s.params.nPoll - k) (s.sleeps + k) (s.params.nPoll - k) .ok s) hp hp1 hw
  have hwait2 := exec_waitReady_rebus
    (x := finishOp .none .ok (waitEnd (s.params.nPoll - k) (s.sleeps + k) (s.params.nPoll - k) .ok s)) hp hp2 h2
  have hresult := exec_readResult_rebus (x := waitEnd (s.params.nPoll - j) (s.sleeps + k + j) (s.params.nPoll - j) .ok
    (finishOp .none .ok (waitEnd (s.params.nPoll - k) (s.sleeps + k) (s.params.nPoll - k) .ok s))) hp hp3 ha
  refine ⟨_, _, _, _, hwait, rfl, hstart, rfl, hwait2, rfl, hresult, rfl, ?_⟩
  rw [transaction_done h hw h2 ha]
  exact ⟨rfl, rfl, rfl, rfl, rfl, rfl⟩

end Sys2Proof.Machine

namespace Sys2Proof.Machine

/-! ## The register map and the straps (42_regmap.md)

`GEN_TABLE` and the code tables read row by row, and the three operations of the family run from `Idle`. -/

/-- A generation is looked up by its code's value (R80, R104). -/
theorem genRecord_of_code (p : Params) {gen : Word} {n : Nat} (h : gen.toNat = n) :
    genRecord p gen = genRecord p (BitVec.ofNat 32 n) := by
  rw [← h, BitVec.ofNat_toNat, BitVec.setWidth_eq]

/-- The row of `GEN_TABLE` for a code, in its two components (R104). -/
theorem genRecord_row {p : Params} {gen : Word} {n : Nat} {mb : Option Word} {st : Option StrapMap} (h : gen.toNat = n)
    (hrow : genRecord p (BitVec.ofNat 32 n) = ⟨mb, st⟩) : (genRecord p gen).mdioBase = mb ∧ (genRecord p gen).strap = st := by
  rw [genRecord_of_code p h, hrow]
  exact ⟨rfl, rfl⟩

/-- A code above 7 takes its further record, if the parameter holds one (R104, D24). -/
theorem genRecord_of_other (p : Params) {gen : Word} (h : 7 < gen.toNat) :
    genRecord p gen = (p.extraRecords.lookup gen).getD ⟨none, none⟩ := by
  have hother : generationOf gen = .other := by
    unfold generationOf
    split
    case h_9 => rfl
    all_goals omega
  rw [genRecord, hother]
  rfl

/-- Generations A to E have no strap map (R104). -/
theorem genRecord_strap_of_le_four (p : Params) {gen : Word} (h : gen.toNat ≤ 4) : (genRecord p gen).strap = none := by
  rw [genRecord_of_code p rfl]
  generalize gen.toNat = n at h
  interval_cases n <;> rfl

/-- The table `T1` (R106). -/
theorem codeMode_T1 (code : Word) : codeMode .T1 code = if code = 0 then .mii else if code = 1 then .rmii else .unknown := by
  simp only [← BitVec.toNat_inj, codeMode]
  split <;> simp_all

/-- The table `T3` (R106). -/
theorem codeMode_T3 (code : Word) : codeMode .T3 code =
    if code = 0 then .gmiiMii else if code = 1 then .rgmii else if code = 4 then .rmii else .unknown := by
  simp only [← BitVec.toNat_inj, codeMode]
  split <;> simp_all

/-- Without a strap map every code is `UNKNOWN` (R107). -/
theorem strapMode_of_no_strap {p : Params} {gen : Word} (h : (genRecord p gen).strap = none) (code : Word) :
    strapMode p gen code = .unknown := by rw [strapMode, h]

/-- With a strap map the unmasked code is looked up in the map's table (R107). -/
theorem strapMode_of_strap {p : Params} {gen : Word} {x : StrapMap} (h : (genRecord p gen).strap = some x) (code : Word) :
    strapMode p gen code = codeMode x.table code := by rw [strapMode, h]

/-- `SELECT_MAP` run from `Idle` hands back the generation's record. -/
theorem exec_selectMap {s : State} (hp : s.phase = .idle) (gen : Word) : exec (.selectMap gen) s =
    .next (finishOp (.map (genRecord s.params gen).mdioBase (genRecord s.params gen).strap) .ok s) := exec_of_idle rfl hp

/-- `DECODE_STRAP` run from `Idle` hands back the mode of the code. -/
theorem exec_decodeStrap {s : State} (hp : s.phase = .idle) (gen code : Word) :
    exec (.decodeStrap gen code) s = .next (finishOp (.mode (strapMode s.params gen code)) .ok s) := exec_of_idle rfl hp

/-- `READ_STRAP` of a generation without a strap map makes no access. -/
theorem exec_readStrap_of_no_strap {s : State} (hp : s.phase = .idle) {gen : Word} (h : (genRecord s.params gen).strap = none) :
    exec (.readStrap gen) s = .next (finishOp (.mode .unknown) .ok s) := by
  rw [exec_of_idle rfl hp, opEffect, strapOp, strapQuery, afterStrapRead, h]

/-- `READ_STRAP` of a generation with a strap map, by the success flag of its one read. -/
theorem exec_readStrap_of_strap {s : State} (hp : s.phase = .idle) {gen : Word} {x : StrapMap}
    (h : (genRecord s.params gen).strap = some x) : exec (.readStrap gen) s = .next
      (if (readAns x.addr s).ok
       then finishOp (.mode (strapMode s.params gen (strapCode x (readAns x.addr s).word))) .ok (afterRead x.addr s)
       else finishOp (.mode .unknown) .busError (afterRead x.addr s)) := by
  rw [exec_of_idle rfl hp, opEffect, strapOp, strapQuery, afterStrapRead, h]
  dsimp only
  cases (readAns x.addr s).ok <;> rfl

/-- Settles O37: each code by its row of the table, and a code above 7 by the lookup of its further record. -/
theorem selectMapAnswersTheTable : Obligations.SelectMapAnswersTheTable := by
  intro s gen hp
  refine ⟨decodeOfEncodeIsTheInstruction (.selectMap gen), _, _, exec_selectMap hp gen,
    fun h => genRecord_row h rfl, fun h => genRecord_row h rfl, fun h => genRecord_row h rfl, fun h => genRecord_row h rfl,
    fun h => genRecord_row h rfl, fun h => genRecord_row h rfl, fun h => genRecord_row h rfl, fun h => genRecord_row h rfl,
    fun h hnone => ?_, fun g h hsome => ?_⟩
  · rw [genRecord_of_other _ h, hnone]
    exact ⟨rfl, rfl⟩
  · rw [genRecord_of_other _ h, hsome]
    exact ⟨rfl, rfl⟩

/-- Settles O38: the generation's strap map names the code table, and without a map the mode is `UNKNOWN`. -/
theorem decodeStrapAnswersTheCodeTables : Obligations.DecodeStrapAnswersTheCodeTables := by
  intro s gen code hp
  refine ⟨decodeOfEncodeIsTheInstruction (.decodeStrap gen code), _, exec_decodeStrap hp gen code, fun h5 => ?_,
    fun h67 => ?_, fun h4 => strapMode_of_no_strap (genRecord_strap_of_le_four _ h4) code,
    fun _ hnone => strapMode_of_no_strap hnone code, fun x _ hx => strapMode_of_strap hx code⟩
  · rw [strapMode_of_strap (genRecord_row h5 rfl).2, codeMode_T1]
  · rcases h67 with h6 | h7
    · rw [strapMode_of_strap (genRecord_row h6 rfl).2, codeMode_T3]
    · rw [strapMode_of_strap (genRecord_row h7 rfl).2, codeMode_T3]

/-- Settles O39: by the success flag of the read; the decoded code is the one whose value is the field's. -/
theorem readStrapDecodesTheField : Obligations.ReadStrapDecodesTheField := by
  intro s gen hp
  refine ⟨decodeOfEncodeIsTheInstruction (.readStrap gen), exec_readStrap_of_no_strap hp, fun x hx => ?_⟩
  intro a s1
  refine ⟨fun ha => ?_, fun ha code hcode => ?_⟩
  · exact (exec_readStrap_of_strap hp hx).trans (congrArg _ (if_neg (ne_true_of_eq_false ha)))
  · obtain rfl : code = strapCode x a.word := BitVec.eq_of_toNat_eq (hcode.trans (strapCode_toNat x a.word).symm)
    exact ⟨_, _, exec_decodeStrap hp gen _, finishOp_returned s _ _,
      (exec_readStrap_of_strap hp hx).trans (congrArg _ (if_pos ha))⟩

/-- `READ_STRAP` when the read answers a scripted word: the mode of the word's strap code, with status `OK`. -/
theorem exec_readStrap_of_scripted {s : State} (hp : s.phase = .idle) {gen : Word} {x : StrapMap}
    (h : (genRecord s.params gen).strap = some x) {v : Word} {l : List Answer} {n : Nat}
    (hb : s.bus = .oracle (⟨v, true, true⟩ :: l) n) :
    exec (.readStrap gen) s = .next (finishOp (.mode (strapMode s.params gen (strapCode x v))) .ok (afterRead x.addr s)) := by
  have ha : readAns x.addr s = ⟨v, true, true⟩ := by rw [readAns, busAnswer, hb, Bus.answer_script]
  rw [exec_readStrap_of_strap hp h, ha]
  rfl

/-- Settles O40: words that agree on the field have the same strap code. -/
theorem strapBitsOutsideTheFieldHaveNoEffect : Obligations.StrapBitsOutsideTheFieldHaveNoEffect := by
  intro s gen x v v' l m hp hx hfield
  refine ⟨_, _, exec_readStrap_of_scripted (s := { s with bus := .oracle (⟨v, true, true⟩ :: l) m }) hp hx rfl,
    exec_readStrap_of_scripted (s := { s with bus := .oracle (⟨v', true, true⟩ :: l) m }) hp hx rfl, ?_, rfl⟩
  rw [finishOp_returned, finishOp_returned, strapCode_congr x hfield]

end Sys2Proof.Machine

namespace Sys2Proof.Machine

/-! ## The detection sequence (43_detect.md)

An equation for each part of `DETECT` and each outcome of its accesses, with the two transactions of step 4 as
`firstRead` and `secondRead`; then how the whole of it ends. -/

/-! ### Step 4 -/

/-- The first transaction is the `MDIO_READ` of register 2 at the divider of the word `c` read back (R74, R113). -/
theorem firstRead_of_exec {c u b : Word} {s t : State}
    (h : exec (.mdioRead ((c.extractLsb' 5 3).setWidth 32) u b 0x02) s = .next t) : firstRead (readDivider c) u b s = t := by
  rw [firstRead, readDivider_eq, exec_mdioRead_next h]

/-- The second is that of register 3, over what the first left. -/
theorem secondRead_of_exec {c u b : Word} {s t1 t2 : State} (e1 : firstRead (readDivider c) u b s = t1)
    (h : exec (.mdioRead ((c.extractLsb' 5 3).setWidth 32) u b 0x03) t1 = .next t2) :
    secondRead (readDivider c) u b s = t2 := by
  rw [secondRead, e1, readDivider_eq, exec_mdioRead_next h]

/-- A transaction of step 4 keeps the parameters, the record and the staged keys (R126). -/
structure KeepsRecord (s t : State) : Prop where
  params : t.params = s.params
  out    : t.out = s.out
  stage  : t.stage = s.stage

theorem KeepsRecord.of_transaction (f p b r : Word) (s : State) : KeepsRecord s (transaction f p b r s) := by
  obtain ⟨hframe, hout, hstage⟩ := transaction_frame f p b r s
  exact ⟨hframe.params, hout, hstage⟩

theorem KeepsRecord.trans {s t u : State} (h : KeepsRecord s t) (h' : KeepsRecord t u) : KeepsRecord s u :=
  ⟨h'.params.trans h.params, h'.out.trans h.out, h'.stage.trans h.stage⟩

section
variable {fdiv : BitVec 3} {u base : Word} {s t1 t2 : State}
variable (e1 : firstRead fdiv u base s = t1) (e2 : secondRead fdiv u base s = t2)

theorem KeepsRecord.of_firstRead : KeepsRecord s (firstRead fdiv u base s) := .of_transaction _ _ _ _ s

theorem KeepsRecord.of_secondRead : KeepsRecord s (secondRead fdiv u base s) :=
  KeepsRecord.of_firstRead.trans (.of_transaction _ _ _ _ _)

include e1 e2

/-- Step 4 by the statuses of its two transactions (R113). -/
theorem detectIds_eq : detectIds fdiv u base s =
    if proceed s.params (t1.status == .ok) then
      if t1.status = .ok ∧ t2.status = .ok then (true, stageEntry (.phyId (phyIdOf t1.result t2.result)) t2)
      else (false, t2)
    else (false, t1) := by
  have hparams : t1.params = s.params := e1 ▸ firstRead_params
  rw [secondRead, e1] at e2
  rw [firstRead] at e1
  unfold detectIds
  simp only [e1, e2, hparams]
  by_cases h1 : t1.status = .ok
  · by_cases h2 : t2.status = .ok <;> simp [proceed, h1, h2]
  · rw [beq_eq_false_iff_ne.mpr h1]
    simp [h1]

theorem detectIds_of_first_failed_skip (h1 : t1.status ≠ .ok) (hm : s.params.onMdioFail = .skipRest) :
    detectIds fdiv u base s = (false, t1) := by
  rw [detectIds_eq e1 e2, if_neg (by simp [proceed, h1, hm])]

theorem detectIds_of_first_failed_continue (h1 : t1.status ≠ .ok) (hm : s.params.onMdioFail = .continueSteps) :
    detectIds fdiv u base s = (false, t2) := by
  rw [detectIds_eq e1 e2, if_pos (by simp [proceed, hm]), if_neg (fun h => h1 h.1)]

theorem detectIds_of_second_failed (h1 : t1.status = .ok) (h2 : t2.status ≠ .ok) :
    detectIds fdiv u base s = (false, t2) := by
  rw [detectIds_eq e1 e2, if_pos (by simp [proceed, h1]), if_neg (fun h => h2 h.2)]

theorem detectIds_of_ok (h1 : t1.status = .ok) (h2 : t2.status = .ok) :
    detectIds fdiv u base s = (true, stageEntry (.phyId (phyIdOf t1.result t2.result)) t2) := by
  rw [detectIds_eq e1 e2, if_pos (by simp [proceed, h1]), if_pos ⟨h1, h2⟩]

end

/-! ### Step 5 and the commit -/

/-- Step 5 and the commit, after what step 4 answered (R114). -/
def targetAndCommit (base : Word) (r : Bool × State) : State :=
  commitStage (detectTarget base r.1 r.2).1 (detectTarget base r.1 r.2).2

/-- Step 5 after a failure: attempted under `CONTINUE` and skipped under `SKIP_REST` (R112 to R114). -/
def targetAfterFailure (base : Word) (s : State) : State :=
  if s.params.onMdioFail = .continueSteps then
    { afterRead (regAddr base offDPhyaddr) s with
      stage := if (readAns (regAddr base offDPhyaddr) s).ok
        then s.stage ++ [.dMdioPhyaddr (readAns (regAddr base offDPhyaddr) s).word] else s.stage }
  else s

theorem targetAfterFailure_out (base : Word) (s : State) : (targetAfterFailure base s).out = s.out := by
  unfold targetAfterFailure
  split <;> rfl

section
variable {base : Word} {s : State}

theorem detectTarget_of_skip {good : Bool} (hp : proceed s.params good = false) : detectTarget base good s = (good, s) :=
  if_neg (ne_true_of_eq_false hp)

theorem detectTarget_of_failed {good : Bool} (hp : proceed s.params good = true)
    (ha : (readAns (regAddr base offDPhyaddr) s).ok = false) :
    detectTarget base good s = (false, afterRead (regAddr base offDPhyaddr) s) :=
  (if_pos hp).trans (if_neg (ne_true_of_eq_false ha))

theorem detectTarget_of_ok {good : Bool} (hp : proceed s.params good = true)
    (ha : (readAns (regAddr base offDPhyaddr) s).ok = true) :
    detectTarget base good s = (good,
      stageEntry (.dMdioPhyaddr (readAns (regAddr base offDPhyaddr) s).word) (afterRead (regAddr base offDPhyaddr) s)) :=
  (if_pos hp).trans (if_pos ha)

/-- After a failure nothing is committed. -/
theorem targetAndCommit_of_bad : targetAndCommit base (false, s) = targetAfterFailure base s := by
  rw [targetAndCommit, targetAfterFailure]
  by_cases hm : s.params.onMdioFail = .continueSteps
  · have hp : proceed s.params false = true := by simp [proceed, hm]
    rw [if_pos hm]
    cases ha : (readAns (regAddr base offDPhyaddr) s).ok
    · rw [detectTarget_of_failed hp ha]
      rfl
    · rw [detectTarget_of_ok hp ha]
      rfl
  · rw [if_neg hm, detectTarget_of_skip (by simpa [proceed] using hm)]
    rfl

theorem afterRead_stageEntry (addr : Word) (e : OutEntry) :
    afterRead addr (stageEntry e s) = { afterRead addr s with stage := s.stage ++ [e] } := rfl

/-- A failed step-5 read drops the staged keys. -/
theorem targetAndCommit_of_target_failed (ha : (readAns (regAddr base offDPhyaddr) s).ok = false) :
    targetAndCommit base (true, s) = afterRead (regAddr base offDPhyaddr) s := by
  rw [targetAndCommit, detectTarget_of_failed rfl ha]
  rfl

/-- A successful one commits them, with its own. -/
theorem targetAndCommit_of_ok (ha : (readAns (regAddr base offDPhyaddr) s).ok = true) :
    targetAndCommit base (true, s) =
      { afterRead (regAddr base offDPhyaddr) s with
        out := s.out ++ (s.stage ++ [.dMdioPhyaddr (readAns (regAddr base offDPhyaddr) s).word])
        stage := s.stage ++ [.dMdioPhyaddr (readAns (regAddr base offDPhyaddr) s).word] } := by
  rw [targetAndCommit, detectTarget_of_ok rfl ha]
  rfl

end

/-! ### Steps 1 to 5 -/

section
variable {gen b : Word} {s : State}

theorem detectController_of_no_base (hb : (genRecord s.params gen).mdioBase = none) : detectController gen s = s := by
  rw [detectController, hb]

variable (hb : (genRecord s.params gen).mdioBase = some b)
include hb

theorem detectController_of_base : detectController gen s = detectMdio b s := by rw [detectController, hb]

/-- A failed step-2 read skips steps 3 to 5 (R111). -/
theorem detectController_of_control_failed (hc : (readAns (regAddr b offRwctrl) s).ok = false) :
    detectController gen s = afterRead (regAddr b offRwctrl) s := by
  rw [detectController_of_base hb]
  exact if_neg (ne_true_of_eq_false hc)

variable (hc : (readAns (regAddr b offRwctrl) s).ok = true)
include hc

/-- A failed initiator read skips step 4 and makes step 5 a step after a failure (R112). -/
theorem detectController_of_initiator_failed
    (hu : (readAns (regAddr b offUPhyaddr) (afterRead (regAddr b offRwctrl) s)).ok = false) :
    detectController gen s = targetAfterFailure b (afterRead (regAddr b offUPhyaddr) (afterRead (regAddr b offRwctrl) s)) := by
  rw [detectController_of_base hb, ← targetAndCommit_of_bad]
  unfold detectMdio detectPhy
  simp only [hc, hu, if_true, Bool.false_eq_true, if_false]
  rfl

/-- After the two reads, step 4 runs with the initiator's word staged (R112, R113). -/
theorem detectController_of_reads
    (hu : (readAns (regAddr b offUPhyaddr) (afterRead (regAddr b offRwctrl) s)).ok = true) :
    detectController gen s = targetAndCommit b
      (detectIds (readDivider (readAns (regAddr b offRwctrl) s).word)
        (readAns (regAddr b offUPhyaddr) (afterRead (regAddr b offRwctrl) s)).word b
        (stageEntry (.uMdioPhyaddr (readAns (regAddr b offUPhyaddr) (afterRead (regAddr b offRwctrl) s)).word)
          (afterRead (regAddr b offUPhyaddr) (afterRead (regAddr b offRwctrl) s)))) := by
  rw [detectController_of_base hb]
  unfold detectMdio detectPhy
  simp only [hc, hu, if_true]
  rfl

end

/-! ### Step 6 and the end -/

/-- `DETECT` ends as `READ_STRAP` run over what steps 1 to 5 left, with the MDIO keys they recorded (R115, R116). -/
theorem detect_ends_after {s t : State} {gen : Word} {keys : List OutEntry} (hp : s.phase = .idle)
    (ht : detectController gen (freshRecord s) = t) (hk : t.out = keys) :
    ∃ e m st, exec (.readStrap gen) t = .next e ∧ e.returned = some ⟨.mode m, st⟩ ∧
      exec (.detect gen) s = .next (detectEnd keys m e) := by
  subst ht hk
  obtain ⟨-, hi, -, -⟩ := detectController_spec gen (freshRecord s) hp rfl rfl
  exact ⟨_, _, _, exec_of_idle rfl hi, finishOp_returned _ _ _, (exec_of_idle rfl hp).trans (congrArg _ (detectOp_eq gen s))⟩

/-- The MDIO keys of a run are all the MDIO keys of the record it ends with. -/
theorem filter_isMdio_detectEnd {s t : State} (h : MdioKeys s t) (m : Mode) (u : State) :
    (detectEnd t.out m u).out.filter OutEntry.isMdio = t.out := by
  have hm : (if m = .unknown then [] else [OutEntry.phyMode m]).filter OutEntry.isMdio = [] := by split <;> rfl
  rw [detectEnd, List.filter_append, hm, List.append_nil]
  rcases h with e | ⟨⟨_, _, _, e⟩, -⟩ <;> rw [e] <;> rfl

/-- The rest of that record is `phy-mode`, when it is known. -/
theorem filter_not_isMdio_detectEnd {s t : State} (h : MdioKeys s t) (m : Mode) (u : State) :
    (detectEnd t.out m u).out.filter (fun e => !e.isMdio) = if m = .unknown then [] else [.phyMode m] := by
  have hm : (if m = .unknown then [] else [OutEntry.phyMode m]).filter (fun e => !e.isMdio) =
      if m = .unknown then [] else [.phyMode m] := by split <;> rfl
  rw [detectEnd, List.filter_append, hm]
  rcases h with e | ⟨⟨_, _, _, e⟩, -⟩ <;> rw [e] <;> rfl

/-- The mode a strap query answers, by its one read (R108). -/
theorem strapQuery_mode {s : State} {gen : Word} {x : StrapMap} (h : (genRecord s.params gen).strap = some x) :
    (strapQuery gen s).1 =
      if (readAns x.addr s).ok then strapMode s.params gen (strapCode x (readAns x.addr s).word) else .unknown := by
  rw [strapQuery, h]
  dsimp only
  split <;> rfl

/-! ### The obligations of the family -/

/-- Settles O41: the end of `DETECT` over the frame every operation keeps. -/
theorem detectAlwaysEndsOk : Obligations.DetectAlwaysEndsOk := by
  intro s gen hp
  obtain ⟨hframe, hi, -, -⟩ := opEffect_frame (i := .detect gen) rfl hp
  obtain ⟨hord, -, -⟩ := detectOp_record gen hp
  exact ⟨detectOp gen s, exec_of_idle rfl hp, rfl, rfl, hi, hord, hframe.inbox, hframe.params⟩

/-- Settles O42: steps 1 to 5 leave the fresh record as it was, or the state after the failed read. -/
theorem skippedMdioStillAttemptsTheStrap : Obligations.SkippedMdioStillAttemptsTheStrap := by
  intro s gen hp
  exact ⟨fun hb => detect_ends_after hp (detectController_of_no_base (s := freshRecord s) hb) rfl,
    fun b hb hc => detect_ends_after hp (detectController_of_control_failed (s := freshRecord s) hb hc) rfl⟩

/-- Settles O43: the step after the failed initiator read is `targetAfterFailure`. -/
theorem failedInitiatorReadIssuesNoTransaction : Obligations.FailedInitiatorReadIssuesNoTransaction := by
  intro s gen b hp hb s1 s2 d s3 hc hu
  exact detect_ends_after hp (detectController_of_initiator_failed (s := freshRecord s) hb hc hu)
    (targetAfterFailure_out b s2)

/-- Settles O44: by the first failure of steps 4 and 5. -/
theorem failedStepsCommitNothing : Obligations.FailedStepsCommitNothing := by
  intro s gen b hp hb s1 c fdiv u s2 step5 endsAfter t1 hc hu ht1
  have hreads : detectController gen (freshRecord s) = targetAndCommit b (detectIds (readDivider c.word) u.word b s2) :=
    detectController_of_reads (s := freshRecord s) hb hc hu
  have e1 := firstRead_of_exec ht1
  have k1 : KeepsRecord s2 t1 := e1 ▸ .of_firstRead
  have hbad : ∀ t, KeepsRecord s2 t → detectIds (readDivider c.word) u.word b s2 = (false, t) → endsAfter (step5 t) := by
    intro t ht hids
    have hstep5 : targetAfterFailure b t = step5 t := by
      rw [targetAfterFailure, ht.params]
      rfl
    rw [hids, targetAndCommit_of_bad, hstep5] at hreads
    exact detect_ends_after hp hreads (by rw [← hstep5, targetAfterFailure_out, ht.out]; rfl)
  refine ⟨fun h1 hskip => ?_, fun t2 ht2 => ?_⟩
  · have h := hbad t1 k1 (detectIds_of_first_failed_skip e1 rfl h1 hskip)
    have hnone : step5 t1 = t1 := if_neg (by simp [hskip])
    rwa [hnone] at h
  · have e2 := secondRead_of_exec e1 ht2
    have k2 : KeepsRecord s2 t2 := e2 ▸ .of_secondRead
    refine ⟨fun h1 hcont => ?_, fun h1 h2 => ?_, fun h1 h2 hd => ⟨_, phyIdOf_toNat t1.result t2.result, ?_⟩⟩
    · exact hbad t2 k2 (detectIds_of_first_failed_continue e1 e2 h1 hcont)
    · exact hbad t2 k2 (detectIds_of_second_failed e1 e2 h1 h2)
    · rw [detectIds_of_ok e1 e2 h1 h2, targetAndCommit_of_target_failed (s := stageEntry _ t2) hd,
        afterRead_stageEntry, k2.stage] at hreads
      exact detect_ends_after hp hreads k2.out

/-- Settles O45: the staged keys are committed, with the identifier of the two transactions between the two words. -/
theorem detectRecordsTheThreeKeys : Obligations.DetectRecordsTheThreeKeys := by
  intro s gen b hp hb s1 c fdiv u s2 t1 t2 hc hu ht1 h1 ht2 h2 d hd
  have hreads : detectController gen (freshRecord s) = targetAndCommit b (detectIds (readDivider c.word) u.word b s2) :=
    detectController_of_reads (s := freshRecord s) hb hc hu
  have e1 := firstRead_of_exec ht1
  have e2 := secondRead_of_exec e1 ht2
  have k2 : KeepsRecord s2 t2 := e2 ▸ .of_secondRead
  have hout : t2.out = [] := k2.out
  have hstage : t2.stage = [.uMdioPhyaddr u.word] := k2.stage
  rw [detectIds_of_ok e1 e2 h1 h2, targetAndCommit_of_ok (s := stageEntry _ t2) hd, stageEntry_out,
    stageEntry_stage, hout, hstage] at hreads
  obtain ⟨e, m, st, he, hret, hdet⟩ := detect_ends_after hp hreads rfl
  exact ⟨_, _, e, m, st, phyIdOf_toNat _ _, rfl, he, hret, hdet⟩

/-- Settles O46: the record's MDIO keys are those of steps 1 to 5, which are committed with no diagnostic on the way. -/
theorem mdioKeysCommitTogether : Obligations.MdioKeysCommitTogether := by
  intro s gen hp
  obtain ⟨-, -, hkeys, -⟩ := detectController_spec gen (freshRecord s) hp rfl rfl
  have hout : (detectOp gen s).out.filter OutEntry.isMdio = (detectController gen (freshRecord s)).out := by
    rw [detectOp_eq, filter_isMdio_detectEnd hkeys]
  refine ⟨detectOp gen s, exec_of_idle rfl hp, ?_⟩
  rw [hout, detectOp_diag]
  rcases hkeys with hnone | ⟨hall, -, hdiag⟩
  · exact ⟨.inl hnone, fun _ => hnone⟩
  · exact ⟨.inr hall, fun hne => absurd hdiag hne⟩

/-- Settles O47: the strap query's read follows all of steps 1 to 5, and its mode is the record's last key. -/
theorem strapStepRunsOnEveryPath : Obligations.StrapStepRunsOnEveryPath := by
  intro s gen x hp hx
  obtain ⟨hframe, -, hkeys, -⟩ := detectController_spec gen (freshRecord s) hp rfl rfl
  generalize hc : detectController gen (freshRecord s) = t at hframe hkeys
  have hparams : t.params = s.params := hframe.params
  have hxt : (genRecord t.params gen).strap = some x := by rw [hparams, hx]
  refine ⟨detectOp gen s, t.trace, (readAns x.addr t).word, (readAns x.addr t).ok, exec_of_idle rfl hp, hframe.trace, ?_, ?_⟩
  · rw [detectOp_eq, hc, strapOp_eq, afterStrapRead, hxt]
    exact afterRead_trace t x.addr
  · rw [detectOp_eq, hc, filter_not_isMdio_detectEnd hkeys, strapQuery_mode hxt, hparams]
    cases (readAns x.addr t).ok <;> simp

end Sys2Proof.Machine

namespace Sys2Proof.Machine

/-! ## Failures and the reference device (60_exceptions.md)

A failure is a status and never a stop from a state of the invariant (R117); how a transaction that fails ends
(R119 to R122); and what the reference device of R132 to R134 answers. -/

/-! ### No step of an invariant state faults (R47, R117) -/

/-- No instruction stops with a fault: an operation is run or refused, and so is a command word. -/
theorem exec_ne_fault (i : Instr) (s : State) (r : Fault) : exec i s ≠ .fault r := by
  by_cases hop : isOperation i = true
  · rw [exec_operation hop, whenIdle]
    split <;> simp
  · cases i with
    | mdioCmdRead ex fd inn => simp [exec, execMdioCmdRead]
    | mdioCmdWrite d f rsv ex fd inn =>
      rw [exec, execMdioCmdWrite]
      split <;> simp
    | _ => exact absurd rfl hop

/-- The one way to a fault: a transition that would read a register without a value (U22). -/
theorem step_fault {s : State} {r : Fault} (h : step s = .fault r) :
    s.phase ≠ .idle ∧ ∃ reg, valuelessRead s = some reg := by
  unfold step at h
  by_cases hp : s.phase = .idle
  · rw [if_pos hp] at h
    cases hf : fetch s with
    | nothing => rw [hf] at h; cases h
    | taken dec rest =>
      rw [hf] at h
      cases dec with
      | instr i => exact absurd h (exec_ne_fault i _ r)
      | readClass w =>
        rcases takeReadClass_cases w { s with inbox := rest } with e | e <;> exact nomatch e.symm.trans h
      | _ => cases h
  · rw [if_neg hp, phaseStep] at h
    cases hv : valuelessRead s with
    | none => rw [hv] at h; cases h
    | some reg => exact ⟨hp, reg, rfl⟩

/-- Settles O4: a transaction in progress has its registers valued, so no transition reads one without a value. -/
theorem invariantStatesNeverFault : Obligations.InvariantStatesNeverFault := by
  intro s r hinv hfault
  obtain ⟨hp, reg, hread⟩ := step_fault hfault
  obtain ⟨hcnt, hlatch⟩ := hinv.latched hp
  rcases valuelessRead_some hread with ⟨-, hc, -⟩ | ⟨-, hl, -⟩
  · exact absurd hcnt (by simp [hc])
  · exact absurd hlatch (by simp [hl])

/-! ### The failing ends of a transaction (R119 to R122) -/

/-- The polls and the command write move the bus side only. -/
theorem rebus_commanded (f p b r : Word) (k : Nat) (s : State) : rebus s (commanded f p b r k s) = commanded f p b r k s :=
  rebus_afterCommandWrite _ _ (rebus_afterReads _ _ rfl)

section
variable {f p b r : Word} {s : State} {k j : Nat}

/-- A pre-check without a ready poll (R120). -/
theorem transaction_busy (h : failedPolls (regAddr b offRwctrl) s.params.nPoll s) :
    transaction f p b r s = { readEnd f p b r 0 (s.sleeps + (s.params.nPoll - 1)) 0 .busy
      (afterReads (regAddr b offRwctrl) s.params.nPoll s) with diag := s.diag ++ [.busy] } := by
  rw [transaction, acceptRead_eq, show 2 * s.params.nPoll + 3 = (s.params.nPoll + 1) + s.params.nPoll + 2 by omega]
  exact preCheck.polls_timeout rfl h

/-- A bus error at a pre-check poll (R122). -/
theorem transaction_preAbort (h : AbortAt b s.params.nPoll k s) : transaction f p b r s =
    readEnd f p b r (s.params.nPoll - k) (s.sleeps + k) 0 .busError (polled b k s) := by
  have hk := h.lt
  rw [transaction, acceptRead_eq, show 2 * s.params.nPoll + 3 = (2 * s.params.nPoll + 1 - k) + k + 2 by omega]
  exact preCheck.polls_abort rfl h.lt h.failed h.abort

variable (h : ReadyAt b s.params.nPoll k s)
include h

/-- A transaction that observes ready at pre-check poll `k` goes on from `CommandIssued`. -/
theorem transaction_of_ready : transaction f p b r s = runPhases (2 * s.params.nPoll + 2 - k)
    (rebus (midRead f p b r .commandIssued (s.params.nPoll - k) (s.sleeps + k) s) (polled b k s)) := by
  have hk := h.lt
  rw [transaction, acceptRead_eq, show 2 * s.params.nPoll + 3 = (2 * s.params.nPoll + 2 - k) + k + 1 by omega]
  exact preCheck.polls_ready rfl h.lt h.failed h.ready

/-- A bus error at the command write (R97, R122). -/
theorem transaction_commandFails
    (hw : writeOk (regAddr b offRwctrl) (readCmd s.params f p r) (polled b k s) = false) : transaction f p b r s =
      readEnd f p b r (s.params.nPoll - k) (s.sleeps + k) 0 .busError (commanded f p b r k s) := by
  have hk := h.lt
  rw [transaction_of_ready h, show 2 * s.params.nPoll + 2 - k = (2 * s.params.nPoll - k) + 2 by omega]
  exact midRead_command_fails (rebus_afterReads _ _ rfl) hw

variable (hw : writeOk (regAddr b offRwctrl) (readCmd s.params f p r) (polled b k s) = true)
include hw

/-- After the command write the transaction goes on from the post-check with `CNT = N_POLL`. -/
theorem transaction_of_command : transaction f p b r s = runPhases (2 * s.params.nPoll + 1 - k)
    (rebus (midRead f p b r .waitReadyPost s.params.nPoll (s.sleeps + k) s) (commanded f p b r k s)) := by
  have hk := h.lt
  rw [transaction_of_ready h, show 2 * s.params.nPoll + 2 - k = (2 * s.params.nPoll + 1 - k) + 1 by omega]
  exact midRead_command_ok (rebus_afterReads _ _ rfl) hw

/-- A post-check without a ready poll (R121). -/
theorem transaction_readTimeout (hf : failedPolls (regAddr b offRwctrl) s.params.nPoll (commanded f p b r k s)) :
    transaction f p b r s = { readEnd f p b r 0 (s.sleeps + k + (s.params.nPoll - 1)) 0 .readTimeout
      (afterReads (regAddr b offRwctrl) s.params.nPoll (commanded f p b r k s)) with
        diag := s.diag ++ [.readTimeout] } := by
  have hk := h.lt
  rw [transaction_of_command h hw,
    show 2 * s.params.nPoll + 1 - k = (s.params.nPoll - 1 - k) + s.params.nPoll + 2 by omega]
  exact postCheck.polls_timeout (rebus_commanded f p b r k s) hf

/-- A bus error at a post-check poll (R122). -/
theorem transaction_postAbort (h2 : AbortAt b s.params.nPoll j (commanded f p b r k s)) : transaction f p b r s =
    readEnd f p b r (s.params.nPoll - j) (s.sleeps + k + j) 0 .busError (polled b j (commanded f p b r k s)) := by
  have hk := h.lt
  have hj := h2.lt
  rw [transaction_of_command h hw,
    show 2 * s.params.nPoll + 1 - k = (2 * s.params.nPoll - 1 - k - j) + j + 2 by omega]
  exact postCheck.polls_abort (rebus_commanded f p b r k s) h2.lt h2.failed
    (commanded_params f p b r k s ▸ h2.abort)

/-- A bus error at the result read (R99, R122). -/
theorem transaction_resultFails (h2 : ReadyAt b s.params.nPoll j (commanded f p b r k s))
    (ha : (readAns (regAddr b offRoData) (polled b j (commanded f p b r k s))).ok = false) : transaction f p b r s =
      readEnd f p b r (s.params.nPoll - j) (s.sleeps + k + j) 0 .busError
        (afterRead (regAddr b offRoData) (polled b j (commanded f p b r k s))) := by
  have hk := h.lt
  have hj := h2.lt
  have hs := rebus_commanded f p b r k s
  rw [transaction_of_command h hw,
    show 2 * s.params.nPoll + 1 - k = (2 * s.params.nPoll - 2 - k - j) + 2 + j + 1 by omega]
  exact (postCheck.polls_ready hs h2.lt h2.failed h2.ready).trans (midRead_result_fails (rebus_afterReads _ _ hs) ha)

end

/-- `MDIO_READ` run from `Idle` is its transaction. -/
theorem exec_mdioRead {s : State} (hp : s.phase = .idle) (f p b r : Word) :
    exec (.mdioRead f p b r) s = .next (transaction f p b r s) := exec_of_idle rfl hp

/-- Settles O29: the end of a pre-check that times out. -/
theorem busyTransactionWritesNoCommand : Obligations.BusyTransactionWritesNoCommand := by
  intro s f p b r hp n hf
  rw [exec_mdioRead hp, transaction_busy hf]
  rfl

/-- Settles O30: the end of a post-check that times out. -/
theorem readTimeoutAfterTheCommand : Obligations.ReadTimeoutAfterTheCommand := by
  intro s f p b r k hp n addr w s1 s2 hk hf hr hw hf2
  rw [exec_mdioRead hp, transaction_readTimeout ⟨hk, hf, hr⟩ hw hf2]
  rfl

/-- Settles O31: by the access that fails. -/
theorem busErrorEndsTheTransaction : Obligations.BusErrorEndsTheTransaction := by
  intro s f p b r k hp n addr w s1 s2 hk hf
  refine ⟨fun ha => ?_, fun hr hw => ?_, fun j hj hr hw hf2 => ?_⟩
  · rw [exec_mdioRead hp, transaction_preAbort ⟨hk, hf, ha⟩]; rfl
  · rw [exec_mdioRead hp, transaction_commandFails ⟨hk, hf, hr⟩ hw]; rfl
  · refine ⟨fun ha => ?_, fun hr2 ha => ?_⟩
    · rw [exec_mdioRead hp, transaction_postAbort ⟨hk, hf, hr⟩ hw
        ⟨hj, hf2, (commanded_params f p b r k s).symm ▸ ha⟩]; rfl
    · rw [exec_mdioRead hp, transaction_resultFails ⟨hk, hf, hr⟩ hw ⟨hj, hf2, hr2⟩ ha]; rfl

/-! ### The reference device (R132 to R134) -/

namespace RefDevice

/-- The device's status word is a control word of its finish bit and its divider, all else 0 (R74, R133). -/
theorem wordFields_statusWord (d : RefDevice) : wordFields d.statusWord = ⟨0, d.fin, 0, 0, 0, d.fdv, 0⟩ := by
  rw [wordFields_extract, CtrlFields.mk.injEq]
  refine ⟨?_, ?_, ?_, ?_, ?_, ?_, ?_⟩ <;> (ext i hi; interval_cases i <;> simp [statusWord])

theorem toNat_statusWord (d : RefDevice) : d.statusWord.toNat = d.fin.toNat * 2 ^ 15 + d.fdv.toNat * 2 ^ 5 := by
  rw [toNat_eq_fields, wordFields_statusWord]
  simp

/-- Bit 15 of the status word is the finish bit (R34, R133). -/
theorem statusWord_ready (d : RefDevice) : d.statusWord.getLsbD 15 = true ↔ d.fin = 1 := by
  have h : d.fin = BitVec.ofBool (d.statusWord.getLsbD 15) := by
    rw [← (wordFields_flags d.statusWord).1, wordFields_statusWord]
  rw [h]
  cases d.statusWord.getLsbD 15 <;> decide

/-- A poll answered with the status word observes ready when the device has finished (R91, R133). -/
theorem readyPoll_statusWord {d : RefDevice} (h : d.fin = 1) : ReadyPoll (readAnswer d.statusWord) :=
  ⟨rfl, d.statusWord_ready.mpr h⟩

/-- While the device has not finished such a poll is a failed one; it cannot abort, for the read succeeds. -/
theorem failedPoll_statusWord {d : RefDevice} (p : Params) (h : d.fin = 0) : FailedPoll p (readAnswer d.statusWord) := by
  refine ⟨fun ⟨_, hr⟩ => ?_, fun ⟨hok, _⟩ => by cases hok⟩
  rw [d.statusWord_ready.mp hr] at h
  cases h

/-! #### One device step -/

section
variable {d : RefDevice} (p : Params)

/-- A device that has finished, has had no command or has an infinite latency makes no step. -/
theorem cycleStep_of_settled (h : d.fin ≠ 0 ∨ d.n = 0 ∨ d.cnt = none) : d.cycleStep p = d := by
  unfold cycleStep
  split
  case isFalse => rfl
  case isTrue hrun =>
    obtain ⟨hf, hn⟩ := hrun
    rcases h with h | h | h
    · exact absurd hf h
    · omega
    · rw [h]

/-- A cycle in flight counts down. -/
theorem cycleStep_of_succ {k : Nat} (hf : d.fin = 0) (hn : 1 ≤ d.n) (hc : d.cnt = some (k + 1)) :
    d.cycleStep p = { d with cnt := some k } := by
  rw [cycleStep, if_pos ⟨hf, hn⟩, hc]

/-- A cycle counted down finishes, with the addressed PHY register's value. -/
theorem cycleStep_of_zero (hf : d.fin = 0) (hn : 1 ≤ d.n) (hc : d.cnt = some 0) : d.cycleStep p =
    { d with fin := 1, data := d.phyRegister (cycleOf p d.cmd).phy (cycleOf p d.cmd).reg } := by
  rw [cycleStep, if_pos ⟨hf, hn⟩, hc]

/-- A step changes no parameter of the device. -/
theorem cycleStep_toRefParams (d : RefDevice) : (d.cycleStep p).toRefParams = d.toRefParams := by
  unfold cycleStep
  split
  · split <;> rfl
  · rfl

end

/-! #### The reaction to a bus event -/

section
variable {d : RefDevice} {p : Params} {ev : Nat}

/-- A failing event changes nothing. -/
theorem react_of_fails (h : ev ∈ d.fails) (acc : Access) : d.react p ev acc = (failAnswer, d) := if_pos h

variable (h : ev ∉ d.fails)
include h

theorem react_command (w : Word) :
    d.react p ev (.wr (regAddr d.base offRwctrl) w) = (readAnswer 0, d.takeCommand w) := by
  rw [react, if_neg h]
  exact if_pos rfl

/-- A write at any other address fails and changes nothing (log 16). -/
theorem react_write_elsewhere {addr : Word} (ha : addr ≠ regAddr d.base offRwctrl) (w : Word) :
    d.react p ev (.wr addr w) = (failAnswer, d) := by
  rw [react, if_neg h]
  exact if_neg ha

/-- A poll makes a device step before its answer. -/
theorem react_poll : d.react p ev (.rd (regAddr d.base offRwctrl)) =
    (readAnswer (d.cycleStep p).statusWord, d.cycleStep p) := by
  rw [react, if_neg h]
  exact if_pos rfl

theorem react_result : d.react p ev (.rd (regAddr d.base offRoData)) = (readAnswer (d.data.setWidth 32), d) := by
  simp [react, h, regAddr, offRwctrl, offRoData]

theorem react_initiator : d.react p ev (.rd (regAddr d.base offUPhyaddr)) = (readAnswer d.uVal, d) := by
  simp [react, h, regAddr, offRwctrl, offRoData, offUPhyaddr]

theorem react_target : d.react p ev (.rd (regAddr d.base offDPhyaddr)) = (readAnswer d.dVal, d) := by
  simp [react, h, regAddr, offRwctrl, offRoData, offUPhyaddr, offDPhyaddr]

/-- A read away from the four controller registers is of the strap register or of none (R134). -/
theorem react_read_elsewhere {addr : Word} (h1 : addr ≠ regAddr d.base offRwctrl) (h2 : addr ≠ regAddr d.base offRoData)
    (h3 : addr ≠ regAddr d.base offUPhyaddr) (h4 : addr ≠ regAddr d.base offDPhyaddr) :
    d.react p ev (.rd addr) = (if d.strapAddr = some addr then readAnswer d.strapWord else failAnswer, d) := by
  rw [react, if_neg h]
  simp only [if_neg h1, if_neg h2, if_neg h3, if_neg h4]
  split <;> rfl

end

/-- The device's reaction to a command word (R133): every word sets the divider, and one with `rw = 0` starts a cycle. -/
theorem takeCommand_eq (d : RefDevice) (w : Word) : d.takeCommand w =
    if w.getLsbD 13 = true then { d with fdv := w.extractLsb' 5 3 }
    else { d with fdv := w.extractLsb' 5 3, n := d.n + 1, fin := 0, cnt := d.latency (d.n + 1), cmd := w } := by
  cases h13 : w.getLsbD 13 with
  | false => simpa using d.takeCommand_read h13
  | true =>
    have hrw : (wordFields w).rw ≠ 0 := by rw [(wordFields_flags w).2.2, h13]; decide
    rw [takeCommand, if_neg hrw, wordFields_extract]
    rfl

/-- A cycle's register as the command's bit ranges, by `ADDR_ASSIGN` (R73, R133). -/
theorem phyRegister_cycleOf (d : RefDevice) (p : Params) (w : Word) :
    d.phyRegister (cycleOf p w).phy (cycleOf p w).reg =
      if p.addrAssign = .exIsPhy then d.phyRegister (w.extractLsb' 8 5) (w.extractLsb' 0 5)
      else d.phyRegister (w.extractLsb' 0 5) (w.extractLsb' 8 5) := by
  cases h : p.addrAssign <;> simp [cycleOf, wordFields_extract, h]

end RefDevice

/-- The reference device as the primitive: its answer, and the device its reaction leaves (R133). -/
theorem Bus.answer_reference {d d' : RefDevice} {p : Params} {ev : Nat} {acc : Access} {a : Answer}
    (h : d.react p ev acc = (a, d')) : (Bus.reference d).answer p ev acc = (a, .reference d') := by
  rw [Bus.answer, h]

/-- Settles O58: by the kind of access and its address. -/
theorem referenceDeviceReacts : Obligations.ReferenceDeviceReacts := by
  intro d p ev bus
  refine ⟨fun hf acc => Bus.answer_reference (RefDevice.react_of_fails hf acc), fun hf =>
    ⟨fun w => ⟨readAnswer 0, rfl, ?command⟩,
      fun addr w ha => Bus.answer_reference (RefDevice.react_write_elsewhere hf ha w),
      ⟨_, _, Bus.answer_reference (RefDevice.react_poll hf), rfl, RefDevice.toNat_statusWord _,
        RefDevice.cycleStep_of_settled p,
        fun hfin hn => ⟨fun k hc => RefDevice.cycleStep_of_succ p hfin hn hc, fun hc => ?finish⟩⟩,
      Bus.answer_reference (RefDevice.react_result hf), Bus.answer_reference (RefDevice.react_initiator hf),
      Bus.answer_reference (RefDevice.react_target hf), fun addr h1 h2 h3 h4 => ?elsewhere⟩⟩
  case command =>
    rw [← RefDevice.takeCommand_eq]
    exact Bus.answer_reference (RefDevice.react_command hf w)
  case finish => rw [RefDevice.cycleStep_of_zero p hfin hn hc, RefDevice.phyRegister_cycleOf]
  case elsewhere =>
    have e := Bus.answer_reference (RefDevice.react_read_elsewhere (p := p) hf h1 h2 h3 h4)
    exact ⟨fun hs => by rw [e, if_pos hs]; rfl, fun hs => by rw [e, if_neg hs]; rfl⟩

/-! #### `WAIT_READY` over the reference device -/

namespace RefDevice

/-- The device after the steps of `k` polls. -/
def afterPolls (p : Params) (k : Nat) (d : RefDevice) : RefDevice := (fun e => e.cycleStep p)^[k] d

theorem afterPolls_succ (p : Params) (k : Nat) (d : RefDevice) :
    d.afterPolls p (k + 1) = (d.afterPolls p k).cycleStep p := Function.iterate_succ_apply' _ k d

theorem afterPolls_toRefParams (p : Params) (k : Nat) (d : RefDevice) :
    (d.afterPolls p k).toRefParams = d.toRefParams := by
  induction k with
  | zero => rfl
  | succ k ih => rw [afterPolls_succ, cycleStep_toRefParams, ih]

/-- Polls leave a device alone that makes no step. -/
theorem afterPolls_of_settled (p : Params) (k : Nat) {d : RefDevice} (h : d.fin ≠ 0 ∨ d.n = 0 ∨ d.cnt = none) :
    d.afterPolls p k = d := Function.iterate_fixed (f := fun e : RefDevice => e.cycleStep p) (cycleStep_of_settled p h) k

/-- Up to its latency each poll counts a cycle in flight down by one. -/
theorem afterPolls_of_inFlight (p : Params) {d : RefDevice} {L k : Nat} (hf : d.fin = 0) (hn : 1 ≤ d.n)
    (hc : d.cnt = some L) (hk : k ≤ L) : d.afterPolls p k = { d with cnt := some (L - k) } := by
  induction k with
  | zero => rw [Nat.sub_zero, ← hc]; rfl
  | succ k ih =>
    rw [afterPolls_succ, ih (by omega), show L - k = (L - (k + 1)) + 1 by omega]
    exact cycleStep_of_succ p hf hn rfl

/-- The poll after its latency finishes the cycle. -/
theorem afterPolls_latency_succ (p : Params) {d : RefDevice} {L : Nat} (hf : d.fin = 0) (hn : 1 ≤ d.n)
    (hc : d.cnt = some L) : d.afterPolls p (L + 1) = { d with
      cnt := some 0, fin := 1, data := d.phyRegister (cycleOf p d.cmd).phy (cycleOf p d.cmd).reg } := by
  rw [afterPolls_succ, afterPolls_of_inFlight p hf hn hc (Nat.le_refl L), Nat.sub_self]
  exact cycleStep_of_zero p hf hn rfl

/-- Without failing events a poll after `k` polls answers the status word of the device after one step more. -/
theorem answer_poll_afterPolls {d : RefDevice} (hd : d.fails = []) (p : Params) (k ev : Nat) :
    (Bus.reference (d.afterPolls p k)).answer p ev (.rd (regAddr d.base offRwctrl)) =
      (readAnswer (d.afterPolls p (k + 1)).statusWord, .reference (d.afterPolls p (k + 1))) := by
  have e := d.afterPolls_toRefParams p k
  have hbase : (d.afterPolls p k).base = d.base := congrArg RefParams.base e
  have hfails : (d.afterPolls p k).fails = [] := (congrArg RefParams.fails e).trans hd
  rw [← hbase, afterPolls_succ]
  exact Bus.answer_reference (react_poll (by simp [hfails]))

end RefDevice

section
variable {s : State} {d : RefDevice} (hb : s.bus = .reference d) (hd : d.fails = [])
include hb hd

/-- `k` polls make `k` device steps. -/
theorem afterReads_reference (k : Nat) :
    (afterReads (regAddr d.base offRwctrl) k s).bus = .reference (d.afterPolls s.params k) := by
  induction k with
  | zero => exact hb
  | succ k ih => rw [afterReads, afterRead_bus, ih, afterReads_params, RefDevice.answer_poll_afterPolls hd]

/-- Poll `k` answers the status word of the device after its step. -/
theorem pollAns_reference (k : Nat) :
    pollAns (regAddr d.base offRwctrl) k s = readAnswer (d.afterPolls s.params (k + 1)).statusWord := by
  rw [pollAns, readAns, busAnswer, afterReads_reference hb hd, afterReads_params, RefDevice.answer_poll_afterPolls hd]

/-- While the device has not finished its polls are failed polls. -/
theorem failedPolls_reference {k : Nat} (h : ∀ j < k, (d.afterPolls s.params (j + 1)).fin = 0) :
    failedPolls (regAddr d.base offRwctrl) k s := fun j hj => by
  rw [pollAns_reference hb hd]
  exact RefDevice.failedPoll_statusWord s.params (h j hj)

variable (hp : s.phase = .idle)
include hp

/-- `WAIT_READY` returns at the first poll after whose step the device has finished. -/
theorem exec_waitReady_reference_ready {k : Nat} (hk : k < s.params.nPoll)
    (h : ∀ j < k, (d.afterPolls s.params (j + 1)).fin = 0) (hfin : (d.afterPolls s.params (k + 1)).fin = 1) :
    ∃ t, exec (.waitReady d.base) s = .next t ∧ t.returned = some ⟨.count (s.params.nPoll - k), .ok⟩ ∧
      t.bus = .reference (d.afterPolls s.params (k + 1)) := by
  have hready : ReadyAt d.base s.params.nPoll k s :=
    ⟨hk, failedPolls_reference hb hd h, by rw [pollAns_reference hb hd]; exact RefDevice.readyPoll_statusWord hfin⟩
  exact ⟨_, exec_waitReady hp d.base, by rw [waitLoop_ready hready]; rfl,
    by rw [waitLoop_ready hready]; exact afterReads_reference hb hd (k + 1)⟩

/-- `WAIT_READY` times out when the device does not finish within `N_POLL` polls. -/
theorem exec_waitReady_reference_timeout (h : ∀ j < s.params.nPoll, (d.afterPolls s.params (j + 1)).fin = 0) :
    ∃ t, exec (.waitReady d.base) s = .next t ∧ t.returned = some ⟨.count 0, .timeout⟩ :=
  ⟨_, exec_waitReady hp d.base, by rw [waitLoop_timeout (failedPolls_reference hb hd h)]; rfl⟩

end

/-- Settles O55: by when a cycle in flight finishes. -/
theorem referenceDeviceFinishesAfterItsLatency : Obligations.ReferenceDeviceFinishesAfterItsLatency := by
  intro s d hp hb hd hf hn
  have counting : ∀ {L j}, d.cnt = some L → j < L → (d.afterPolls s.params (j + 1)).fin = 0 := fun hc hj => by
    rw [RefDevice.afterPolls_of_inFlight s.params hf hn hc hj]
    exact hf
  refine ⟨fun L hc hL => ?_, fun L hc hL => ?_, fun hc => ?_⟩
  · have e := RefDevice.afterPolls_latency_succ s.params hf hn hc
    obtain ⟨t, ht, hret, hbus⟩ :=
      exec_waitReady_reference_ready hb hd hp hL (fun j hj => counting hc hj) (by rw [e])
    exact ⟨t, _, ht, hret, hbus, by rw [e], by rw [e]⟩
  · exact exec_waitReady_reference_timeout hb hd hp fun j hj => counting hc (by omega)
  · exact exec_waitReady_reference_timeout hb hd hp fun j _ => by
      rw [RefDevice.afterPolls_of_settled s.params _ (.inr (.inr hc))]
      exact hf

/-- Settles O57: before a command the device makes no step, so every poll sees `FIN0`. -/
theorem referenceDeviceStartsAsGiven : Obligations.ReferenceDeviceStartsAsGiven := by
  intro q
  refine ⟨rfl, rfl, rfl, rfl, rfl, rfl, rfl, fun s hp hb hd => ?_⟩
  have stays : ∀ k, (q.initial.afterPolls s.params k).fin = q.fin0 := fun k => by
    rw [RefDevice.afterPolls_of_settled s.params k (.inr (.inl rfl))]
    rfl
  refine ⟨fun h1 hn => ?_, fun h0 => ?_⟩
  · obtain ⟨t, ht, hret, -⟩ := exec_waitReady_reference_ready hb hd hp hn
      (fun j hj => absurd hj (Nat.not_lt_zero j)) ((stays 1).trans h1)
    exact ⟨t, ht, hret⟩
  · exact exec_waitReady_reference_timeout hb hd hp fun j _ => (stays (j + 1)).trans h0

end Sys2Proof.Machine

namespace Sys2Proof.Machine

/-! ## Reset and hazards (70_reset_and_hazards.md)

The hazards of R145 and R146 compose: a list of events that is free of them whatever event came before it may follow any
other. A transaction's events are such a list, since each begins with a poll, and so are `DETECT`'s. -/

/-! ### Reset and the idle step (R138, R139) -/

/-- At reset the host's read of every register that R47 names faults. -/
theorem hostRead_reset (r : EngineReg) : hostRead r State.reset = .error (.valuelessRegister r) := by
  cases r <;> rfl

/-- A run with no base and no strap map makes no access and records nothing. -/
theorem detectOp_of_empty_record {gen : Word} {s : State} (hg : genRecord s.params gen = ⟨none, none⟩) : detectOp gen s =
    { s with out := [], stage := [], status := .ok, returned := some ⟨.record [], .ok⟩ } := by
  have hc : detectController gen (freshRecord s) = freshRecord s :=
    detectController_of_no_base (by rw [freshRecord_params, hg])
  have hq : strapQuery gen (freshRecord s) = (.unknown, .ok) := by rw [strapQuery, freshRecord_params, hg]
  have hr : afterStrapRead gen (freshRecord s) = freshRecord s := by rw [afterStrapRead, freshRecord_params, hg]
  rw [detectOp_eq, hc, hq, strapOp_eq, hq, hr]
  rfl

/-- Settles O1: `DETECT` reads `OUT` and `STAGE` only through `freshRecord`. -/
theorem resetLeavesTheSpecsState : Obligations.ResetLeavesTheSpecsState := by
  refine ⟨rfl, rfl, rfl, rfl, hostRead_reset, fun gen s out stage => rfl, fun gen s hp => ⟨rfl, ?_, fun hg => ?_⟩⟩
  · exact exec_of_idle rfl hp
  · rw [exec_of_idle rfl hp]
    exact congrArg _ (detectOp_of_empty_record hg)

/-- With nothing presented there is nothing to take up. -/
theorem fetch_nil {s : State} (hin : s.inbox = []) : fetch s = .nothing := by rw [fetch, hin]

/-- Settles O6: the step in `Idle` of an empty list of presented terms. -/
theorem nothingPresentedNothingHappens : Obligations.NothingPresentedNothingHappens := by
  intro s hp hin
  rw [step, if_pos hp, fetch_nil hin]

/-! ### Hazards of one event -/

/-- Only a read of the result register can be a hazard among the reads (R146). -/
theorem hazardFree_read {b a : Word} (ha : a ≠ regAddr b offRoData) (before : Option BusEvent) (v : Word) (ok : Bool) :
    hazardFree b before (.rd a v ok) = true := by simp [hazardFree, ha]

/-- No access of a transaction is a hazard right after a ready poll (R145, R146). -/
theorem ReadAccess.hazardFree {b : Word} {e : BusEvent} (h : ReadAccess b e) {before : Option BusEvent}
    (hr : isReadyRead (regAddr b offRwctrl) before = true) : hazardFree b before e = true := by
  cases h with
  | poll v ok => exact hazardFree_read (regAddr_offRwctrl_ne_offRoData b) before v ok
  | command w ok => simp [Machine.hazardFree, hr]
  | result v ok => simp [Machine.hazardFree, hr]

/-! ### Hazards of a list of events -/

/-- The second part of a run starts after the last event of the first. -/
theorem hazardFreeRun_append (b : Word) (before : Option BusEvent) (xs ys : List BusEvent) :
    hazardFreeRun b before (xs ++ ys) =
      (hazardFreeRun b before xs && hazardFreeRun b (xs.getLast?.or before) ys) := by
  induction xs generalizing before with
  | nil => rfl
  | cons x xs ih => simp [hazardFreeRun, ih, List.getLast?_cons, Bool.and_assoc]

/-- The events keep R145 and R146 whatever came before them. -/
def HazardFreeAfterAny (b : Word) (evs : List BusEvent) : Prop := ∀ before, hazardFreeRun b before evs = true

namespace HazardFreeAfterAny

variable {b : Word}

theorem append {xs ys : List BusEvent} (hx : HazardFreeAfterAny b xs) (hy : HazardFreeAfterAny b ys) :
    HazardFreeAfterAny b (xs ++ ys) := fun before => by
  rw [hazardFreeRun_append, hx before, hy, Bool.and_self]

/-- One read of another register than the result's. -/
theorem read {a : Word} (ha : a ≠ regAddr b offRoData) (v : Word) (ok : Bool) : HazardFreeAfterAny b [.rd a v ok] :=
  fun before => by rw [hazardFreeRun, hazardFree_read ha, hazardFreeRun, Bool.and_self]

theorem polls (k : Nat) (s : State) : HazardFreeAfterAny b (pollEvents b k s) := by
  induction k with
  | zero => exact fun _ => rfl
  | succ k ih =>
    rw [pollEvents_succ]
    exact ih.append (read (regAddr_offRwctrl_ne_offRoData b) _ _)

/-- Polls until ready and the access they were made for: the only place of a command write and of a result read. -/
theorem polls_then_access {n k : Nat} {s : State} (h : ReadyAt b n k s) {e : BusEvent} (he : ReadAccess b e) :
    HazardFreeAfterAny b (pollEvents b (k + 1) s ++ [e]) := fun before => by
  have hlast : isReadyRead (regAddr b offRwctrl) ((pollEvents b (k + 1) s).getLast?.or before) = true := by
    obtain ⟨hok, hbit⟩ := h.ready
    simp [pollEvents_succ, isReadyRead, hok, hbit]
  rw [hazardFreeRun_append, polls, hazardFreeRun, he.hazardFree hlast, hazardFreeRun, Bool.and_self, Bool.and_self]

/-- The events of a transaction (R96 to R99). -/
theorem of_readEvents {w : Word} {n : Nat} {evs : List BusEvent} {st : Status} (h : ReadEvents b w n evs st) :
    HazardFreeAfterAny b evs := by
  cases h with
  | polls k s st hk hst => exact polls k s
  | write k s h => exact polls_then_access h (.command w false)
  | polls2 k j s y st h hj hst => exact (polls_then_access h (.command w true)).append (polls j y)
  | result k j s y v ok h h2 =>
    rw [List.append_assoc _ (pollEvents b (j + 1) y)]
    exact (polls_then_access h (.command w true)).append (polls_then_access h2 (.result v ok))

end HazardFreeAfterAny

/-! ### Hazards from state to state -/

/-- From `s` to `t` events were appended to `TRACE` that keep R145 and R146 whatever came before them. -/
def AppendsHazardFree (b : Word) (s t : State) : Prop := ∃ evs, t.trace = s.trace ++ evs ∧ HazardFreeAfterAny b evs

namespace AppendsHazardFree

variable {b : Word} {s t u : State}

theorem of_trace_eq (h : t.trace = s.trace) : AppendsHazardFree b s t := ⟨[], by simp [h], fun _ => rfl⟩

theorem trans (h : AppendsHazardFree b s t) (h' : AppendsHazardFree b t u) : AppendsHazardFree b s u := by
  obtain ⟨evs, e, he⟩ := h
  obtain ⟨evs', e', he'⟩ := h'
  exact ⟨evs ++ evs', by rw [e', e, List.append_assoc], he.append he'⟩

theorem read {a : Word} (ha : a ≠ regAddr b offRoData) (s : State) : AppendsHazardFree b s (afterRead a s) :=
  ⟨_, afterRead_trace s a, .read ha _ _⟩

theorem of_transaction (f p b r : Word) (s : State) : AppendsHazardFree b s (transaction f p b r s) := by
  obtain ⟨evs, htr, hev⟩ := (transaction_outcome f p b r s).events
  exact ⟨evs, htr, .of_readEvents hev⟩

/-- Steps 2 to 5 read `MDIO_RO_DATA` only inside their transactions. -/
theorem of_detectMdio (b : Word) (s : State) : AppendsHazardFree b s (detectMdio b s) := by
  refine detectMdio_induct (P := AppendsHazardFree b s) b s (fun off t hoff h => h.trans (read ?_ t))
    (fun f p r t h => h.trans (of_transaction f p b r t))
    (fun _ _ h => h) (fun g t h => h.trans (of_trace_eq (commitStage_trace t g))) (of_trace_eq rfl)
  rcases hoff with rfl | rfl | rfl
  · exact regAddr_offRwctrl_ne_offRoData b
  all_goals simp [regAddr, offUPhyaddr, offDPhyaddr, offRoData]

/-- The strap query reads the generation's strap, if it has one. -/
theorem of_strapOp {gen : Word} (hm : ∀ m, (genRecord s.params gen).strap = some m → m.addr ≠ regAddr b offRoData) :
    AppendsHazardFree b s (strapOp gen s) := by
  unfold strapOp afterStrapRead
  split
  · exact of_trace_eq rfl
  · next m h => exact read (hm m h) s

end AppendsHazardFree

/-- Settles O36: a transaction's events are free of hazards after any event, and so are `DETECT`'s other reads. -/
theorem commandsAndResultsFollowReady : Obligations.CommandsAndResultsFollowReady := by
  refine ⟨fun s f p b r hp => ?_, fun s gen b hp hb hm => ?_⟩
  · obtain ⟨evs, htr, hev⟩ := AppendsHazardFree.of_transaction f p b r s
    exact ⟨_, evs, exec_mdioRead hp f p b r, htr, hev none⟩
  · obtain ⟨hframe, -, -, -⟩ := detectController_spec gen (freshRecord s) hp rfl rfl
    have hmdio : AppendsHazardFree b (freshRecord s) (detectController gen (freshRecord s)) := by
      rw [detectController_of_base (s := freshRecord s) hb]
      exact .of_detectMdio b (freshRecord s)
    have hstrap : AppendsHazardFree b (detectController gen (freshRecord s))
        (strapOp gen (detectController gen (freshRecord s))) := .of_strapOp (by rw [hframe.params]; exact hm)
    obtain ⟨evs, htr, hev⟩ := hmdio.trans hstrap
    refine ⟨detectOp gen s, evs, exec_of_idle rfl hp, ?_, hev none⟩
    rw [detectOp_eq]
    exact htr

end Sys2Proof.Machine
